-- ==== Sys2Proof/Word.lean ====
section
/-! DEFINITION. The word types of the machine: bytes, 64-bit register words, 32-bit instruction words. -/

namespace Sys2Proof

/-- One byte of memory. -/
abbrev Byte := BitVec 8

/-- A register of `XLEN` = 64 bits (R7, R20, R28), an address, or an element value zero-extended to 64 bits. -/
abbrev Word := BitVec 64

/-- A 32-bit instruction word as fetched (R15, R53). -/
abbrev Insn := BitVec 32

end Sys2Proof
end

