-- ==== Sys2Proof/Config.lean ====
section
/-! DEFINITION. What the spec fixes as a parameter with a value (R7), and the FREE parts of the parameter `Base` (R111):
constants without a body, of which nothing can be proved but what holds for every value. -/

namespace Sys2Proof.Config

/-- `PREFIX_PO`: the primary opcode of the prefix word (R7, R72, D1, C1). -/
def prefixPo : Nat := 1

/-- `NREG`: entries of each of the GPR, FPR and CR-field files (R7, R20, R28, R29, D2). -/
def nreg : Nat := 128

/-- `CR_PRED_OFFS`: the CR field that governs element 0 under CR predication (R7, R167). -/
def crPredOffs : Nat := 32

/-- `RC1_CR_BASE`: OPEN ("CR8 (TBD)", R7, R124, D12); no rule of the model uses it (log 26). -/
opaque rc1CrBase : Nat

/-- What an unprefixed base instruction can see of the machine beside the memory it reads (R21, R117): `r0`-`r31`,
`fp0`-`fp31`, `CR0`-`CR7`, its own address and the byte order. -/
structure BaseView where
  gpr : List Word
  fpr : List Word
  cr : List (BitVec 4)
  pc : Word
  le : Bool
  deriving DecidableEq, Repr

/-- What an unprefixed base instruction can do to the machine: writes to `r0`-`r31`, `fp0`-`fp31`, `CR0`-`CR7` and to
memory bytes; of a branch also the next word address (bits 63:2; targets are multiples of 4, R125). -/
structure BaseEffect where
  gpr : List (BitVec 5 × Word)
  fpr : List (BitVec 5 × Word)
  cr : List (BitVec 3 × BitVec 4)
  mem : List (Word × Byte)
  nextWord : BitVec 62
  deriving DecidableEq, Repr, Inhabited

/-- FREE: `Base.elementOp` of a suffix word the reader's `Base` supplies, "a function of the width and the source values
alone" (R111): the width in bits and the source elements give the first and the second destination element (log 8). -/
opaque elementOp : Insn → Nat → List Word → Word × Word

/-- FREE: whether that element operation raises an exception of the base ISA (R126; log 8). -/
opaque elementRaises : Insn → Nat → List Word → Bool

/-- FREE: the addresses of the memory bytes that `Base.exec` of the supplied words reads; the model holds them to the
admitted addresses (R58, R111; log 9). -/
opaque baseReads : List Insn → BaseView → List Word

/-- FREE: `Base.exec` of the words (one, or the two of a v3.1 prefixed instruction) that the reader's `Base` supplies, from
what it sees and the bytes it reads (R74, R111; log 9). -/
opaque baseEffect : List Insn → BaseView → List Byte → BaseEffect

/-- FREE: whether `Base.exec` of those words raises an exception of the base ISA (R111; log 9). -/
opaque baseRaises : List Insn → BaseView → List Byte → Bool

/-- FREE: what an unprefixed supplied word with Rc = 1 records in `CR0` (`CR1` for FP) "as the base ISA says" (R117;
log 11). -/
opaque rcField : Insn → BaseView → BitVec 4

/-- FREE: the implicit second destination RS of an unprefixed `divmod2du` or `maddedu`, a register of the base ISA
(R182, U15; log 10). -/
opaque baseRS : Insn → BitVec 5

/-- FREE: the register EXTRA2_MODE selects for the implicit second destination RS of a prefixed `divmod2du` or `maddedu`
(R182, U15): from the suffix word, bit 18 and the extended numbers of the tagged operands, whether RS is a vector and
the GPR it starts at (log 10). -/
opaque implicitRS : Insn → Bool → List Nat → Bool × BitVec 7

end Sys2Proof.Config
end

