-- ==== Sys2Proof/Syntax.lean ====
section
/-! DEFINITION. The syntax: suffix profiles (R111), the fields of the 24-bit Remapped Encoding (R79 to R89), and the
instructions, one constructor per row of spec/opcode_table.json. -/

namespace Sys2Proof

/-- Which register file an operand belongs to (R111, R192). -/
inductive RegKind where
  | gpr
  | fpr
  /-- a 3-bit operand naming a CR field -/
  | crField
  /-- a 5-bit operand naming a bit of a CR field -/
  | crBit
  deriving DecidableEq, Repr

/-- The EXTRA slot an operand is tagged by (R111, R180): roles, not register fields of the suffix. -/
inductive Role where
  | rdest
  | rdest2
  | rsrc1
  | rsrc2
  | rsrc3
  deriving DecidableEq, Repr

/-- The "four separate modes" (R115). -/
inductive SuffixClass where
  | normal
  | crop
  | ldst
  | branch
  deriving DecidableEq, Repr

/-- The seven layouts of `RM{10:18}` (R82 to R89). -/
inductive RmFormat where
  | rm1p3s1d
  | rm1p2s1d
  | rm2p1s1d
  | rm2p2s
  | rm2p2s1d
  | rm2p1s2d
  | rm2p3s
  deriving DecidableEq, Repr

/-- A register operand of a suffix: its slot, its file and the field found in the suffix (a 3-bit field zero-extended). -/
structure Operand where
  role : Role
  kind : RegKind
  field : BitVec 5
  deriving DecidableEq, Repr

/-- What SVP64 needs to know of a suffix (R111). `rmFormat = none` is an UnVectoriseable suffix (R118). `dfltWidth` is the
operation's own width, which R142 keeps out of the element width. `mayRaise` says whether the instruction has a base-ISA
exception at all (integer `add` "raises none", R126), `atomic` whether it is a load-reserve or store-conditional (R62). -/
structure Profile where
  mnemonic : String
  cls : SuffixClass
  rmFormat : Option RmFormat
  operands : List Operand
  usesExtra2Mode : Bool
  fpSingle : Bool
  rc : Bool
  dfltWidth : Nat
  mayRaise : Bool
  atomic : Bool
  deriving DecidableEq, Repr

/-- An operand of a `Base` row: where its field's least significant bit lies in the suffix. -/
structure OperandSpec where
  role : Role
  kind : RegKind
  lo : Nat
  deriving DecidableEq, Repr

/-- One row of the reader's `Base` (R111): the words with `word &&& mask = bits`, and their profile; for a suffix LS009
names, the format it states stands before the row's own (R92, `profileOfRow`). -/
structure BaseRow where
  mask : Insn
  bits : Insn
  mnemonic : String
  cls : SuffixClass
  rmFormat : Option RmFormat
  operands : List OperandSpec
  usesExtra2Mode : Bool
  fpSingle : Bool
  rc : Bool
  dfltWidth : Nat
  mayRaise : Bool
  atomic : Bool
  deriving DecidableEq, Repr

/-- A row of v3.1 prefixed instructions of the reader's `Base` (R74): their two words. -/
structure BasePrefixedRow where
  prefixMask : Insn
  prefixBits : Insn
  suffixMask : Insn
  suffixBits : Insn
  mayRaise : Bool
  deriving DecidableEq, Repr

/-- The parameter `Base` (R7, R111, D31): the reader's rows, which come first, then the five words of 45_base_subset.md
unless the reader leaves them out (`testSubset` false); and the reader's v3.1 prefixed instructions. -/
structure BaseTable where
  testSubset : Bool
  rows : List BaseRow
  prefixed : List BasePrefixedRow
  deriving DecidableEq, Repr

/-- The test instance of `Base`: the five words of 45_base_subset.md alone (R220). -/
def BaseTable.test : BaseTable := { testSubset := true, rows := [], prefixed := [] }

/-- A decoded suffix: one of the five words of 45_base_subset.md (R221 to R225), or a word of the reader's `Base`. -/
inductive Suffix where
  | add (rt ra rb : BitVec 5)
  | addi (rt ra : BitVec 5) (si : BitVec 16)
  | b (li : BitVec 24)
  | lwz (rt ra : BitVec 5) (d : BitVec 16)
  | stw (rs ra : BitVec 5) (d : BitVec 16)
  | other (word : Insn) (prof : Profile)
  deriving DecidableEq, Repr

/-- The fields of `RM` that every format shares (R79, R80). `maskMode` true is CR predication (R160). -/
structure RmCommon where
  maskMode : Bool
  mask : BitVec 3
  elwidth : BitVec 2
  elwidthSrc : BitVec 2
  subvl : BitVec 2
  mode : BitVec 5
  deriving DecidableEq, Repr

/-- `RM{10:18}` of RM-1P-3S1D (R83). -/
structure Extra1p3s1d where
  rdest : BitVec 2
  rsrc1 : BitVec 2
  rsrc2 : BitVec 2
  rsrc3 : BitVec 2
  extra2Mode : Bool
  deriving DecidableEq, Repr

/-- `RM{10:18}` of RM-1P-2S1D (R84). -/
structure Extra1p2s1d where
  rdest : BitVec 3
  rsrc1 : BitVec 3
  rsrc2 : BitVec 3
  deriving DecidableEq, Repr

/-- `RM{10:18}` of RM-2P-1S1D (R85). -/
structure Extra2p1s1d where
  rdest : BitVec 3
  rsrc1 : BitVec 3
  maskSrc : BitVec 3
  deriving DecidableEq, Repr

/-- `RM{10:18}` of RM-2P-2S (R86). -/
structure Extra2p2s where
  rsrc1 : BitVec 3
  rsrc2 : BitVec 3
  maskSrc : BitVec 3
  deriving DecidableEq, Repr

/-- `RM{10:18}` of RM-2P-2S1D (R87). -/
structure Extra2p2s1d where
  rdest : BitVec 2
  rsrc1 : BitVec 2
  rsrc2 : BitVec 2
  maskSrc : BitVec 3
  deriving DecidableEq, Repr

/-- `RM{10:18}` of RM-2P-1S2D (R89, D22): the source first, then the two destinations. -/
structure Extra2p1s2d where
  rsrc1 : BitVec 2
  rdest1 : BitVec 2
  rdest2 : BitVec 2
  maskSrc : BitVec 3
  deriving DecidableEq, Repr

/-- `RM{10:18}` of RM-2P-3S (R89). -/
structure Extra2p3s where
  rsrc1 : BitVec 2
  rsrc2 : BitVec 2
  rsrc3 : BitVec 2
  maskSrc : BitVec 3
  deriving DecidableEq, Repr

/-- The instructions, one constructor per row of spec/opcode_table.json. `sv` is the row of the prefix word of any RM
format, with `RM` not split: "The layout of `RM{10:18}` and of `RM{19:23}` cannot be known from the prefix alone" (R77). -/
inductive Instr where
  | sv (rm : BitVec 24) (suffix : Insn)
  | svRm1p3s1d (c : RmCommon) (x : Extra1p3s1d) (sfx : Suffix)
  | svRm1p2s1d (c : RmCommon) (x : Extra1p2s1d) (sfx : Suffix)
  | svRm2p1s1d (c : RmCommon) (x : Extra2p1s1d) (sfx : Suffix)
  | svRm2p2s (c : RmCommon) (x : Extra2p2s) (sfx : Suffix)
  | svRm2p2s1d (c : RmCommon) (x : Extra2p2s1d) (sfx : Suffix)
  | svRm2p1s2d (c : RmCommon) (x : Extra2p1s2d) (sfx : Suffix)
  | svRm2p3s (c : RmCommon) (x : Extra2p3s) (sfx : Suffix)
  | add (rt ra rb : BitVec 5)
  | addi (rt ra : BitVec 5) (si : BitVec 16)
  | b (li : BitVec 24)
  | lwz (rt ra : BitVec 5) (d : BitVec 16)
  | stw (rs ra : BitVec 5) (d : BitVec 16)
  deriving DecidableEq, Repr

end Sys2Proof
end

