-- ==== Sys2Proof/Decode.lean ====
section
/-! DEFINITION. The decoder, total on any words, and after it the encoder, both from the encoding tables of
30_encoding.md (R72 to R90) and 45_base_subset.md (R221 to R226). -/

namespace Sys2Proof

/-! ## Words and bytes -/

/-- The four bytes of an instruction word, the byte at the lowest address first (R51, R53). -/
def bytesOfInsn (le : Bool) (w : Insn) : List Byte :=
  let lsbFirst := [w.extractLsb' 0 8, w.extractLsb' 8 8, w.extractLsb' 16 8, w.extractLsb' 24 8]
  if le then lsbFirst else lsbFirst.reverse

/-- The unsigned number whose bytes, least significant first, are `bs` (R51). -/
def natOfBytes : List Byte → Nat
  | [] => 0
  | b :: bs => b.toNat + 256 * natOfBytes bs

/-- The instruction word whose bytes, lowest address first, are `bs` (R51, R53). -/
def insnOfBytes (le : Bool) (bs : List Byte) : Insn :=
  BitVec.ofNat 32 (natOfBytes (if le then bs else bs.reverse))

/-- A field put at bit `lo` of an otherwise zero word of `n` bits. -/
def place (n lo : Nat) {m : Nat} (v : BitVec m) : BitVec n := v.setWidth n <<< lo

/-! ## The prefix word -/

/-- The primary opcode `W{0:5}` of a word. -/
def primaryOpcode (w : Insn) : BitVec 6 := w.extractLsb' 26 6

/-- Whether a word is a prefix of either kind: SVP64's or the base ISA's own v3.1 prefix (R74, R78). -/
def isPrefixWord (w : Insn) : Bool := primaryOpcode w = BitVec.ofNat 6 Config.prefixPo

/-- `isSVP64prefix` (R73): primary opcode 1 and the bits `P{7}` and `P{9}` set. -/
def isSvp64Prefix (w : Insn) : Bool := w &&& 0xFD400000#32 = 0x05400000#32

/-- The 24 bits of `RM` taken out of a prefix word (R75). -/
def rmOfPrefix (p : Insn) : BitVec 24 :=
  place 24 23 (p.extractLsb' 25 1) ||| place 24 22 (p.extractLsb' 23 1) ||| place 24 0 (p.extractLsb' 0 22)

/-- The fields of `RM` that every format shares (R79 to R81). -/
def commonOfRm (rm : BitVec 24) : RmCommon :=
  { maskMode := rm.getLsbD 23
    mask := rm.extractLsb' 20 3
    elwidth := rm.extractLsb' 18 2
    elwidthSrc := rm.extractLsb' 16 2
    subvl := rm.extractLsb' 14 2
    mode := rm.extractLsb' 0 5 }

/-- EXTRA, `RM{10:18}` (R80). -/
def extraOfRm (rm : BitVec 24) : BitVec 9 := rm.extractLsb' 5 9

/-- EXTRA split as RM-1P-3S1D (R83). -/
def extra1p3s1dOf (e : BitVec 9) : Extra1p3s1d :=
  ⟨e.extractLsb' 7 2, e.extractLsb' 5 2, e.extractLsb' 3 2, e.extractLsb' 1 2, e.getLsbD 0⟩

/-- EXTRA split as RM-1P-2S1D (R84). -/
def extra1p2s1dOf (e : BitVec 9) : Extra1p2s1d := ⟨e.extractLsb' 6 3, e.extractLsb' 3 3, e.extractLsb' 0 3⟩

/-- EXTRA split as RM-2P-1S1D (R85). -/
def extra2p1s1dOf (e : BitVec 9) : Extra2p1s1d := ⟨e.extractLsb' 6 3, e.extractLsb' 3 3, e.extractLsb' 0 3⟩

/-- EXTRA split as RM-2P-2S (R86). -/
def extra2p2sOf (e : BitVec 9) : Extra2p2s := ⟨e.extractLsb' 6 3, e.extractLsb' 3 3, e.extractLsb' 0 3⟩

/-- EXTRA split as RM-2P-2S1D (R87). -/
def extra2p2s1dOf (e : BitVec 9) : Extra2p2s1d :=
  ⟨e.extractLsb' 7 2, e.extractLsb' 5 2, e.extractLsb' 3 2, e.extractLsb' 0 3⟩

/-- EXTRA split as RM-2P-1S2D (R89). -/
def extra2p1s2dOf (e : BitVec 9) : Extra2p1s2d :=
  ⟨e.extractLsb' 7 2, e.extractLsb' 5 2, e.extractLsb' 3 2, e.extractLsb' 0 3⟩

/-- EXTRA split as RM-2P-3S (R89). -/
def extra2p3sOf (e : BitVec 9) : Extra2p3s :=
  ⟨e.extractLsb' 7 2, e.extractLsb' 5 2, e.extractLsb' 3 2, e.extractLsb' 0 3⟩

/-! ## The suffix -/

/-- The operand field of a `Base` row's operand in a word: 3 bits for a CR field, 5 bits otherwise (R111). -/
def operandOfSpec (w : Insn) (o : OperandSpec) : Operand :=
  { role := o.role
    kind := o.kind
    field := if o.kind = .crField then (w.extractLsb' o.lo 3).setWidth 5 else w.extractLsb' o.lo 5 }

/-- "The assignments LS009 itself states, all of them", of the suffixes it names one by one (R92); `none` is
UnVectoriseable. Which further suffixes its "etc.", "LDST (Indexed)" and "LDST Update" mean, the row says (log 34). -/
def statedFormats : List (String × Option RmFormat) :=
  [("fmadd", some .rm1p3s1d), ("isel", some .rm1p3s1d), ("madd", some .rm1p3s1d),
   ("divmod2du", some .rm1p3s1d), ("maddedu", some .rm1p3s1d),
   ("add", some .rm1p2s1d), ("rlwimi", some .rm1p2s1d), ("stw", some .rm2p2s), ("stdx", some .rm2p3s),
   ("lhaux", some .rm2p2s1d), ("sc", none), ("sync", none), ("mtmsr", none)]

/-- The RM format of a suffix: the one LS009 states for its name; "for every other suffix the format is part of the `Base`
parameter" (R92, R191). -/
def formatOf (mnemonic : String) (supplied : Option RmFormat) : Option RmFormat :=
  (statedFormats.lookup mnemonic).getD supplied

/-- The draft instructions "using EXTRA2_MODE" (R92, R111, R182). -/
def extra2ModeNames : List String := ["divmod2du", "maddedu"]

/-- The profile a `Base` row gives a word it covers (R111), within what LS009 states of the suffixes it names (R92). -/
def profileOfRow (w : Insn) (r : BaseRow) : Profile :=
  { mnemonic := r.mnemonic
    cls := r.cls
    rmFormat := formatOf r.mnemonic r.rmFormat
    operands := r.operands.map (operandOfSpec w)
    usesExtra2Mode := r.usesExtra2Mode || decide (r.mnemonic ∈ extra2ModeNames)
    fpSingle := r.fpSingle
    rc := r.rc
    dfltWidth := r.dfltWidth
    mayRaise := r.mayRaise
    atomic := r.atomic }

/-- The profile the reader's rows give a word: that of the first row that covers it (R111). -/
def baseLookup : List BaseRow → Insn → Option Profile
  | [], _ => none
  | r :: rest, w => if w &&& r.mask = r.bits then some (profileOfRow w r) else baseLookup rest w

/-- `Base.decode` on the five words of the test subset (R221 to R225). -/
def decodeSubset (w : Insn) : Option Suffix :=
  if w &&& 0xFC0007FF#32 = 0x7C000214#32 then
    some (.add (w.extractLsb' 21 5) (w.extractLsb' 16 5) (w.extractLsb' 11 5))
  else if w &&& 0xFC000000#32 = 0x38000000#32 then
    some (.addi (w.extractLsb' 21 5) (w.extractLsb' 16 5) (w.extractLsb' 0 16))
  else if w &&& 0xFC000003#32 = 0x48000000#32 then
    some (.b (w.extractLsb' 2 24))
  else if w &&& 0xFC000000#32 = 0x80000000#32 then
    some (.lwz (w.extractLsb' 21 5) (w.extractLsb' 16 5) (w.extractLsb' 0 16))
  else if w &&& 0xFC000000#32 = 0x90000000#32 then
    some (.stw (w.extractLsb' 21 5) (w.extractLsb' 16 5) (w.extractLsb' 0 16))
  else none

/-- `Base.decode` (R111): the reader's rows first ("a `Base` with the real table overrides it", D22), then the test subset
where the reader keeps it; `none` is `Illegal` (R220). -/
def decodeSuffix (base : BaseTable) (w : Insn) : Option Suffix :=
  match baseLookup base.rows w with
  | some prof => some (.other w prof)
  | none => if base.testSubset then decodeSubset w else none

/-- Whether a word of primary opcode 1 begins a v3.1 prefixed instruction of the reader's `Base` (R74). -/
def BaseTable.coversPrefix (base : BaseTable) (p : Insn) : Bool :=
  base.prefixed.any fun r => decide (p &&& r.prefixMask = r.prefixBits)

/-- The reader's row for the two words of a v3.1 prefixed instruction (R74). -/
def prefixedLookup : List BasePrefixedRow → Insn → Insn → Option BasePrefixedRow
  | [], _, _ => none
  | r :: rest, p, w =>
    if p &&& r.prefixMask = r.prefixBits ∧ w &&& r.suffixMask = r.suffixBits then some r else prefixedLookup rest p w

/-- The profile of a suffix: for the test subset the table of R226, with `dfltWidth` 64 for `add` and `addi` (R221, R222).
The table gives `b` no class, and nothing gives `b`, `lwz` and `stw` a `dfltWidth`: the class branch of `b` and the widths
64, 32 and 32 are the model's choice, which no effect of the five words reads (log 33). -/
def suffixProfile : Suffix → Profile
  | .add rt ra rb =>
    { mnemonic := "add", cls := .normal, rmFormat := some .rm1p2s1d,
      operands := [⟨.rdest, .gpr, rt⟩, ⟨.rsrc1, .gpr, ra⟩, ⟨.rsrc2, .gpr, rb⟩],
      usesExtra2Mode := false, fpSingle := false, rc := false, dfltWidth := 64, mayRaise := false,
      atomic := false }
  | .addi rt ra _ =>
    { mnemonic := "addi", cls := .normal, rmFormat := some .rm2p1s1d,
      operands := [⟨.rdest, .gpr, rt⟩, ⟨.rsrc1, .gpr, ra⟩],
      usesExtra2Mode := false, fpSingle := false, rc := false, dfltWidth := 64, mayRaise := false,
      atomic := false }
  | .b _ =>
    { mnemonic := "b", cls := .branch, rmFormat := none, operands := [],
      usesExtra2Mode := false, fpSingle := false, rc := false, dfltWidth := 64, mayRaise := false,
      atomic := false }
  | .lwz rt ra _ =>
    { mnemonic := "lwz", cls := .ldst, rmFormat := some .rm2p1s1d,
      operands := [⟨.rdest, .gpr, rt⟩, ⟨.rsrc1, .gpr, ra⟩],
      usesExtra2Mode := false, fpSingle := false, rc := false, dfltWidth := 32, mayRaise := true,
      atomic := false }
  | .stw rs ra _ =>
    { mnemonic := "stw", cls := .ldst, rmFormat := some .rm2p2s,
      operands := [⟨.rsrc1, .gpr, rs⟩, ⟨.rsrc2, .gpr, ra⟩],
      usesExtra2Mode := false, fpSingle := false, rc := false, dfltWidth := 32, mayRaise := true,
      atomic := false }
  | .other _ prof => prof

/-- The operand slots of an RM format (R83 to R89). -/
def formatRoles : RmFormat → List Role
  | .rm1p3s1d => [.rdest, .rsrc1, .rsrc2, .rsrc3]
  | .rm1p2s1d => [.rdest, .rsrc1, .rsrc2]
  | .rm2p1s1d => [.rdest, .rsrc1]
  | .rm2p2s => [.rsrc1, .rsrc2]
  | .rm2p2s1d => [.rdest, .rsrc1, .rsrc2]
  | .rm2p1s2d => [.rsrc1, .rdest, .rdest2]
  | .rm2p3s => [.rsrc1, .rsrc2, .rsrc3]

/-! ## The decoder -/

/-- What the decoder answers. -/
inductive Decoded where
  /-- an instruction of the opcode table -/
  | instr (i : Instr)
  /-- an unprefixed word of the reader's `Base` beyond the test subset (R110): it is no row of the table -/
  | baseWord (word : Insn) (prof : Profile)
  /-- a v3.1 prefixed instruction of the reader's `Base` (R74): it is no row of the table -/
  | basePrefixed (pfx suffix : Insn) (row : BasePrefixedRow)
  /-- rejected: a word of primary opcode 1 that is no SVP64 prefix, the base ISA's own v3.1 prefix, and of which the
  reader's `Base` has no instruction (R74, V79) -/
  | v31Prefix (word : Insn)
  /-- rejected: no instruction of `Base` (R220) -/
  | illegal (word : Insn)
  /-- rejected: no word at all, or a prefix word with no word after it -/
  | truncated
  deriving DecidableEq, Repr

/-- The pair of an SVP64 prefix with the given `RM` and a suffix word, split by the suffix's RM format in the order of
R91; a pair whose suffix has no RM format stays unsplit. -/
def decodePair (base : BaseTable) (rm : BitVec 24) (s : Insn) : Instr :=
  if isPrefixWord s then .sv rm s
  else
    match decodeSuffix base s with
    | none => .sv rm s
    | some sfx =>
      match (suffixProfile sfx).rmFormat with
      | none => .sv rm s
      | some .rm1p3s1d => .svRm1p3s1d (commonOfRm rm) (extra1p3s1dOf (extraOfRm rm)) sfx
      | some .rm1p2s1d => .svRm1p2s1d (commonOfRm rm) (extra1p2s1dOf (extraOfRm rm)) sfx
      | some .rm2p1s1d => .svRm2p1s1d (commonOfRm rm) (extra2p1s1dOf (extraOfRm rm)) sfx
      | some .rm2p2s => .svRm2p2s (commonOfRm rm) (extra2p2sOf (extraOfRm rm)) sfx
      | some .rm2p2s1d => .svRm2p2s1d (commonOfRm rm) (extra2p2s1dOf (extraOfRm rm)) sfx
      | some .rm2p1s2d => .svRm2p1s2d (commonOfRm rm) (extra2p1s2dOf (extraOfRm rm)) sfx
      | some .rm2p3s => .svRm2p3s (commonOfRm rm) (extra2p3sOf (extraOfRm rm)) sfx

/-- An unprefixed suffix as an instruction: the prefix changes no decoding (R6, R113), so the same decoder serves both. -/
def decodedOfSuffix : Suffix → Decoded
  | .add rt ra rb => .instr (.add rt ra rb)
  | .addi rt ra si => .instr (.addi rt ra si)
  | .b li => .instr (.b li)
  | .lwz rt ra d => .instr (.lwz rt ra d)
  | .stw rs ra d => .instr (.stw rs ra d)
  | .other w prof => .baseWord w prof

/-- The decoder: the first instruction of a list of words (R90, R91). -/
def decode (base : BaseTable) : List Insn → Decoded
  | [] => .truncated
  | w :: rest =>
    if isSvp64Prefix w then
      match rest with
      | [] => .truncated
      | s :: _ => .instr (decodePair base (rmOfPrefix w) s)
    else if isPrefixWord w then
      match rest with
      | [] => if base.coversPrefix w then .truncated else .v31Prefix w
      | s :: _ =>
        match prefixedLookup base.prefixed w s with
        | some row => .basePrefixed w s row
        | none => .v31Prefix w
    else
      match decodeSuffix base w with
      | none => .illegal w
      | some sfx => decodedOfSuffix sfx

/-- The words whose bytes, lowest address first, are `bs`. -/
def wordsOfBytes (le : Bool) : List Byte → List Insn
  | a :: b :: c :: d :: rest => insnOfBytes le [a, b, c, d] :: wordsOfBytes le rest
  | _ => []

/-- The two words of the instruction whose bits are the low `nbits` of `w`, numbered as spec/opcode_table.json numbers
them: the first word in bits 31:0, the second in bits 63:32. -/
def tableWords (nbits w : Nat) : List Insn :=
  let v := w % 2 ^ nbits
  [BitVec.ofNat 32 v, BitVec.ofNat 32 (v / 2 ^ 32)]

/-- The instruction the decoder reads from the low `nbits` bits of `w`, laid out as bytes (here with `MSR.LE` = 0, the
value after reset) and read back, with the test subset as `Base` (R7, D31). -/
def decodeTableWord (nbits w : Nat) : Option Instr :=
  match decode .test (wordsOfBytes false ((tableWords nbits w).flatMap (bytesOfInsn false))) with
  | .instr i => some i
  | _ => none

/-! ## The encoder -/

/-- The prefix word that carries `RM` (R72, R75). -/
def prefixOfRm (rm : BitVec 24) : Insn :=
  0x05400000#32 ||| place 32 25 (rm.extractLsb' 23 1) ||| place 32 23 (rm.extractLsb' 22 1)
    ||| place 32 0 (rm.extractLsb' 0 22)

/-- `RM` put together from its fields (R81). -/
def rmOf (c : RmCommon) (extra : BitVec 9) : BitVec 24 :=
  place 24 23 (BitVec.ofBool c.maskMode) ||| place 24 20 c.mask ||| place 24 18 c.elwidth
    ||| place 24 16 c.elwidthSrc ||| place 24 14 c.subvl ||| place 24 5 extra ||| place 24 0 c.mode

/-- EXTRA of RM-1P-3S1D (R83). -/
def Extra1p3s1d.bits (x : Extra1p3s1d) : BitVec 9 :=
  place 9 7 x.rdest ||| place 9 5 x.rsrc1 ||| place 9 3 x.rsrc2 ||| place 9 1 x.rsrc3
    ||| place 9 0 (BitVec.ofBool x.extra2Mode)

/-- EXTRA of RM-1P-2S1D (R84). -/
def Extra1p2s1d.bits (x : Extra1p2s1d) : BitVec 9 :=
  place 9 6 x.rdest ||| place 9 3 x.rsrc1 ||| place 9 0 x.rsrc2

/-- EXTRA of RM-2P-1S1D (R85). -/
def Extra2p1s1d.bits (x : Extra2p1s1d) : BitVec 9 :=
  place 9 6 x.rdest ||| place 9 3 x.rsrc1 ||| place 9 0 x.maskSrc

/-- EXTRA of RM-2P-2S (R86). -/
def Extra2p2s.bits (x : Extra2p2s) : BitVec 9 :=
  place 9 6 x.rsrc1 ||| place 9 3 x.rsrc2 ||| place 9 0 x.maskSrc

/-- EXTRA of RM-2P-2S1D (R87). -/
def Extra2p2s1d.bits (x : Extra2p2s1d) : BitVec 9 :=
  place 9 7 x.rdest ||| place 9 5 x.rsrc1 ||| place 9 3 x.rsrc2 ||| place 9 0 x.maskSrc

/-- EXTRA of RM-2P-1S2D (R89). -/
def Extra2p1s2d.bits (x : Extra2p1s2d) : BitVec 9 :=
  place 9 7 x.rsrc1 ||| place 9 5 x.rdest1 ||| place 9 3 x.rdest2 ||| place 9 0 x.maskSrc

/-- EXTRA of RM-2P-3S (R89). -/
def Extra2p3s.bits (x : Extra2p3s) : BitVec 9 :=
  place 9 7 x.rsrc1 ||| place 9 5 x.rsrc2 ||| place 9 3 x.rsrc3 ||| place 9 0 x.maskSrc

/-- The word of a suffix (R221 to R225). -/
def encodeSuffix : Suffix → Insn
  | .add rt ra rb =>
    place 32 26 31#6 ||| place 32 21 rt ||| place 32 16 ra ||| place 32 11 rb ||| place 32 1 266#9
  | .addi rt ra si => place 32 26 14#6 ||| place 32 21 rt ||| place 32 16 ra ||| place 32 0 si
  | .b li => place 32 26 18#6 ||| place 32 2 li
  | .lwz rt ra d => place 32 26 32#6 ||| place 32 21 rt ||| place 32 16 ra ||| place 32 0 d
  | .stw rs ra d => place 32 26 36#6 ||| place 32 21 rs ||| place 32 16 ra ||| place 32 0 d
  | .other w _ => w

/-- The words of an instruction, the one at the lowest address first (R70, R72). -/
def encode : Instr → List Insn
  | .sv rm s => [prefixOfRm rm, s]
  | .svRm1p3s1d c x sfx => [prefixOfRm (rmOf c x.bits), encodeSuffix sfx]
  | .svRm1p2s1d c x sfx => [prefixOfRm (rmOf c x.bits), encodeSuffix sfx]
  | .svRm2p1s1d c x sfx => [prefixOfRm (rmOf c x.bits), encodeSuffix sfx]
  | .svRm2p2s c x sfx => [prefixOfRm (rmOf c x.bits), encodeSuffix sfx]
  | .svRm2p2s1d c x sfx => [prefixOfRm (rmOf c x.bits), encodeSuffix sfx]
  | .svRm2p1s2d c x sfx => [prefixOfRm (rmOf c x.bits), encodeSuffix sfx]
  | .svRm2p3s c x sfx => [prefixOfRm (rmOf c x.bits), encodeSuffix sfx]
  | .add rt ra rb => [encodeSuffix (.add rt ra rb)]
  | .addi rt ra si => [encodeSuffix (.addi rt ra si)]
  | .b li => [encodeSuffix (.b li)]
  | .lwz rt ra d => [encodeSuffix (.lwz rt ra d)]
  | .stw rs ra d => [encodeSuffix (.stw rs ra d)]

end Sys2Proof
end

