-- ==== Sys2Proof/Machine/Flags.lean ====
section
/-! DEFINITION. The only flags the spec has: the four bits of a CR field (R29), and the tests CR predication makes of them
(R166). -/

namespace Sys2Proof.Machine

/-- Bit `k` of a CR field counted as the field's names are ordered: 0 LT, 1 GT, 2 EQ, 3 SO (R29, R170). -/
def crFieldBit (f : BitVec 4) (k : Nat) : Bool := f.getMsbD k

/-- Bit `k` of a CR field (0 LT, 1 GT, 2 EQ, 3 SO) set to a value. -/
def setCrFieldBit (f : BitVec 4) (k : Nat) (v : Bool) : BitVec 4 :=
  let m : BitVec 4 := 8#4 >>> k
  if v then f ||| m else f &&& ~~~m

/-- The CR predicate test of a field (R166): bits `m{0:1}` choose the bit, bit `m{2}` the sense (0: enabled if set). -/
def crPredTest (m : BitVec 3) (f : BitVec 4) : Bool := crFieldBit f (m.toNat / 2) != m.getLsbD 0

end Sys2Proof.Machine
end

