-- ==== Sys2Proof/Machine/State.lean ====
section
/-! DEFINITION. The state of the machine as plain data (10_state.md), the reasons a step can stop, and the state after
reset. -/

namespace Sys2Proof.Machine

/-- A register file of `NREG` = 128 registers of 64 bits (R20, R28). -/
abbrev RegFile := Vector Word 128

/-- The 128 CR fields of 4 bits; bit 3 is LT, bit 2 GT, bit 1 EQ, bit 0 SO (R29). -/
abbrev CrFile := Vector (BitVec 4) 128

/-- Memory: the listed bytes, in one canonical form (`Memory.wf`). -/
abbrev Memory := List Host.Cell

/-- A range of addresses. -/
structure AddrRange where
  base : Nat
  size : Nat
  deriving DecidableEq, Repr

/-- The open parameters of the spec, which a launch supplies and no instruction writes (R7, R58, R111, D3, D15, D19,
D31). `cross64` true is `CROSS64` = `allow`. -/
structure Launch where
  maxVL : Nat
  cross64 : Bool
  admitted : List AddrRange
  base : BaseTable
  deriving DecidableEq, Repr

/-- The state of the machine (10_state.md). `stored` is the model's own: the addresses stored to since launch, which a
later fetch may not read (R63). -/
structure State where
  gpr : RegFile
  fpr : RegFile
  cr : CrFile
  vl : Nat
  pc : Word
  le : Bool
  mem : Memory
  stored : List Nat
  launch : Launch
  deriving DecidableEq, Repr

/-- The faults: what the machine itself reports. -/
inductive Fault where
  /-- `IllegalInstruction(pc)` (R240, R242, R244): raised at decode by `raiseIllegal`, it ends the run, carries the
  address of the instruction (of the prefix word for a pair) and nothing else. Safe: the spec gives no trap entry. -/
  | illegalInstruction (pc : Word)
  deriving DecidableEq, Repr

/-- The refusals: the model gives the run no meaning (R112). Each is safe: nothing is proved of a refused step. -/
inductive Refusal where
  /-- raised by an arm of `exec` that has no meaning yet; safe -/
  | notModelled (mnemonic : String)
  /-- "suffix is a prefix" (R78), raised by a pair whose suffix word has primary opcode 1; safe -/
  | suffixIsPrefix
  /-- "prefixed branch" (R125), raised by a pair of class branch while `VL` > 0; safe -/
  | prefixedBranch
  /-- "LD/ST mode not in source" (R65), raised by a load or store pair beyond `VL` = 0 and identity; safe -/
  | ldstModeNotInSource
  /-- "class not normal" (R122), raised by a CR-operation pair beyond `VL` = 0 and identity; safe -/
  | classNotNormal
  /-- "MODE nonzero" (R122), raised by a normal-class pair with MODE set; safe -/
  | modeNonzero
  /-- "Vectorised Rc=1" (R124), raised by a pair with Rc = 1 beyond `VL` = 0 and identity; safe -/
  | vectorisedRc1
  /-- "ELWIDTH differs from ELWIDTH_SRC" (R148), raised by a normal-class pair with unequal widths; safe -/
  | elwidthDiffers
  /-- "addi with RA=0 under SVP64" (R222), raised by a prefixed `addi` with field RA = 0 beyond `VL` = 0 and identity;
  safe -/
  | addiRa0
  /-- raised by a normal-class pair of a twin-predicated format with other than one source and one destination: "the
  model does not run `Loop2P` for them" (R173); safe -/
  | twinLoopShape
  /-- "element past end of register file" (R26, R167, R211), raised by an access to an element or a CR predicate field
  beyond entry 127; safe -/
  | elementPastEnd
  /-- "integer predicate beyond bit 63" (R165), raised by the test of an element `i` >= 64; safe -/
  | intPredicateBeyond63
  /-- "CR predicate overwritten inside loop" (R171), raised by a write of a CR field that governs an element not yet
  executed; safe -/
  | crPredicateOverwritten
  /-- "exception inside loop" (R126), raised by an element operation with a base-ISA exception; safe -/
  | exceptionInsideLoop
  /-- raised by an unprefixed or identity-prefixed base instruction with a base-ISA exception: traps other than illegal
  instruction are out of scope (R5, R112); safe -/
  | baseException
  /-- "A prefixed load-reserve or store-conditional suffix is outside this spec; the model refuses it" (R62), raised by
  such a pair beyond `VL` = 0 and identity (R246); safe -/
  | atomicSuffix
  /-- raised by a step on a word of primary opcode 1 that is no SVP64 prefix and of which the launch's `Base` has no v3.1
  prefixed instruction (R74, "the test `Base` has none and refuses", V79); safe -/
  | v31PrefixWord
  /-- "pair crosses 64 bytes" (R55), raised by the fetch of such a pair, or of a v3.1 prefixed instruction (log 18), while
  `CROSS64` is `refuse`; safe -/
  | pairCrosses64
  /-- raised by a fetch at a `pc` that is no multiple of 4 (R55); safe -/
  | pcMisaligned
  /-- raised by a load or store at a misaligned address (D19, R56); safe -/
  | misalignedAccess
  /-- raised by an access or a fetch at an address that is not admitted (R58, R224, D19); safe -/
  | addressNotAdmitted
  /-- raised by the fetch of a byte that was stored to (R63); safe -/
  | storedCodeFetched
  /-- raised by the decoder on a prefix word with no word after it; no fetch gives it one; safe -/
  | truncatedPair
  deriving DecidableEq, Repr

namespace State

/-- Sets the program counter. -/
def setPc (s : State) (a : Word) : State := { s with pc := a }

/-- Sets the integer register file. -/
def setGpr (s : State) (f : RegFile) : State := { s with gpr := f }

/-- Sets the floating-point register file. -/
def setFpr (s : State) (f : RegFile) : State := { s with fpr := f }

/-- Sets the CR fields. -/
def setCr (s : State) (f : CrFile) : State := { s with cr := f }

/-- Sets memory. -/
def setMem (s : State) (m : Memory) : State := { s with mem := m }

/-- Sets the list of addresses stored to. -/
def setStored (s : State) (l : List Nat) : State := { s with stored := l }

/-- Sets the launch parameters. -/
def setLaunch (s : State) (l : Launch) : State := { s with launch := l }

/-- The machine right after reset. The spec gives no reset value for anything (R40, R270): every value here is the
model's choice (log 1 to 6), and no statement rests on one. -/
def reset : State :=
  { gpr := Vector.replicate 128 0#64
    fpr := Vector.replicate 128 0#64
    cr := Vector.replicate 128 0#4
    vl := 0
    pc := 0#64
    le := false
    mem := []
    stored := []
    launch := { maxVL := 1, cross64 := false, admitted := [⟨0, 2 ^ 64⟩], base := .test } }

end State

end Sys2Proof.Machine
end

