-- ==== Sys2Proof/Machine/Ops.lean ====
section
/-! DEFINITION. The named operations: memory, the register files as arrays of elements, the program counter, and raising
the illegal instruction trap. -/

namespace Sys2Proof.Machine

/-! ## Memory -/

/-- What a byte of memory that is not listed reads as. The spec gives memory no reset contents (R40); DESIGN CHOICE,
unsafe (log 6). -/
def Memory.unlisted : Byte := 0#8

/-- The byte at an address. -/
def Memory.read : Memory → Nat → Byte
  | [], _ => Memory.unlisted
  | (b, v) :: rest, a => if b = a then v else Memory.read rest a

/-- The byte at an address set to a value; the canonical form is kept (`Memory.wf`). -/
def Memory.write : Memory → Nat → Byte → Memory
  | [], a, v => if v = Memory.unlisted then [] else [(a, v)]
  | (b, x) :: rest, a, v =>
    if a < b then (if v = Memory.unlisted then (b, x) :: rest else (a, v) :: (b, x) :: rest)
    else if a = b then (if v = Memory.unlisted then rest else (a, v) :: rest)
    else (b, x) :: Memory.write rest a v

/-- The listed addresses rise strictly from `lo` on and stay below 2^64; no entry reads as an unlisted byte does. -/
def Memory.wfFrom : Nat → Memory → Bool
  | _, [] => true
  | lo, (a, v) :: rest =>
    decide (lo ≤ a) && decide (a < 2 ^ 64) && decide (v ≠ Memory.unlisted) && Memory.wfFrom (a + 1) rest

/-- The canonical form of memory: equal memories are equal lists. -/
def Memory.wf (m : Memory) : Bool := Memory.wfFrom 0 m

/-- An address put into a strictly rising list of addresses. -/
def insertAddr (a : Nat) : List Nat → List Nat
  | [] => [a]
  | b :: rest => if a < b then a :: b :: rest else if a = b then b :: rest else b :: insertAddr a rest

/-- Whether an address lies in a range. -/
def AddrRange.holds (r : AddrRange) (a : Nat) : Bool := decide (r.base ≤ a) && decide (a < r.base + r.size)

/-- Whether a launch admits an address (R58). -/
def Launch.admits (l : Launch) (a : Nat) : Bool := l.admitted.any (fun r => r.holds a)

/-- The `n` byte addresses from `a` on, modulo 2^64. -/
def addrsFrom (a : Word) (n : Nat) : List Word := (List.range n).map (fun k => a + BitVec.ofNat 64 k)

/-- `MemRead(addr, n)` (R51): the unsigned integer the `n` bytes form in the byte order of `MSR.LE`. -/
def memRead (s : State) (a : Word) (n : Nat) : Nat :=
  let bs := (addrsFrom a n).map (fun x => s.mem.read x.toNat)
  natOfBytes (if s.le then bs else bs.reverse)

/-- The `n` bytes of `trunc_{8n}(v)`, lowest address first, in the byte order of `MSR.LE` (R51). -/
def bytesOfNat (le : Bool) (n v : Nat) : List Byte :=
  let bs := (List.range n).map (fun k => BitVec.ofNat 8 (v >>> (8 * k)))
  if le then bs else bs.reverse

/-- One byte stored: memory changes and the address counts as stored to (R63). -/
def storeByte (s : State) (p : Word × Byte) : State :=
  (s.setMem (s.mem.write p.1.toNat p.2)).setStored (insertAddr p.1.toNat s.stored)

/-- Bytes stored one after another. -/
def storeBytes (s : State) (l : List (Word × Byte)) : State := l.foldl storeByte s

/-- Bytes stored where every address is admitted (R58); otherwise refused, with nothing stored (R224). -/
def storeAdmitted (s : State) (l : List (Word × Byte)) : Except Refusal State :=
  if l.all (fun p => s.launch.admits p.1.toNat) then .ok (storeBytes s l) else .error .addressNotAdmitted

/-- Whether an access of `n` bytes at `a` is naturally aligned and admitted (R56, R58, D19). -/
def checkAccess (s : State) (a : Word) (n : Nat) : Except Refusal Unit :=
  if a.toNat % n ≠ 0 then .error .misalignedAccess
  else if (addrsFrom a n).all (fun x => s.launch.admits x.toNat) then .ok ()
  else .error .addressNotAdmitted

/-- The word a load of 4 bytes gives (R51, R224). -/
def load32 (s : State) (a : Word) : Except Refusal (BitVec 32) :=
  match checkAccess s a 4 with
  | .error r => .error r
  | .ok () => .ok (BitVec.ofNat 32 (memRead s a 4))

/-- The bytes, each with its address, that a store of the 4-byte value `v` at `a` writes (R51, R225). -/
def store32Bytes (s : State) (a : Word) (v : BitVec 32) : List (Word × Byte) :=
  (addrsFrom a 4).zip (bytesOfNat s.le 4 v.toNat)

/-- A store of 4 bytes (R51, R225). -/
def store32 (s : State) (a : Word) (v : BitVec 32) : Except Refusal State :=
  match checkAccess s a 4 with
  | .error r => .error r
  | .ok () => .ok (storeBytes s (store32Bytes s a v))

/-! ## The register files -/

/-- `GPR[n]` or `FPR[n]`, whole (R12). -/
def readReg (f : RegFile) (n : Nat) : Word := f[n]?.getD 0#64

/-- `GPR[n] <- v` or `FPR[n] <- v`, whole. -/
def writeReg (f : RegFile) (n : Nat) (v : Word) : RegFile := f.setIfInBounds n v

/-- `CRf[n]` (R29). -/
def readCr (f : CrFile) (n : Nat) : BitVec 4 := f[n]?.getD 0#4

/-- `CRf[n] <- v`. -/
def writeCr (f : CrFile) (n : Nat) (v : BitVec 4) : CrFile := f.setIfInBounds n v

/-- The `w` low bits of a word, the others zero: `trunc_w` (R12). -/
def truncW (w : Nat) (v : Word) : Word := v &&& BitVec.ofNat 64 (2 ^ w - 1)

/-- Whether element `e` of width `w` counted from register `n` lies wholly before byte `8 * NREG` (R26). -/
def elInFile (n e w : Nat) : Bool := decide (8 * n + e * (w / 8) + w / 8 ≤ 8 * Config.nreg)

/-- The register an element lies in (R24). -/
def elReg (n e w : Nat) : Nat := n + e * w / 64

/-- The bit of its register an element starts at (R24). -/
def elBit (e w : Nat) : Nat := e * w % 64

/-- `GPRel(n, e, w)` or `FPRel(n, e, w)` (R24): bits `[o+w-1 : o]` of the register the element lies in. -/
def elRead (f : RegFile) (n e w : Nat) : Except Refusal Word :=
  if elInFile n e w then .ok (truncW w (readReg f (elReg n e w) >>> elBit e w)) else .error .elementPastEnd

/-- A register with the `w` bits from bit `o` on replaced by those of `v`, no other bit changed (R25). -/
def insertBits (old : Word) (o w : Nat) (v : Word) : Word :=
  (old &&& ~~~(BitVec.ofNat 64 (2 ^ w - 1) <<< o)) ||| (truncW w v <<< o)

/-- `GPRel(n, e, w) <- v` or `FPRel(n, e, w) <- v` (R24, R25): exactly `w/8` bytes are written. -/
def elWrite (f : RegFile) (n e w : Nat) (v : Word) : Except Refusal RegFile :=
  if elInFile n e w then
    .ok (writeReg f (elReg n e w) (insertBits (readReg f (elReg n e w)) (elBit e w) w v))
  else .error .elementPastEnd

/-- Byte `k` of a register file seen as `8 * NREG` bytes, byte 0 of a register its least significant (R24). -/
def fileByte (f : RegFile) (k : Nat) : Byte := (readReg f (k / 8)).extractLsb' (8 * (k % 8)) 8

/-! ## The program counter and the trap -/

/-- `pc <- pc + n`, modulo 2^64 (R32). -/
def advance (s : State) (n : Nat) : State := s.setPc (s.pc + BitVec.ofNat 64 n)

/-- `raise IllegalInstruction(pc)` (R240, R244): the run ends in a fault that records the address of the instruction; no
register, CR field or memory byte changes (R245). -/
def raiseIllegal (s : State) : Host.Outcome State Fault Refusal := .fault (.illegalInstruction s.pc)

/-- An answer that is a state or a refusal as the outcome of a step. -/
def outcomeOf : Except Refusal State → Host.Outcome State Fault Refusal
  | .ok s => .next s
  | .error r => .refused r

end Sys2Proof.Machine
end

