-- ==== Sys2Proof/Machine/Operands.lean ====
section
/-! DEFINITION. Every operand form the spec gives: register-number extension (44_register_extension.md), element width
(41_elwidth_subvl.md), and reading and writing an element of a GPR, FPR, CR-field or CR-bit operand. -/

namespace Sys2Proof.Machine

/-- The value of an EXTRA slot: 2 or 3 bits (R200). -/
inductive ExtraVal where
  | e2 (v : BitVec 2)
  | e3 (v : BitVec 3)
  deriving DecidableEq, Repr

/-- Whether a slot is zero, its "off" value (R94). -/
def ExtraVal.isZero : ExtraVal → Bool
  | .e2 v => v = 0#2
  | .e3 v => v = 0#3

/-- The slots of one pair: the RM format, each EXTRA slot's value, EXTRA2_MODE and MASK_SRC (zero where the format has
none). -/
structure Slots where
  fmt : RmFormat
  entries : List (Role × ExtraVal)
  extra2Mode : Bool
  maskSrc : BitVec 3
  deriving DecidableEq, Repr

/-- Slots of RM-1P-3S1D (R83). -/
def slots1p3s1d (x : Extra1p3s1d) : Slots :=
  { fmt := .rm1p3s1d
    entries := [(.rdest, .e2 x.rdest), (.rsrc1, .e2 x.rsrc1), (.rsrc2, .e2 x.rsrc2), (.rsrc3, .e2 x.rsrc3)]
    extra2Mode := x.extra2Mode
    maskSrc := 0#3 }

/-- Slots of RM-1P-2S1D (R84). -/
def slots1p2s1d (x : Extra1p2s1d) : Slots :=
  { fmt := .rm1p2s1d
    entries := [(.rdest, .e3 x.rdest), (.rsrc1, .e3 x.rsrc1), (.rsrc2, .e3 x.rsrc2)]
    extra2Mode := false
    maskSrc := 0#3 }

/-- Slots of RM-2P-1S1D (R85). -/
def slots2p1s1d (x : Extra2p1s1d) : Slots :=
  { fmt := .rm2p1s1d
    entries := [(.rdest, .e3 x.rdest), (.rsrc1, .e3 x.rsrc1)]
    extra2Mode := false
    maskSrc := x.maskSrc }

/-- Slots of RM-2P-2S (R86). -/
def slots2p2s (x : Extra2p2s) : Slots :=
  { fmt := .rm2p2s
    entries := [(.rsrc1, .e3 x.rsrc1), (.rsrc2, .e3 x.rsrc2)]
    extra2Mode := false
    maskSrc := x.maskSrc }

/-- Slots of RM-2P-2S1D (R87). -/
def slots2p2s1d (x : Extra2p2s1d) : Slots :=
  { fmt := .rm2p2s1d
    entries := [(.rdest, .e2 x.rdest), (.rsrc1, .e2 x.rsrc1), (.rsrc2, .e2 x.rsrc2)]
    extra2Mode := false
    maskSrc := x.maskSrc }

/-- Slots of RM-2P-1S2D (R89): Rdest1 is the role `rdest`, Rdest2 the role `rdest2`. -/
def slots2p1s2d (x : Extra2p1s2d) : Slots :=
  { fmt := .rm2p1s2d
    entries := [(.rsrc1, .e2 x.rsrc1), (.rdest, .e2 x.rdest1), (.rdest2, .e2 x.rdest2)]
    extra2Mode := false
    maskSrc := x.maskSrc }

/-- Slots of RM-2P-3S (R89). -/
def slots2p3s (x : Extra2p3s) : Slots :=
  { fmt := .rm2p3s
    entries := [(.rsrc1, .e2 x.rsrc1), (.rsrc2, .e2 x.rsrc2), (.rsrc3, .e2 x.rsrc3)]
    extra2Mode := false
    maskSrc := x.maskSrc }

/-- The slots a raw `RM` has under a format (R91 step 5). -/
def slotsOfRm (f : RmFormat) (rm : BitVec 24) : Slots :=
  match f with
  | .rm1p3s1d => slots1p3s1d (extra1p3s1dOf (extraOfRm rm))
  | .rm1p2s1d => slots1p2s1d (extra1p2s1dOf (extraOfRm rm))
  | .rm2p1s1d => slots2p1s1d (extra2p1s1dOf (extraOfRm rm))
  | .rm2p2s => slots2p2s (extra2p2sOf (extraOfRm rm))
  | .rm2p2s1d => slots2p2s1d (extra2p2s1dOf (extraOfRm rm))
  | .rm2p1s2d => slots2p1s2d (extra2p1s2dOf (extraOfRm rm))
  | .rm2p3s => slots2p3s (extra2p3sOf (extraOfRm rm))

/-- The value of a role's slot; a role the format has no slot for reads as zero, the scalar identity (R94). -/
def slotOf : List (Role × ExtraVal) → Role → ExtraVal
  | [], _ => .e3 0#3
  | (r, v) :: rest, role => if r = role then v else slotOf rest role

/-! ## Register-number extension -/

/-- `Extend` (R206): the tag (true is vector) and the 7-bit register number. -/
def extend (ra : BitVec 5) : ExtraVal → Bool × BitVec 7
  | .e3 v =>
    let lo2 : BitVec 2 := v.extractLsb' 0 2
    if v.getLsbD 2 then (true, ra ++ lo2) else (false, lo2 ++ ra)
  | .e2 v =>
    let b : BitVec 1 := v.extractLsb' 0 1
    if v.getLsbD 1 then (true, ra ++ b ++ 0#1) else (false, 0#1 ++ b ++ ra)

/-- `ExtendCR` (R211): the tag and the 7-bit CR field number. -/
def extendCr (bf : BitVec 3) : ExtraVal → Bool × BitVec 7
  | .e3 v =>
    let lo2 : BitVec 2 := v.extractLsb' 0 2
    if v.getLsbD 2 then (true, bf ++ lo2 ++ 0#2) else (false, 0#2 ++ lo2 ++ bf)
  | .e2 v =>
    let b : BitVec 1 := v.extractLsb' 0 1
    if v.getLsbD 1 then (true, bf ++ b ++ 0#3) else (false, 0#3 ++ b ++ bf)

/-- `ExtendCRbit` (R211): the tag, the CR field number and the bit within the field. -/
def extendCrBit (ba : BitVec 5) (x : ExtraVal) : Bool × BitVec 7 × BitVec 2 :=
  let t := extendCr (ba.extractLsb' 2 3) x
  (t.1, t.2, ba.extractLsb' 0 2)

/-- A register operand with its extended number (R190): the file, the tag, the register or CR field it starts at, and
for a CR bit the bit within the field. -/
structure ExtOperand where
  kind : RegKind
  isVec : Bool
  num : Nat
  bit : Nat
  deriving DecidableEq, Repr

/-- An operand extended by the value of its slot (R192, R206, R211). -/
def extendOperand (o : Operand) (x : ExtraVal) : ExtOperand :=
  match o.kind with
  | .gpr => ⟨.gpr, (extend o.field x).1, (extend o.field x).2.toNat, 0⟩
  | .fpr => ⟨.fpr, (extend o.field x).1, (extend o.field x).2.toNat, 0⟩
  | .crField => ⟨.crField, (extendCr (o.field.extractLsb' 0 3) x).1, (extendCr (o.field.extractLsb' 0 3) x).2.toNat, 0⟩
  | .crBit =>
    ⟨.crBit, (extendCrBit o.field x).1, (extendCrBit o.field x).2.1.toNat, (extendCrBit o.field x).2.2.toNat⟩

/-- Whether a slot is a destination (R180). -/
def roleIsDest : Role → Bool
  | .rdest | .rdest2 => true
  | .rsrc1 | .rsrc2 | .rsrc3 => false

/-- The extended operands of a profile in the given roles, in the order of the roles. -/
def operandsIn (roles : List Role) (prof : Profile) (x : Slots) : List ExtOperand :=
  roles.filterMap fun r =>
    (prof.operands.find? (fun o => decide (o.role = r))).map fun o => extendOperand o (slotOf x.entries r)

/-- The sources, Rsrc1 first. -/
def sourcesOf (prof : Profile) (x : Slots) : List ExtOperand := operandsIn [.rsrc1, .rsrc2, .rsrc3] prof x

/-- The destinations that have a slot, Rdest first. -/
def destsOf (prof : Profile) (x : Slots) : List ExtOperand := operandsIn [.rdest, .rdest2] prof x

/-! ## Elements of operands -/

/-- `Width(ew)` in bits (R140, R142, R144): `8 << (3 - ew)`, with DEFAULT one element per 64-bit register (D23). -/
def widthOf (ew : BitVec 2) : Nat := 8 <<< (3 - ew.toNat)

/-- The sub-vector length (R150). -/
def subLen (subvl : BitVec 2) : Nat := subvl.toNat + 1

/-- The element index of an operand at iteration `i`, sub-element `j`: a scalar operand does not advance (R119, R151). -/
def elIndex (o : ExtOperand) (i sv j : Nat) : Nat := (if o.isVec then i else 0) * sv + j

/-- `El(file, n, e, w)` read (R119, R211): a CR element is a whole field, or its bit, whatever the width; one
field on per element is the spec's decision D21 (log 37). -/
def readEl (s : State) (o : ExtOperand) (e w : Nat) : Except Refusal Word :=
  match o.kind with
  | .gpr => elRead s.gpr o.num e w
  | .fpr => elRead s.fpr o.num e w
  | .crField =>
    if o.num + e < Config.nreg then .ok ((readCr s.cr (o.num + e)).setWidth 64) else .error .elementPastEnd
  | .crBit =>
    if o.num + e < Config.nreg then
      .ok ((BitVec.ofBool (crFieldBit (readCr s.cr (o.num + e)) o.bit)).setWidth 64)
    else .error .elementPastEnd

/-- A CR field written, unless it governs an element not yet executed (R171). -/
def writeCrGuarded (clash : Nat → Bool) (s : State) (n : Nat) (v : BitVec 4) : Except Refusal State :=
  if n < Config.nreg then
    if clash n then .error .crPredicateOverwritten else .ok (s.setCr (writeCr s.cr n v))
  else .error .elementPastEnd

/-- `El(file, n, e, w) <- v` (R119, R25, R211). -/
def writeEl (clash : Nat → Bool) (s : State) (o : ExtOperand) (e w : Nat) (v : Word) : Except Refusal State :=
  match o.kind with
  | .gpr =>
    match elWrite s.gpr o.num e w v with
    | .ok f => .ok (s.setGpr f)
    | .error r => .error r
  | .fpr =>
    match elWrite s.fpr o.num e w v with
    | .ok f => .ok (s.setFpr f)
    | .error r => .error r
  | .crField => writeCrGuarded clash s (o.num + e) (v.setWidth 4)
  | .crBit =>
    writeCrGuarded clash s (o.num + e) (setCrFieldBit (readCr s.cr (o.num + e)) o.bit (v.getLsbD 0))

/-- The source elements of one element operation, in order. -/
def readEls (s : State) (i sv j w : Nat) : List ExtOperand → Except Refusal (List Word)
  | [] => .ok []
  | o :: rest =>
    match readEl s o (elIndex o i sv j) w with
    | .error r => .error r
    | .ok v =>
      match readEls s i sv j w rest with
      | .error r => .error r
      | .ok vs => .ok (v :: vs)

/-- The destination elements of one element operation written, in order. -/
def writeEls (clash : Nat → Bool) (s : State) (i sv j w : Nat) : List ExtOperand → List Word → Except Refusal State
  | o :: rest, v :: vs =>
    match writeEl clash s o (elIndex o i sv j) w v with
    | .error r => .error r
    | .ok t => writeEls clash t i sv j w rest vs
  | _, _ => .ok s

end Sys2Proof.Machine
end

