-- ==== Sys2Proof/Machine/Base.lean ====
section
/-! DEFINITION. The parameter `Base` (R111): the five instructions of 45_base_subset.md, the element operations, and the
words the reader's `Base` supplies, whose effect is free. -/

namespace Sys2Proof.Machine

/-- A GPR named by a 5-bit field. -/
def gprField (s : State) (r : BitVec 5) : Word := readReg s.gpr r.toNat

/-- `(if RA = 0 then 0 else GPR[RA])` (R222, R224, R225). -/
def gprOrZero (s : State) (r : BitVec 5) : Word := if r = 0#5 then 0#64 else gprField s r

/-- A GPR named by a 5-bit field, written. -/
def setGprField (s : State) (r : BitVec 5) (v : Word) : State := s.setGpr (writeReg s.gpr r.toNat v)

/-- Unprefixed `add RT, RA, RB` (R221). -/
def baseAdd (rt ra rb : BitVec 5) (s : State) : State :=
  advance (setGprField s rt (gprField s ra + gprField s rb)) 4

/-- Unprefixed `addi RT, RA, SI` (R222). -/
def baseAddi (rt ra : BitVec 5) (si : BitVec 16) (s : State) : State :=
  advance (setGprField s rt (gprOrZero s ra + si.signExtend 64)) 4

/-- Unprefixed `b target` (R223): the displacement is relative to the address of the `b`. -/
def baseB (li : BitVec 24) (s : State) : State := s.setPc (s.pc + (li ++ 0#2).signExtend 64)

/-- The effective address of `lwz` and `stw` (R224, R225). -/
def effAddr (s : State) (ra : BitVec 5) (d : BitVec 16) : Word := gprOrZero s ra + d.signExtend 64

/-- Unprefixed `lwz RT, D(RA)` (R224). -/
def baseLwz (rt ra : BitVec 5) (d : BitVec 16) (s : State) : Except Refusal State :=
  match load32 s (effAddr s ra d) with
  | .error r => .error r
  | .ok v => .ok (advance (setGprField s rt (v.setWidth 64)) 4)

/-- Unprefixed `stw RS, D(RA)` (R225). -/
def baseStw (rs ra : BitVec 5) (d : BitVec 16) (s : State) : Except Refusal State :=
  match store32 s (effAddr s ra d) ((gprField s rs).setWidth 32) with
  | .error r => .error r
  | .ok t => .ok (advance t 4)

/-! ## Element operations -/

/-- `elementOp` of a suffix (R111, R221, R222): the first and the second destination element from the source elements
at width `w`. A suffix with no element operation of its own (`b`, `lwz`, `stw`: never looped over) answers zero. -/
def elementOp (sfx : Suffix) (w : Nat) (vs : List Word) : Word × Word :=
  match sfx, vs with
  | .add _ _ _, [a, b] => (truncW w (a + b), 0#64)
  | .addi _ _ si, [a] => (truncW w (a + si.signExtend 64), 0#64)
  | .other word _, vs => Config.elementOp word w vs
  | _, _ => (0#64, 0#64)

/-- Whether the element operation raises an exception of the base ISA (R126); `add` and `addi` raise none. -/
def elementRaises (sfx : Suffix) (w : Nat) (vs : List Word) : Bool :=
  match sfx with
  | .other word prof => prof.mayRaise && Config.elementRaises word w vs
  | _ => false

/-- One element operation: sources read at source step `i`, destinations written at destination step `d`, both at
sub-element `j` (R119, R173). -/
def elementStep (clash : Nat → Bool) (sfx : Suffix) (srcs dsts : List ExtOperand) (w sv i d j : Nat) (s : State) :
    Except Refusal State :=
  match readEls s i sv j w srcs with
  | .error r => .error r
  | .ok vs =>
    if elementRaises sfx w vs then .error .exceptionInsideLoop
    else writeEls clash s d sv j w dsts [(elementOp sfx w vs).1, (elementOp sfx w vs).2]

/-! ## Words of the reader's `Base` -/

/-- What an unprefixed base instruction can see beside the memory it reads (R21, R117). -/
def baseView (s : State) : Config.BaseView :=
  { gpr := (List.range 32).map (readReg s.gpr)
    fpr := (List.range 32).map (readReg s.fpr)
    cr := (List.range 8).map (readCr s.cr)
    pc := s.pc
    le := s.le }

/-- The register part of a base effect: only `r0`-`r31`, `fp0`-`fp31` and `CR0`-`CR7` can change (R21, R117). -/
def applyRegs (e : Config.BaseEffect) (s : State) : State :=
  ((s.setGpr (e.gpr.foldl (fun f p => writeReg f p.1.toNat p.2) s.gpr)).setFpr
    (e.fpr.foldl (fun f p => writeReg f p.1.toNat p.2) s.fpr)).setCr
    (e.cr.foldl (fun f p => writeCr f p.1.toNat p.2) s.cr)

/-- The bytes of memory the supplied words read, in the order of their free addresses. -/
def suppliedBytes (words : List Insn) (s : State) : List Byte :=
  (Config.baseReads words (baseView s)).map fun a => s.mem.read a.toNat

/-- The free effect of the supplied words in a state (log 9). -/
def suppliedEffect (words : List Insn) (s : State) : Config.BaseEffect :=
  Config.baseEffect words (baseView s) (suppliedBytes words s)

/-- The address after the supplied words: past them, but of a branch its free target (R32, R125). -/
def suppliedNext (words : List Insn) (branch : Bool) (s : State) : Word :=
  if branch then (suppliedEffect words s).nextWord.setWidth 64 <<< 2 else s.pc + BitVec.ofNat 64 (4 * words.length)

/-- The free effect of the words of the reader's `Base` (R111). That their reads, like their stores, are held to the
admitted addresses (R58) before anything else is asked of them is the model's choice (log 9). -/
def baseFree (words : List Insn) (mayRaise branch : Bool) (s : State) : Except Refusal State :=
  if !(Config.baseReads words (baseView s)).all (fun a => s.launch.admits a.toNat) then .error .addressNotAdmitted
  else if mayRaise && Config.baseRaises words (baseView s) (suppliedBytes words s) then .error .baseException
  else
    storeAdmitted ((applyRegs (suppliedEffect words s) s).setPc (suppliedNext words branch s))
      (suppliedEffect words s).mem

/-- Whether `Base.exec` of a word is one element operation on its own scalar registers: "`Base.elementOp(64, ...)` is
`Base.exec` with the register numbers replaced" (R141), for a normal-class suffix (log 11). -/
def isElementWise (prof : Profile) : Bool := decide (prof.cls = .normal) && prof.rmFormat.isSome

/-- No EXTRA at all: every operand is the base ISA's own scalar register (R21, R117). -/
def noSlots : Slots := { fmt := .rm1p2s1d, entries := [], extra2Mode := false, maskSrc := 0#3 }

/-- The implicit second destination RS of an unprefixed word (R182; log 10). -/
def baseImplicitDests (word : Insn) (prof : Profile) : List ExtOperand :=
  if prof.usesExtra2Mode then [⟨.gpr, false, (Config.baseRS word).toNat, 0⟩] else []

/-- The CR field an unprefixed word with Rc = 1 records its result in: "`CR0` (or `CR1` for FP)" (R117). -/
def rcTarget (prof : Profile) : Nat := if prof.operands.any (fun o => decide (o.kind = .fpr)) then 1 else 0

/-- The record of Rc = 1, free, made in the state after the operation from what the word saw before it (R117; log 11). -/
def recordRc (word : Insn) (prof : Profile) (v : Config.BaseView) (t : State) : State :=
  if prof.rc then t.setCr (writeCr t.cr (rcTarget prof) (Config.rcField word v)) else t

/-- The element-wise `Base.exec` of a word: its own exception is the base ISA's (R5). -/
def baseElementWise (word : Insn) (prof : Profile) (s : State) : Except Refusal State :=
  match elementStep (fun _ => false) (.other word prof) (sourcesOf prof noSlots)
      (destsOf prof noSlots ++ baseImplicitDests word prof) 64 1 0 0 0 s with
  | .error .exceptionInsideLoop => .error .baseException
  | .error r => .error r
  | .ok t => .ok (advance (recordRc word prof (baseView s) t) 4)

/-- `Base.exec` of a word of the reader's `Base` (R110, R111). -/
def baseOther (word : Insn) (prof : Profile) (s : State) : Except Refusal State :=
  if isElementWise prof then baseElementWise word prof s
  else baseFree [word] prof.mayRaise (decide (prof.cls = .branch)) s

/-- `Base.exec` (R111): the unprefixed instruction, whole. -/
def baseExec (sfx : Suffix) (s : State) : Except Refusal State :=
  match sfx with
  | .add rt ra rb => .ok (baseAdd rt ra rb s)
  | .addi rt ra si => .ok (baseAddi rt ra si s)
  | .b li => .ok (baseB li s)
  | .lwz rt ra d => baseLwz rt ra d s
  | .stw rs ra d => baseStw rs ra d s
  | .other word prof => baseOther word prof s

end Sys2Proof.Machine
end

