-- ==== Sys2Proof/Machine/Predicate.lean ====
section
/-! DEFINITION. Predication (42_predication.md): the mask as a function of the element index. -/

namespace Sys2Proof.Machine

/-- Bit `i` of an integer predicate register, for `i` <= 63; beyond it the model refuses (R165, R170). -/
def intPredBit (r : Word) (i : Nat) : Except Refusal Bool :=
  if i < 64 then .ok (r.getLsbD i) else .error .intPredicateBeyond63

/-- The integer predicate of element `i` (R162, R164, R170). -/
def intPred (s : State) (m : BitVec 3) (i : Nat) : Except Refusal Bool :=
  match m.toNat with
  | 0 => .ok true
  | 1 => .ok (decide ((readReg s.gpr 3).toNat = i))
  | 2 => intPredBit (readReg s.gpr 3) i
  | 3 => intPredBit (~~~(readReg s.gpr 3)) i
  | 4 => intPredBit (readReg s.gpr 10) i
  | 5 => intPredBit (~~~(readReg s.gpr 10)) i
  | 6 => intPredBit (readReg s.gpr 30) i
  | _ => intPredBit (~~~(readReg s.gpr 30)) i

/-- The CR predicate of element `i`: a test of CR field `32 + i` (R166, R167, R170). -/
def crPred (s : State) (m : BitVec 3) (i : Nat) : Except Refusal Bool :=
  if Config.crPredOffs + i < Config.nreg then .ok (crPredTest m (readCr s.cr (Config.crPredOffs + i)))
  else .error .elementPastEnd

/-- `PredMask(maskmode, m)` read in a state (R160, R170). The loops evaluate it in the state before the loop (R161). -/
def predMask (s : State) (maskMode : Bool) (m : BitVec 3) (i : Nat) : Except Refusal Bool :=
  if maskMode then crPred s m i else intPred s m i

end Sys2Proof.Machine
end

