-- ==== Sys2Proof/Machine/Loop.lean ====
section
/-! DEFINITION. The element loops: `Loop1P` (R119) and `Loop2P` (R173). -/

namespace Sys2Proof.Machine

/-- What a loop runs: the suffix, its extended operands, the element width, the sub-vector length and the predicates. -/
structure LoopCtx where
  sfx : Suffix
  srcs : List ExtOperand
  dsts : List ExtOperand
  w : Nat
  sv : Nat
  maskMode : Bool
  mask : BitVec 3
  maskSrc : BitVec 3
  deriving DecidableEq, Repr

/-- Whether writing CR field `n` destroys a CR predicate still to be used (R171): `pending` says which elements are not
yet executed. -/
def crClash (maskMode : Bool) (vl : Nat) (pending : Nat → Bool) (n : Nat) : Bool :=
  maskMode && decide (Config.crPredOffs ≤ n) && decide (n - Config.crPredOffs < vl) && pending (n - Config.crPredOffs)

/-- The SUBVL loop: sub-elements `j`, `j+1`, ... of one iteration, `k` of them (R119, R151); `clash j` says which CR fields
sub-element `j` may not write. -/
def subLoop (clash : Nat → Nat → Bool) (c : LoopCtx) (i d : Nat) : Nat → Nat → State → Except Refusal State
  | 0, _, s => .ok s
  | k + 1, j, s =>
    match elementStep (clash j) c.sfx c.srcs c.dsts c.w c.sv i d j s with
    | .error r => .error r
    | .ok t => subLoop clash c i d k (j + 1) t

/-- Whether the first destination is tagged scalar, which ends the loop after the first enabled element (R119, D4). -/
def scalarDest (dsts : List ExtOperand) : Bool :=
  match dsts with
  | [] => false
  | d :: _ => !d.isVec

/-- Which mask bits still govern an element operation of `Loop1P` after sub-element `j` of iteration `i` (R171, R174): those
of the later iterations, unless a scalar destination ends the loop, and `i`'s own while its sub-vector is unfinished. -/
def pending1P (scalarDst : Bool) (sv i j i' : Nat) : Bool :=
  (!scalarDst && decide (i < i')) || (decide (i' = i) && decide (j + 1 < sv))

/-- `Loop1P` from element `i` on, `k` elements (R119). `s0` is the state before the loop, in which the mask is read
(R161). -/
def loop1PFrom (s0 : State) (c : LoopCtx) : Nat → Nat → State → Except Refusal State
  | 0, _, s => .ok s
  | k + 1, i, s =>
    match predMask s0 c.maskMode c.mask i with
    | .error r => .error r
    | .ok false => loop1PFrom s0 c k (i + 1) s
    | .ok true =>
      match subLoop (fun j => crClash c.maskMode s0.vl (pending1P (scalarDest c.dsts) c.sv i j)) c i i c.sv 0 s with
      | .error r => .error r
      | .ok t => if scalarDest c.dsts then .ok t else loop1PFrom s0 c k (i + 1) t

/-- `Loop1P` (R119): elements `0` to `VL-1`. -/
def loop1P (c : LoopCtx) (s : State) : Except Refusal State := loop1PFrom s c s.vl 0 s

/-- The first step from `i` on, within `k` more, whose mask bit is set; past them if none is (R173). -/
def skipMasked (mask : Nat → Except Refusal Bool) : Nat → Nat → Except Refusal Nat
  | 0, i => .ok i
  | k + 1, i =>
    match mask i with
    | .error r => .error r
    | .ok true => .ok i
    | .ok false => skipMasked mask k (i + 1)

/-- The step a side of `Loop2P` stands at: a vector side skips its masked-out elements, a scalar one does not move. -/
def nextStep (isVec : Bool) (mask : Nat → Except Refusal Bool) (vl i : Nat) : Except Refusal Nat :=
  if isVec then skipMasked mask (vl - i) i else .ok i

/-- Whether a scalar side lets the loop go on: "a scalar operand is element 0" (R173). -/
def scalarEnabled (isVec : Bool) (mask : Nat → Except Refusal Bool) : Except Refusal Bool :=
  if isVec then .ok true else mask 0

/-- Whether `Loop2P` can run a further operation after source step `i` and destination step `d`: the destination is a
vector, and neither vector side has run out. -/
def goesOn2P (srcVec dstVec : Bool) (vl i d : Nat) : Bool :=
  dstVec && decide (d + 1 < vl) && (!srcVec || decide (i + 1 < vl))

/-- Which mask bits still govern an element operation of `Loop2P` after sub-element `j` of source step `i` and destination
step `d` (R171, R174): where the loop can go on, the later steps of each vector side and element 0 of a scalar source;
and the two steps' own while their sub-vector is unfinished. -/
def pending2P (srcVec dstVec : Bool) (vl sv i d j i' : Nat) : Bool :=
  (goesOn2P srcVec dstVec vl i d && ((srcVec && decide (i < i')) || decide (d < i') || (!srcVec && decide (i' = i))))
    || ((decide (i' = i) || decide (i' = d)) && decide (j + 1 < sv))

/-- `Loop2P` from source step `i` and destination step `d` on, at most `k` operations (R173). -/
def loop2PFrom (s0 : State) (c : LoopCtx) (src dst : ExtOperand) : Nat → Nat → Nat → State → Except Refusal State
  | 0, _, _, s => .ok s
  | k + 1, i, d, s =>
    match nextStep src.isVec (predMask s0 c.maskMode c.maskSrc) s0.vl i with
    | .error r => .error r
    | .ok i1 =>
      match nextStep dst.isVec (predMask s0 c.maskMode c.mask) s0.vl d with
      | .error r => .error r
      | .ok d1 =>
        if s0.vl ≤ i1 ∨ s0.vl ≤ d1 then .ok s
        else
          match scalarEnabled src.isVec (predMask s0 c.maskMode c.maskSrc) with
          | .error r => .error r
          | .ok false => .ok s
          | .ok true =>
            match scalarEnabled dst.isVec (predMask s0 c.maskMode c.mask) with
            | .error r => .error r
            | .ok false => .ok s
            | .ok true =>
              match subLoop (fun j => crClash c.maskMode s0.vl (pending2P src.isVec dst.isVec s0.vl c.sv i1 d1 j)) c i1 d1 c.sv 0
                  s with
              | .error r => .error r
              | .ok t =>
                if dst.isVec then
                  loop2PFrom s0 c src dst k (if src.isVec then i1 + 1 else i1) (d1 + 1) t
                else .ok t

/-- `Loop2P` (R173), for one source and one destination. -/
def loop2P (c : LoopCtx) (src dst : ExtOperand) (s : State) : Except Refusal State :=
  loop2PFrom s c src dst s.vl 0 0 s

end Sys2Proof.Machine
end

