-- ==== Sys2Proof/Machine/Pair.lean ====
section
/-! DEFINITION. The rule of the pair (R114): the one operation every prefixed instruction calls. -/

namespace Sys2Proof.Machine

/-- The width field that governs an operand (R143): ELWIDTH for a destination, ELWIDTH_SRC for a source. -/
def widthField (c : RmCommon) (r : Role) : BitVec 2 := if roleIsDest r then c.elwidth else c.elwidthSrc

/-- R95 row a: the width field of an FPR operand is `0b11`, bf16 (R144). -/
def reservedBf16 (c : RmCommon) (prof : Profile) : Bool :=
  prof.operands.any fun o => decide (o.kind = .fpr) && decide (widthField c o.role = 3#2)

/-- R95 row b: an FP suffix ending in "s" with the width field of an FPR operand at f16 or bf16 (R145). -/
def reservedFpSingle (c : RmCommon) (prof : Profile) : Bool :=
  prof.fpSingle && prof.operands.any fun o => decide (o.kind = .fpr) && decide (2 ≤ (widthField c o.role).toNat)

/-- R95 row c: EXTRA2_MODE set for a suffix that does not use it, or the slot of an operand the suffix does not have is
not zero (R181, R183, D25). -/
def reservedUnused (x : Slots) (prof : Profile) : Bool :=
  (x.extra2Mode && !prof.usesExtra2Mode)
    || x.entries.any fun p => !p.2.isZero && !prof.operands.any (fun o => decide (o.role = p.1))

/-- `Reserved(f, prof)` (R95, R114): a property of the two words alone (R245). -/
def reserved (c : RmCommon) (x : Slots) (prof : Profile) : Bool :=
  reservedBf16 c prof || reservedFpSingle c prof || reservedUnused x prof

/-- Whether every EXTRA slot is zero, the scalar identity (R94, R202). -/
def slotsAreZero (x : Slots) : Bool := x.entries.all (fun p => p.2.isZero) && !x.extra2Mode

/-- Whether `RM` is all zeros (R94, R117). -/
def rmIsZero (c : RmCommon) (x : Slots) : Bool :=
  !c.maskMode && decide (c.mask = 0#3) && decide (c.elwidth = 0#2) && decide (c.elwidthSrc = 0#2)
    && decide (c.subvl = 0#2) && decide (c.mode = 0#5) && slotsAreZero x && decide (x.maskSrc = 0#3)

/-- Whether a format has two predicates (R180). -/
def isTwin : RmFormat → Bool
  | .rm1p3s1d | .rm1p2s1d => false
  | .rm2p1s1d | .rm2p2s | .rm2p2s1d | .rm2p1s2d | .rm2p3s => true

/-- `IdentityExec(S)` (R117): the unprefixed instruction, with `pc + 8` instead of the base's next address. -/
def identityExec (sfx : Suffix) (s : State) : Except Refusal State :=
  match baseExec sfx s with
  | .error r => .error r
  | .ok t => .ok (t.setPc (s.pc + 8#64))

/-- The implicit second destination RS of `divmod2du` and `maddedu`, selected by EXTRA2_MODE (R182); which register it
is, is free, but with all of EXTRA zero it is the base ISA's own (R202; log 10). -/
def implicitDests (sfx : Suffix) (x : Slots) : List ExtOperand :=
  match sfx with
  | .other word prof =>
    if slotsAreZero x then baseImplicitDests word prof
    else if prof.usesExtra2Mode then
      let t := Config.implicitRS word x.extra2Mode ((destsOf prof x ++ sourcesOf prof x).map ExtOperand.num)
      [⟨.gpr, t.1, t.2.toNat, 0⟩]
    else []
  | _ => []

/-- What the loop of a pair runs (R119, R173): ELWIDTH equals ELWIDTH_SRC when a loop runs (R148). -/
def loopCtx (c : RmCommon) (x : Slots) (sfx : Suffix) : LoopCtx :=
  { sfx := sfx
    srcs := sourcesOf (suffixProfile sfx) x
    dsts := destsOf (suffixProfile sfx) x ++ implicitDests sfx x
    w := widthOf c.elwidth
    sv := subLen c.subvl
    maskMode := c.maskMode
    mask := c.mask
    maskSrc := x.maskSrc }

/-- Whether a suffix is `addi` with field RA = 0 (R222, D31). -/
def isAddiRa0 : Suffix → Bool
  | .addi _ ra _ => decide (ra = 0#5)
  | _ => false

/-- The loop of a format: `Loop1P` for a 1P format, `Loop2P` for RM-2P-1S1D with one source and one destination; no
other 2P format has a loop (R119, R173). -/
def runLoop (l : LoopCtx) (fmt : RmFormat) (s : State) : Except Refusal State :=
  if isTwin fmt then
    match fmt, l.srcs, l.dsts with
    | .rm2p1s1d, [src], [dst] => loop2P l src dst s
    | _, _, _ => .error .twinLoopShape
  else loop1P l s

/-- The steps of R114 from the MODE test on: a normal-class pair beyond `VL` = 0 and identity. -/
def execNormal (c : RmCommon) (x : Slots) (sfx : Suffix) (s : State) : Except Refusal State :=
  if c.mode ≠ 0#5 then .error .modeNonzero
  else if (suffixProfile sfx).rc then .error .vectorisedRc1
  else if c.elwidth ≠ c.elwidthSrc then .error .elwidthDiffers
  else if isAddiRa0 sfx then .error .addiRa0
  else
    match runLoop (loopCtx c x sfx) x.fmt s with
    | .error r => .error r
    | .ok t => .ok (advance t 8)

/-- The steps of R114 from the branch test on: `VL` > 0 and no reserved value. Among "the other refusals" (R246 step 8) a
load-reserve or store-conditional suffix stands at the test of its class, ldst, and is refused under R62's name
(log 36). -/
def execActive (c : RmCommon) (x : Slots) (sfx : Suffix) (s : State) : Except Refusal State :=
  if (suffixProfile sfx).cls = .branch then .error .prefixedBranch
  else if rmIsZero c x && decide (s.vl = 1) then identityExec sfx s
  else if (suffixProfile sfx).atomic then .error .atomicSuffix
  else
    match (suffixProfile sfx).cls with
    | .ldst => .error .ldstModeNotInSource
    | .crop => .error .classNotNormal
    | _ => execNormal c x sfx s

/-- `ExecSVP64` (R114) of a pair whose suffix is a base instruction, in the order of R114 and R246. -/
def execSvp64 (c : RmCommon) (x : Slots) (sfx : Suffix) (s : State) : Host.Outcome State Fault Refusal :=
  if (suffixProfile sfx).rmFormat = none then raiseIllegal s
  else if reserved c x (suffixProfile sfx) then raiseIllegal s
  else if s.vl = 0 then .next (advance s 8)
  else outcomeOf (execActive c x sfx s)

end Sys2Proof.Machine
end

