-- ==== Sys2Proof/Machine/Prefixed.lean ====
section
/-! DEFINITION. The meanings of the eight prefix rows of the opcode table. -/

namespace Sys2Proof.Machine

/-- `sv.<suffix>`, any RM format (R114): `RM` and the suffix word as fetched, the whole rule from its first test on. -/
def execSv (rm : BitVec 24) (suffix : Insn) (s : State) : Host.Outcome State Fault Refusal :=
  if isPrefixWord suffix then .refused .suffixIsPrefix
  else
    match decodeSuffix s.launch.base suffix with
    | none => raiseIllegal s
    | some sfx =>
      match (suffixProfile sfx).rmFormat with
      | none => raiseIllegal s
      | some f => execSvp64 (commonOfRm rm) (slotsOfRm f rm) sfx s

/-- A pair of format RM-1P-3S1D (R181). -/
def execSvRm1p3s1d (c : RmCommon) (x : Extra1p3s1d) (sfx : Suffix) (s : State) : Host.Outcome State Fault Refusal :=
  execSvp64 c (slots1p3s1d x) sfx s

/-- A pair of format RM-1P-2S1D (R183). -/
def execSvRm1p2s1d (c : RmCommon) (x : Extra1p2s1d) (sfx : Suffix) (s : State) : Host.Outcome State Fault Refusal :=
  execSvp64 c (slots1p2s1d x) sfx s

/-- A pair of format RM-2P-1S1D (R184). -/
def execSvRm2p1s1d (c : RmCommon) (x : Extra2p1s1d) (sfx : Suffix) (s : State) : Host.Outcome State Fault Refusal :=
  execSvp64 c (slots2p1s1d x) sfx s

/-- A pair of format RM-2P-2S (R185). -/
def execSvRm2p2s (c : RmCommon) (x : Extra2p2s) (sfx : Suffix) (s : State) : Host.Outcome State Fault Refusal :=
  execSvp64 c (slots2p2s x) sfx s

/-- A pair of format RM-2P-2S1D (R186, R189). -/
def execSvRm2p2s1d (c : RmCommon) (x : Extra2p2s1d) (sfx : Suffix) (s : State) : Host.Outcome State Fault Refusal :=
  execSvp64 c (slots2p2s1d x) sfx s

/-- A pair of format RM-2P-1S2D (R187). -/
def execSvRm2p1s2d (c : RmCommon) (x : Extra2p1s2d) (sfx : Suffix) (s : State) : Host.Outcome State Fault Refusal :=
  execSvp64 c (slots2p1s2d x) sfx s

/-- A pair of format RM-2P-3S (R188). -/
def execSvRm2p3s (c : RmCommon) (x : Extra2p3s) (sfx : Suffix) (s : State) : Host.Outcome State Fault Refusal :=
  execSvp64 c (slots2p3s x) sfx s

end Sys2Proof.Machine
end

