-- ==== Sys2Proof/Machine/Scalar.lean ====
section
/-! DEFINITION. The meanings of the five unprefixed rows of the opcode table (45_base_subset.md), and of an unprefixed
word of the reader's `Base` that is no row of the table. -/

namespace Sys2Proof.Machine

/-- `add RT, RA, RB` (R221). -/
def execAdd (rt ra rb : BitVec 5) (s : State) : Host.Outcome State Fault Refusal := .next (baseAdd rt ra rb s)

/-- `addi RT, RA, SI` (R222). -/
def execAddi (rt ra : BitVec 5) (si : BitVec 16) (s : State) : Host.Outcome State Fault Refusal :=
  .next (baseAddi rt ra si s)

/-- `b target` (R223). -/
def execB (li : BitVec 24) (s : State) : Host.Outcome State Fault Refusal := .next (baseB li s)

/-- `lwz RT, D(RA)` (R224). -/
def execLwz (rt ra : BitVec 5) (d : BitVec 16) (s : State) : Host.Outcome State Fault Refusal :=
  outcomeOf (baseLwz rt ra d s)

/-- `stw RS, D(RA)` (R225). -/
def execStw (rs ra : BitVec 5) (d : BitVec 16) (s : State) : Host.Outcome State Fault Refusal :=
  outcomeOf (baseStw rs ra d s)

/-- An unprefixed word of the reader's `Base` beyond the test subset (R110, R113). -/
def execBaseWord (word : Insn) (prof : Profile) (s : State) : Host.Outcome State Fault Refusal :=
  outcomeOf (baseOther word prof s)

/-- A v3.1 prefixed instruction of the reader's `Base`: its effect is free, and it goes on past its two words (R32, R74;
log 18). -/
def execBasePrefixed (pfx suffix : Insn) (row : BasePrefixedRow) (s : State) : Host.Outcome State Fault Refusal :=
  outcomeOf (baseFree [pfx, suffix] row.mayRaise false s)

end Sys2Proof.Machine
end

