-- ==== Sys2Proof/Machine/Dispatch.lean ====
section
/-! DEFINITION. One instruction executed: one arm per constructor of `Instr`. -/

namespace Sys2Proof.Machine

def exec (i : Instr) (s : State) : Host.Outcome State Fault Refusal :=
  match i with
  | .sv rm suffix => Sys2Proof.Machine.execSv rm suffix s
  | .svRm1p3s1d c x sfx => Sys2Proof.Machine.execSvRm1p3s1d c x sfx s
  | .svRm1p2s1d c x sfx => Sys2Proof.Machine.execSvRm1p2s1d c x sfx s
  | .svRm2p1s1d c x sfx => Sys2Proof.Machine.execSvRm2p1s1d c x sfx s
  | .svRm2p2s c x sfx => Sys2Proof.Machine.execSvRm2p2s c x sfx s
  | .svRm2p2s1d c x sfx => Sys2Proof.Machine.execSvRm2p2s1d c x sfx s
  | .svRm2p1s2d c x sfx => Sys2Proof.Machine.execSvRm2p1s2d c x sfx s
  | .svRm2p3s c x sfx => Sys2Proof.Machine.execSvRm2p3s c x sfx s
  | .add rt ra rb => Sys2Proof.Machine.execAdd rt ra rb s
  | .addi rt ra si => Sys2Proof.Machine.execAddi rt ra si s
  | .b li => Sys2Proof.Machine.execB li s
  | .lwz rt ra d => Sys2Proof.Machine.execLwz rt ra d s
  | .stw rs ra d => Sys2Proof.Machine.execStw rs ra d s

end Sys2Proof.Machine
end

