-- ==== Sys2Proof/Machine/Fetch.lean ====
section
/-! DEFINITION. Fetching the words of the next instruction (20_memory.md section 2), and placing one for the next fetch. -/

namespace Sys2Proof.Machine

/-- `Fetch32(addr)` (R53): the word at an aligned (R55), admitted address (R58), none of whose bytes was stored to (R63).
That the three are tested in this order, where several refuse, is the model's choice (log 22). -/
def fetch32 (s : State) (a : Word) : Except Refusal Insn :=
  if a.toNat % 4 ≠ 0 then .error .pcMisaligned
  else if !(addrsFrom a 4).all (fun x => s.launch.admits x.toNat) then .error .addressNotAdmitted
  else if (addrsFrom a 4).any (fun x => decide (x.toNat ∈ s.stored)) then .error .storedCodeFetched
  else .ok (BitVec.ofNat 32 (memRead s a 4))

/-- Whether the two words of a pair at `a` lie in different 64-byte blocks (R55). -/
def crosses64 (a : Word) : Bool := decide (a.toNat / 64 ≠ (a + 4#64).toNat / 64)

/-- Whether the instruction that begins with a word has two words: an SVP64 pair (R90), or a v3.1 prefixed instruction of
the launch's `Base` (R74). -/
def hasTwoWords (base : BaseTable) (w : Insn) : Bool := isSvp64Prefix w || (isPrefixWord w && base.coversPrefix w)

/-- The words of the instruction at `pc` (R54, R90): one or two. That a pair which crosses a 64-byte block is refused for it
(R55) before its second word is fetched is the model's choice (log 22). -/
def fetchWords (s : State) : Except Refusal (List Insn) :=
  match fetch32 s s.pc with
  | .error r => .error r
  | .ok w =>
    if hasTwoWords s.launch.base w then
      if crosses64 s.pc && !s.launch.cross64 then .error .pairCrosses64
      else
        match fetch32 s (s.pc + 4#64) with
        | .error r => .error r
        | .ok t => .ok [w, t]
    else .ok [w]

/-- Where an instruction can be placed for the next fetch: `pc` itself where it is a multiple of 4 and a pair there does
not cross a 64-byte block, else the start of its block. -/
def fetchHome (a : Word) : Word := if a.toNat % 4 = 0 ∧ a.toNat % 64 ≠ 60 then a else a &&& ~~~63#64

/-- The bytes of words from an address on, each with its address. -/
def placedBytes (le : Bool) (a : Word) (ws : List Insn) : List (Word × Byte) :=
  (addrsFrom a (4 * ws.length)).zip (ws.flatMap (bytesOfInsn le))

/-- Words placed in memory at an address as a launch places them: the bytes are admitted and do not count as stored to
by the program. -/
def placeWords (s : State) (a : Word) (ws : List Insn) : State :=
  let ps := placedBytes s.le a ws
  (((s.setMem (ps.foldl (fun m p => m.write p.1.toNat p.2) s.mem)).setStored
    (s.stored.filter (fun x => !ps.any (fun p => decide (p.1.toNat = x))))).setLaunch
    (if ps.all (fun p => s.launch.admits p.1.toNat) then s.launch
     else { s.launch with admitted := ⟨a.toNat, ps.length⟩ :: s.launch.admitted })).setPc a

end Sys2Proof.Machine
end

