-- ==== Sys2Proof/Machine/Step.lean ====
section
/-! DEFINITION. One step of the machine (R110): fetch, decode, execute. -/

namespace Sys2Proof.Machine

/-- What follows from the decoder's answer. -/
def execDecoded (d : Decoded) (s : State) : Host.Outcome State Fault Refusal :=
  match d with
  | .instr i => exec i s
  | .baseWord word prof => execBaseWord word prof s
  | .basePrefixed pfx suffix row => execBasePrefixed pfx suffix row s
  | .v31Prefix _ => .refused .v31PrefixWord
  | .illegal _ => raiseIllegal s
  | .truncated => .refused .truncatedPair

/-- One step: the instruction at `pc` is fetched, decoded over the launch's `Base`, and executed (R90, R91, R110). -/
def step (s : State) : Host.Outcome State Fault Refusal :=
  match fetchWords s with
  | .error r => .refused r
  | .ok ws => execDecoded (decode s.launch.base ws) s

/-- The instruction whose bits are the low `nbits` of `w` placed where the next step fetches (log 20): its two words in
the byte order of `MSR.LE`, the bits above `nbits` zero. -/
def State.withFetchWord (s : State) (nbits w : Nat) : State := placeWords s (fetchHome s.pc) (tableWords nbits w)

end Sys2Proof.Machine
end

