-- ==== Sys2Proof/Safety.lean ====
section
/-! DEFINITION. What every run keeps, and the terms the statements use: what a step leaves alone, the pair of a format, and
the register file as the byte array of R24 with LS009's own loops over it. -/

namespace Sys2Proof.Machine

/-- A list of addresses rises strictly from `lo` on and stays below 2^64. -/
def addrsWfFrom : Nat → List Nat → Bool
  | _, [] => true
  | lo, a :: rest => decide (lo ≤ a) && decide (a < 2 ^ 64) && addrsWfFrom (a + 1) rest

/-- The invariant of the machine: `pc` is a multiple of 4 (R32), `VL` is within `MAXVL` (R31), which is at least 1 (R7), memory and the list of
stored addresses have their canonical form, and every stored address is admitted (R58). -/
structure State.Inv (s : State) : Prop where
  pcAligned : s.pc.toNat % 4 = 0
  maxVLPos : 1 ≤ s.launch.maxVL
  vlBound : s.vl ≤ s.launch.maxVL
  memWf : s.mem.wf = true
  storedWf : addrsWfFrom 0 s.stored = true
  storedAdmitted : ∀ a ∈ s.stored, s.launch.admits a = true

/-! ## What is left alone -/

/-- `t` differs from `s` at most in the GPRs `g`, the FPRs `f`, the CR fields `c`, the memory bytes `m`, and `pc`. The bytes
`m` count as stored to afterwards (R63). -/
structure Frame (g f c m : Nat → Prop) (s t : State) : Prop where
  gpr : ∀ n, ¬ g n → readReg t.gpr n = readReg s.gpr n
  fpr : ∀ n, ¬ f n → readReg t.fpr n = readReg s.fpr n
  cr : ∀ n, ¬ c n → readCr t.cr n = readCr s.cr n
  mem : ∀ a, ¬ m a → t.mem.read a = s.mem.read a
  stored : ∀ a, a ∈ t.stored ↔ a ∈ s.stored ∨ m a
  vl : t.vl = s.vl
  le : t.le = s.le
  launch : t.launch = s.launch

/-- No register, no byte. -/
def nowhere : Nat → Prop := fun _ => False

/-! ## Pairs -/

/-- The pair of a format with the given common fields, EXTRA bits and suffix. -/
def pairOf (f : RmFormat) (c : RmCommon) (e : BitVec 9) (sfx : Suffix) : Instr :=
  match f with
  | .rm1p3s1d => .svRm1p3s1d c (extra1p3s1dOf e) sfx
  | .rm1p2s1d => .svRm1p2s1d c (extra1p2s1dOf e) sfx
  | .rm2p1s1d => .svRm2p1s1d c (extra2p1s1dOf e) sfx
  | .rm2p2s => .svRm2p2s c (extra2p2sOf e) sfx
  | .rm2p2s1d => .svRm2p2s1d c (extra2p2s1dOf e) sfx
  | .rm2p1s2d => .svRm2p1s2d c (extra2p1s2dOf e) sfx
  | .rm2p3s => .svRm2p3s c (extra2p3sOf e) sfx

/-- The slots of that pair. -/
def slotsOfExtra (f : RmFormat) (e : BitVec 9) : Slots :=
  match f with
  | .rm1p3s1d => slots1p3s1d (extra1p3s1dOf e)
  | .rm1p2s1d => slots1p2s1d (extra1p2s1dOf e)
  | .rm2p1s1d => slots2p1s1d (extra2p1s1dOf e)
  | .rm2p2s => slots2p2s (extra2p2sOf e)
  | .rm2p2s1d => slots2p2s1d (extra2p2s1dOf e)
  | .rm2p1s2d => slots2p1s2d (extra2p1s2dOf e)
  | .rm2p3s => slots2p3s (extra2p3sOf e)

/-- The common fields of an all-zero `RM` (R94). -/
def zeroCommon : RmCommon := ⟨false, 0#3, 0#2, 0#2, 0#2, 0#5⟩

/-- Whether an instruction is an SVP64 pair. -/
def isPair : Instr → Bool
  | .add _ _ _ | .addi _ _ _ | .b _ | .lwz _ _ _ | .stw _ _ _ => false
  | _ => true

/-- The suffix a pair of one of the seven formats carries. -/
def pairSuffix : Instr → Option Suffix
  | .svRm1p3s1d _ _ sfx | .svRm1p2s1d _ _ sfx | .svRm2p1s1d _ _ sfx | .svRm2p2s _ _ sfx | .svRm2p2s1d _ _ sfx
  | .svRm2p1s2d _ _ sfx | .svRm2p3s _ _ sfx => some sfx
  | _ => none

/-- The unprefixed execution of a suffix. -/
def execSuffix : Suffix → State → Host.Outcome State Fault Refusal
  | .add rt ra rb, s => exec (.add rt ra rb) s
  | .addi rt ra si, s => exec (.addi rt ra si) s
  | .b li, s => exec (.b li) s
  | .lwz rt ra d, s => exec (.lwz rt ra d) s
  | .stw rs ra d, s => exec (.stw rs ra d) s
  | .other w prof, s => execBaseWord w prof s

/-- Whether an instruction's first word is the all-zero prefix, `RM` = 0 (R94, R117). -/
def hasZeroPrefix (i : Instr) : Bool := decide ((encode i).head? = some 0x05400000#32)

/-- The profile of a supplied normal-class suffix with the given operands. -/
def normalProfile (mnemonic : String) (dfltWidth : Nat) (f : RmFormat) (operands : List Operand) (mayRaise : Bool) :
    Profile :=
  { mnemonic := mnemonic, cls := .normal, rmFormat := some f, operands := operands, usesExtra2Mode := false,
    fpSingle := false, rc := false, dfltWidth := dfltWidth, mayRaise := mayRaise, atomic := false }

/-- A made-up row of a reader's `Base`: primary opcode 4, extended opcode `n`, register fields at bits 21, 16, 11, 6. -/
def sampleRow (n : Insn) (f : Option RmFormat) (roles : List Role) : BaseRow :=
  { mask := 0xFC00003F#32
    bits := 0x10000000#32 ||| n
    mnemonic := "sample"
    cls := .normal
    rmFormat := f
    operands := (roles.zip [21, 16, 11, 6]).map fun p => ⟨p.1, .gpr, p.2⟩
    usesExtra2Mode := false
    fpSingle := false
    rc := false
    dfltWidth := 64
    mayRaise := false
    atomic := false }

/-- A made-up `Base`: one word for each RM format the test subset has no suffix of, and one UnVectoriseable. -/
def sampleBase : BaseTable :=
  { testSubset := true
    rows := [sampleRow 48#32 (some .rm1p3s1d) [.rdest, .rsrc1, .rsrc2, .rsrc3],
      sampleRow 49#32 (some .rm2p2s1d) [.rdest, .rsrc1, .rsrc2],
      sampleRow 50#32 (some .rm2p1s2d) [.rsrc1, .rdest, .rdest2],
      sampleRow 51#32 (some .rm2p3s) [.rsrc1, .rsrc2, .rsrc3], sampleRow 52#32 none []]
    prefixed := [⟨0xFFFC0000#32, 0x06000000#32, 0xFC000000#32, 0x38000000#32, false⟩] }

/-- The suffix a word of `sampleBase` with register fields 2, 4, 6, 8 decodes to. -/
def sampleSuffix (w : Insn) (f : RmFormat) (roles : List Role) : Suffix :=
  .other w (normalProfile "sample" 64 f ((roles.zip [2#5, 4#5, 6#5, 8#5]).map fun p => ⟨p.1, .gpr, p.2⟩) false)

/-- An outcome with `pc` of its next state replaced. -/
def outcomeAt (a : Word) : Host.Outcome State Fault Refusal → Host.Outcome State Fault Refusal
  | .next t => .next (t.setPc a)
  | o => o

/-! ## The register file as a byte array, and LS009's loops over it -/

/-- `GPRel(n, e, w)` over the byte array `RB` (R24). -/
def refElem (rb : Nat → Byte) (n e w : Nat) : Nat :=
  natOfBytes ((List.range (w / 8)).map fun k => rb (8 * n + e * (w / 8) + k))

/-- `GPRel(n, e, w) <- v` over the byte array `RB` (R24). -/
def refWrite (rb : Nat → Byte) (n e w v : Nat) : Nat → Byte := fun k =>
  if 8 * n + e * (w / 8) ≤ k ∧ k < 8 * n + e * (w / 8) + w / 8 then
    BitVec.ofNat 8 (v >>> (8 * (k - (8 * n + e * (w / 8)))))
  else rb k

/-- LS009's vector-looped `add` (R127): element `i` of `RT` becomes the sum of elements `i` of `RA` and `RB`, for `i` in
`range(VL)`, wrapping at the element width. -/
def refVectorAdd (w rt ra rb : Nat) : Nat → (Nat → Byte) → Nat → Byte
  | 0, f => f
  | i + 1, f =>
    let g := refVectorAdd w rt ra rb i f
    refWrite g rt i w ((refElem g ra i w + refElem g rb i w) % 2 ^ w)

/-- The same loop for `addi`, whose second summand is the same for every element (R190, R222). -/
def refVectorAddi (w rt ra si : Nat) : Nat → (Nat → Byte) → Nat → Byte
  | 0, f => f
  | i + 1, f =>
    let g := refVectorAddi w rt ra si i f
    refWrite g rt i w ((refElem g ra i w + si) % 2 ^ w)

/-- The element index of an operand with the given tag at iteration `i`, sub-element `j` (R119, R151). -/
def refIndex (isVec : Bool) (i sv j : Nat) : Nat := (if isVec then i else 0) * sv + j

/-- The sub-elements `0` to `k-1` of iteration `i` of an `add` with tagged operands (R119, R151). -/
def refAddSub (w sv : Nat) (rt ra rb : Bool × Nat) (i : Nat) : Nat → (Nat → Byte) → Nat → Byte
  | 0, f => f
  | j + 1, f =>
    let g := refAddSub w sv rt ra rb i j f
    refWrite g rt.2 (refIndex rt.1 i sv j) w
      ((refElem g ra.2 (refIndex ra.1 i sv j) w + refElem g rb.2 (refIndex rb.1 i sv j) w) % 2 ^ w)

/-- `Loop1P` of an `add` over the byte array: `k` iterations from `i` on, under the mask `m` (R119). -/
def refAddLoop (m : Nat → Bool) (w sv : Nat) (rt ra rb : Bool × Nat) : Nat → Nat → (Nat → Byte) → Nat → Byte
  | 0, _, f => f
  | k + 1, i, f =>
    if m i then
      let g := refAddSub w sv rt ra rb i sv f
      if rt.1 then refAddLoop m w sv rt ra rb k (i + 1) g else g
    else refAddLoop m w sv rt ra rb k (i + 1) f

/-- The first step from `i` on, below `vl`, that the mask enables; `vl` if there is none (R173). -/
def refSkip (m : Nat → Bool) (vl i : Nat) : Nat := ((List.range vl).find? fun n => decide (i ≤ n) && m n).getD vl

/-- The sub-elements `0` to `k-1` of one operation of `Loop2P` for `addi`, from source step `i` to destination step `d`
(R173, R222). -/
def refTwinSub (w sv : Nat) (rt ra : Bool × Nat) (si i d : Nat) : Nat → (Nat → Byte) → Nat → Byte
  | 0, f => f
  | j + 1, f =>
    let g := refTwinSub w sv rt ra si i d j f
    refWrite g rt.2 (refIndex rt.1 d sv j) w ((refElem g ra.2 (refIndex ra.1 i sv j) w + si) % 2 ^ w)

/-- `Loop2P` of an `addi` over the byte array, under the source mask `ms` and the destination mask `md`: at most `k`
operations from source step `i` and destination step `d` on (R173). -/
def refTwinLoop (ms md : Nat → Bool) (w sv : Nat) (rt ra : Bool × Nat) (si vl : Nat) :
    Nat → Nat → Nat → (Nat → Byte) → Nat → Byte
  | 0, _, _, f => f
  | k + 1, i, d, f =>
    let i1 := if ra.1 then refSkip ms vl i else i
    let d1 := if rt.1 then refSkip md vl d else d
    if vl ≤ i1 ∨ vl ≤ d1 then f
    else if (ra.1 = false ∧ ms 0 = false) ∨ (rt.1 = false ∧ md 0 = false) then f
    else
      let g := refTwinSub w sv rt ra si i1 d1 sv f
      if rt.1 then refTwinLoop ms md w sv rt ra si vl k (if ra.1 then i1 + 1 else i1) (d1 + 1) g else g

/-- Whether sub-element `j` of iteration `i` of a tagged operand has a byte beyond the file (R26). -/
def pastFile (o : Bool × Nat) (i sv j w : Nat) : Prop := 1024 < 8 * o.2 + (refIndex o.1 i sv j + 1) * (w / 8)

/-- An operand's tag and number, from a 5-bit register field and an EXTRA3 value (R206). -/
def tagged (r : BitVec 5) (x : BitVec 3) : Bool × Nat := ((extend r (.e3 x)).1, (extend r (.e3 x)).2.toNat)

/-- Whether every element a tagged operand can reach in `vl` iterations lies in the file (R26, R276). -/
def operandFits (o : Bool × Nat) (vl sv w : Nat) : Prop := 8 * o.2 + (if o.1 then vl else 1) * sv * (w / 8) ≤ 1024

end Sys2Proof.Machine
end

