-- ==== Sys2Proof/WellFormed.lean ====
section
/-! DEFINITION. Which instructions are well-formed over a given `Base`: those the encoding can say. A suffix of the
reader's `Base` must be a word that `Base` gives that profile; a pair must stand in the format of its suffix. -/

namespace Sys2Proof

/-- A profile has the RM format LS009 states for its name, where it states one (R92), and fits its format (R111): its
operands stand in slots the format has, each slot at most once, and EXTRA2_MODE stands with RM-1P-3S1D and with the
"`divmod2du`, `maddedu` only" (R111, R182), always; an FP operation computed at half the width is one whose mnemonic
"ends in "s"" (R111, R145). -/
def Profile.wellFormed (p : Profile) : Bool :=
  decide (formatOf p.mnemonic p.rmFormat = p.rmFormat) &&
  match p.rmFormat with
  | none => true
  | some f =>
    p.operands.all (fun o => decide (o.role ∈ formatRoles f)) && decide (p.operands.map Operand.role).Nodup
      && (!p.usesExtra2Mode || decide (f = .rm1p3s1d)) && decide (p.usesExtra2Mode = true ↔ p.mnemonic ∈ extra2ModeNames)
      && (!p.fpSingle || decide (p.mnemonic.toList.getLast? = some 's'))

/-- A word is decoded by the test subset: the base keeps the subset, and none of its own rows covers the word (D22). -/
def BaseTable.leavesToSubset (base : BaseTable) (w : Insn) : Bool :=
  base.testSubset && decide (baseLookup base.rows w = none)

/-- A suffix is well-formed over `base`: a word of the reader's `Base` is no prefix word (R78) and has that profile in
`base`; one of the five words of the test subset is left to the subset. -/
def Suffix.wellFormed (base : BaseTable) : Suffix → Bool
  | .other w prof =>
    !isPrefixWord w && decide (baseLookup base.rows w = some prof) && prof.wellFormed
  | sfx => base.leavesToSubset (encodeSuffix sfx)

/-- A suffix is well-formed and has the given RM format. -/
def Suffix.fits (base : BaseTable) (f : RmFormat) (sfx : Suffix) : Bool :=
  sfx.wellFormed base && decide ((suffixProfile sfx).rmFormat = some f)

/-- The suffix word has no RM format: it is a prefix word, no base instruction, or UnVectoriseable (R78, R114, R118). -/
def unsplit (base : BaseTable) (s : Insn) : Bool :=
  isPrefixWord s ||
    match decodeSuffix base s with
    | none => true
    | some sfx => decide ((suffixProfile sfx).rmFormat = none)

/-- Which instructions the encoding can say over `base`. -/
def Instr.wellFormed (base : BaseTable) : Instr → Bool
  | .sv _ s => unsplit base s
  | .svRm1p3s1d _ _ sfx => sfx.fits base .rm1p3s1d
  | .svRm1p2s1d _ _ sfx => sfx.fits base .rm1p2s1d
  | .svRm2p1s1d _ _ sfx => sfx.fits base .rm2p1s1d
  | .svRm2p2s _ _ sfx => sfx.fits base .rm2p2s
  | .svRm2p2s1d _ _ sfx => sfx.fits base .rm2p2s1d
  | .svRm2p1s2d _ _ sfx => sfx.fits base .rm2p1s2d
  | .svRm2p3s _ _ sfx => sfx.fits base .rm2p3s
  | .add rt ra rb => (Suffix.add rt ra rb).wellFormed base
  | .addi rt ra si => (Suffix.addi rt ra si).wellFormed base
  | .b li => (Suffix.b li).wellFormed base
  | .lwz rt ra d => (Suffix.lwz rt ra d).wellFormed base
  | .stw rs ra d => (Suffix.stw rs ra d).wellFormed base

end Sys2Proof
end

