-- ==== Sys2Proof/Certificates/Slice0/Obligations.lean ====
section
/-! DEFINITION. The statements about the machine, for the provers. `[log n]` names the assumption-log entry a statement rests
on; a statement without one rests on LS009's own words. -/

open Sys2Proof Sys2Proof.Machine

/-! ## Encoding -/

/-- One word of each row of the opcode table, written out from its encoding table, decodes to what it stands for (R72, R83 to
R89, R221 to R225; V20, V90). The base words are general knowledge (log 7), Rdest2's place is the spec's decision D22
(log 34), and the suffixes of the four formats the test subset has none of are made up (`sampleBase`). -/
def Obligations.WordsOfEachFamilyDecode : Prop :=
  decode .test [0x05402480#32, 0x7C443214#32] = .instr (.svRm1p2s1d zeroCommon ⟨4#3, 4#3, 4#3⟩ (.add 2#5 4#5 6#5)) ∧
  decode .test [0x05C02440#32, 0x38440001#32] =
    .instr (.svRm2p1s1d { zeroCommon with mask := 4#3 } ⟨4#3, 4#3, 2#3⟩ (.addi 2#5 4#5 1#16)) ∧
  decode .test [0x05400000#32, 0x90A40000#32] = .instr (.svRm2p2s zeroCommon ⟨0#3, 0#3, 0#3⟩ (.stw 5#5 4#5 0#16)) ∧
  decode .test [0x05400000#32, 0x48000008#32] = .instr (.sv 0#24 0x48000008#32) ∧
  decode .test [0x7C642A14#32] = .instr (.add 3#5 4#5 5#5) ∧
  decode .test [0x3863FFFF#32] = .instr (.addi 3#5 3#5 0xFFFF#16) ∧
  decode .test [0x4BFFFFFC#32] = .instr (.b 0xFFFFFF#24) ∧
  decode .test [0x80A40000#32] = .instr (.lwz 5#5 4#5 0#16) ∧
  decode .test [0x90A40004#32] = .instr (.stw 5#5 4#5 4#16) ∧
  decode sampleBase [0x05402720#32, 0x10443230#32] = .instr (.svRm1p3s1d zeroCommon ⟨2#2, 1#2, 3#2, 0#2, true⟩
    (sampleSuffix 0x10443230#32 .rm1p3s1d [.rdest, .rsrc1, .rsrc2, .rsrc3])) ∧
  decode sampleBase [0x054027A0#32, 0x10443231#32] = .instr (.svRm2p2s1d zeroCommon ⟨2#2, 1#2, 3#2, 5#3⟩
    (sampleSuffix 0x10443231#32 .rm2p2s1d [.rdest, .rsrc1, .rsrc2])) ∧
  decode sampleBase [0x054027A0#32, 0x10443232#32] = .instr (.svRm2p1s2d zeroCommon ⟨2#2, 1#2, 3#2, 5#3⟩
    (sampleSuffix 0x10443232#32 .rm2p1s2d [.rsrc1, .rdest, .rdest2])) ∧
  decode sampleBase [0x054027A0#32, 0x10443233#32] = .instr (.svRm2p3s zeroCommon ⟨2#2, 1#2, 3#2, 5#3⟩
    (sampleSuffix 0x10443233#32 .rm2p3s [.rsrc1, .rsrc2, .rsrc3]))

/-- Which words are SVP64 prefixes, and where `RM{0}` to `RM{23}` lie in one, all bits numbered MSB0 (R72, R75). That the
primary opcode is 1 is the spec's decision D1 (C1), "exactly when" its inference R73. -/
def Obligations.PrefixWordBitsAreThoseOfTheTable : Prop :=
  ∀ p : Insn,
    (isSvp64Prefix p = true ↔ p.extractLsb' 26 6 = 1#6 ∧ p.getMsbD 7 = true ∧ p.getMsbD 9 = true) ∧
    (rmOfPrefix p).getMsbD 0 = p.getMsbD 6 ∧
    (rmOfPrefix p).getMsbD 1 = p.getMsbD 8 ∧
    ∀ k, 2 ≤ k → k ≤ 23 → (rmOfPrefix p).getMsbD k = p.getMsbD (k + 8)

/-- Every `RM` has exactly one prefix word and every SVP64 prefix word exactly one `RM` (R75, R73). -/
def Obligations.PrefixWordsAndRmCorrespond : Prop :=
  (∀ rm : BitVec 24, isSvp64Prefix (prefixOfRm rm) = true ∧ rmOfPrefix (prefixOfRm rm) = rm) ∧
  ∀ p : Insn, isSvp64Prefix p = true → prefixOfRm (rmOfPrefix p) = p

/-- Where the common fields, EXTRA and MODE lie in the prefix word, LSB0 (R79, R80, R81). -/
def Obligations.CommonFieldsLieWhereTheTablesSay : Prop :=
  ∀ p : Insn,
    (commonOfRm (rmOfPrefix p)).maskMode = p.getLsbD 25 ∧
    (commonOfRm (rmOfPrefix p)).mask.toNat = 4 * (p.extractLsb' 23 1).toNat + (p.extractLsb' 20 2).toNat ∧
    (commonOfRm (rmOfPrefix p)).elwidth = p.extractLsb' 18 2 ∧
    (commonOfRm (rmOfPrefix p)).elwidthSrc = p.extractLsb' 16 2 ∧
    (commonOfRm (rmOfPrefix p)).subvl = p.extractLsb' 14 2 ∧
    extraOfRm (rmOfPrefix p) = p.extractLsb' 5 9 ∧
    (commonOfRm (rmOfPrefix p)).mode = p.extractLsb' 0 5

/-- Where the slots of the seven EXTRA layouts lie in the prefix word, LSB0 (R83 to R87, R89; the place of Rdest2 is the
spec's decision D22: log 34). -/
def Obligations.ExtraSlotsLieWhereTheTablesSay : Prop :=
  ∀ p : Insn,
    extra1p3s1dOf (extraOfRm (rmOfPrefix p)) =
      ⟨p.extractLsb' 12 2, p.extractLsb' 10 2, p.extractLsb' 8 2, p.extractLsb' 6 2, p.getLsbD 5⟩ ∧
    extra1p2s1dOf (extraOfRm (rmOfPrefix p)) = ⟨p.extractLsb' 11 3, p.extractLsb' 8 3, p.extractLsb' 5 3⟩ ∧
    extra2p1s1dOf (extraOfRm (rmOfPrefix p)) = ⟨p.extractLsb' 11 3, p.extractLsb' 8 3, p.extractLsb' 5 3⟩ ∧
    extra2p2sOf (extraOfRm (rmOfPrefix p)) = ⟨p.extractLsb' 11 3, p.extractLsb' 8 3, p.extractLsb' 5 3⟩ ∧
    extra2p2s1dOf (extraOfRm (rmOfPrefix p)) =
      ⟨p.extractLsb' 12 2, p.extractLsb' 10 2, p.extractLsb' 8 2, p.extractLsb' 5 3⟩ ∧
    extra2p1s2dOf (extraOfRm (rmOfPrefix p)) =
      ⟨p.extractLsb' 12 2, p.extractLsb' 10 2, p.extractLsb' 8 2, p.extractLsb' 5 3⟩ ∧
    extra2p3sOf (extraOfRm (rmOfPrefix p)) =
      ⟨p.extractLsb' 12 2, p.extractLsb' 10 2, p.extractLsb' 8 2, p.extractLsb' 5 3⟩

/-- Decode and encode agree: every well-formed instruction is decoded from its own words, over every `Base`. -/
def Obligations.DecodeOfEncodeIsTheInstruction : Prop :=
  ∀ (base : BaseTable) (i : Instr), i.wellFormed base = true → decode base (encode i) = .instr i

/-- Encode and decode agree: the words an instruction is decoded from begin with its encoding, so no two instructions
share a word and no bit is ignored. -/
def Obligations.EncodeOfDecodeIsTheWords : Prop :=
  ∀ (base : BaseTable) (ws : List Insn) (i : Instr), decode base ws = .instr i → ∃ rest, ws = encode i ++ rest

/-- The suffix of a pair is decoded exactly as if it stood alone (R76, R6, R113). -/
def Obligations.SuffixIsDecodedAsIfAlone : Prop :=
  ∀ (base : BaseTable) (rm : BitVec 24) (w : Insn) (rest : List Insn) (sfx : Suffix) (f : RmFormat),
    isPrefixWord w = false → decodeSuffix base w = some sfx → (suffixProfile sfx).rmFormat = some f →
      decode base (w :: rest) = decodedOfSuffix sfx ∧
      ∃ i, decode base (prefixOfRm rm :: w :: rest) = .instr i ∧ pairSuffix i = some sfx

/-! ## Register-number extension -/

/-- `Extend` gives every row of the INT/FP EXTRA3 and EXTRA2 tables (R202, R204). -/
def Obligations.ExtendGivesEveryTableRow : Prop :=
  ∀ ra : BitVec 5,
    ((extend ra (.e3 0#3)).1 = false ∧ (extend ra (.e3 0#3)).2.toNat = ra.toNat) ∧
    ((extend ra (.e3 1#3)).1 = false ∧ (extend ra (.e3 1#3)).2.toNat = 32 + ra.toNat) ∧
    ((extend ra (.e3 2#3)).1 = false ∧ (extend ra (.e3 2#3)).2.toNat = 64 + ra.toNat) ∧
    ((extend ra (.e3 3#3)).1 = false ∧ (extend ra (.e3 3#3)).2.toNat = 96 + ra.toNat) ∧
    ((extend ra (.e3 4#3)).1 = true ∧ (extend ra (.e3 4#3)).2.toNat = 4 * ra.toNat) ∧
    ((extend ra (.e3 5#3)).1 = true ∧ (extend ra (.e3 5#3)).2.toNat = 4 * ra.toNat + 1) ∧
    ((extend ra (.e3 6#3)).1 = true ∧ (extend ra (.e3 6#3)).2.toNat = 4 * ra.toNat + 2) ∧
    ((extend ra (.e3 7#3)).1 = true ∧ (extend ra (.e3 7#3)).2.toNat = 4 * ra.toNat + 3) ∧
    ((extend ra (.e2 0#2)).1 = false ∧ (extend ra (.e2 0#2)).2.toNat = ra.toNat) ∧
    ((extend ra (.e2 1#2)).1 = false ∧ (extend ra (.e2 1#2)).2.toNat = 32 + ra.toNat) ∧
    ((extend ra (.e2 2#2)).1 = true ∧ (extend ra (.e2 2#2)).2.toNat = 4 * ra.toNat) ∧
    ((extend ra (.e2 3#2)).1 = true ∧ (extend ra (.e2 3#2)).2.toNat = 4 * ra.toNat + 2)

/-- `ExtendCR` and `ExtendCRbit` give every row of the four CR tables (R209, R210). -/
def Obligations.ExtendCrGivesEveryTableRow : Prop :=
  (∀ bf : BitVec 3,
    ((extendCr bf (.e3 0#3)).1 = false ∧ (extendCr bf (.e3 0#3)).2.toNat = bf.toNat) ∧
    ((extendCr bf (.e3 1#3)).1 = false ∧ (extendCr bf (.e3 1#3)).2.toNat = 8 + bf.toNat) ∧
    ((extendCr bf (.e3 2#3)).1 = false ∧ (extendCr bf (.e3 2#3)).2.toNat = 16 + bf.toNat) ∧
    ((extendCr bf (.e3 3#3)).1 = false ∧ (extendCr bf (.e3 3#3)).2.toNat = 24 + bf.toNat) ∧
    ((extendCr bf (.e3 4#3)).1 = true ∧ (extendCr bf (.e3 4#3)).2.toNat = 16 * bf.toNat) ∧
    ((extendCr bf (.e3 5#3)).1 = true ∧ (extendCr bf (.e3 5#3)).2.toNat = 16 * bf.toNat + 4) ∧
    ((extendCr bf (.e3 6#3)).1 = true ∧ (extendCr bf (.e3 6#3)).2.toNat = 16 * bf.toNat + 8) ∧
    ((extendCr bf (.e3 7#3)).1 = true ∧ (extendCr bf (.e3 7#3)).2.toNat = 16 * bf.toNat + 12) ∧
    ((extendCr bf (.e2 0#2)).1 = false ∧ (extendCr bf (.e2 0#2)).2.toNat = bf.toNat) ∧
    ((extendCr bf (.e2 1#2)).1 = false ∧ (extendCr bf (.e2 1#2)).2.toNat = 8 + bf.toNat) ∧
    ((extendCr bf (.e2 2#2)).1 = true ∧ (extendCr bf (.e2 2#2)).2.toNat = 16 * bf.toNat) ∧
    ((extendCr bf (.e2 3#2)).1 = true ∧ (extendCr bf (.e2 3#2)).2.toNat = 16 * bf.toNat + 8)) ∧
  ∀ (ba : BitVec 5) (x : ExtraVal),
    (extendCrBit ba x).1 = (extendCr (ba.extractLsb' 2 3) x).1 ∧
    (extendCrBit ba x).2.1 = (extendCr (ba.extractLsb' 2 3) x).2 ∧
    (extendCrBit ba x).2.2 = ba.extractLsb' 0 2

/-- With EXTRA3 every register, tagged scalar or vector, has exactly one encoding (R203, an inference of the spec). -/
def Obligations.Extra3NamesEveryRegisterOnce : Prop :=
  ∀ (isVec : Bool) (n : BitVec 7),
    ∃ ra v, extend ra (.e3 v) = (isVec, n) ∧ ∀ ra' v', extend ra' (.e3 v') = (isVec, n) → ra' = ra ∧ v' = v

/-! ## The register file as elements -/

/-- An element is the bytes of the register file R24 says it is, for every width, register and element in the file. -/
def Obligations.ElementReadIsItsBytes : Prop :=
  ∀ (f : RegFile) (n e w : Nat), w = 8 ∨ w = 16 ∨ w = 32 ∨ w = 64 → 8 * n + e * (w / 8) + w / 8 ≤ 1024 →
    ∃ v, elRead f n e w = .ok v ∧ v.toNat = refElem (fileByte f) n e w

/-- Writing an element changes exactly its own bytes of the register file (R24, R25). -/
def Obligations.ElementWriteChangesItsBytesOnly : Prop :=
  ∀ (f : RegFile) (n e w : Nat) (v : Word), w = 8 ∨ w = 16 ∨ w = 32 ∨ w = 64 → 8 * n + e * (w / 8) + w / 8 ≤ 1024 →
    ∃ g, elWrite f n e w v = .ok g ∧ ∀ k < 1024, fileByte g k = refWrite (fileByte f) n e w v.toNat k

/-- An element with a byte past `r127` is refused, read or written (R26, the spec's decision D9: log 13). -/
def Obligations.ElementPastEndIsRefused : Prop :=
  ∀ (f : RegFile) (n e w : Nat) (v : Word), 1024 < 8 * n + e * (w / 8) + w / 8 →
    elRead f n e w = .error .elementPastEnd ∧ elWrite f n e w v = .error .elementPastEnd

/-! ## The unprefixed instructions -/

/-- `add` completes in every state: its result and its frame (R221, general knowledge, log 7). -/
def Obligations.AddWritesTheSum : Prop :=
  ∀ (rt ra rb : BitVec 5) (s : State), ∃ t, exec (.add rt ra rb) s = .next t ∧
    readReg t.gpr rt.toNat = readReg s.gpr ra.toNat + readReg s.gpr rb.toNat ∧ t.pc = s.pc + 4#64 ∧
    Frame (fun n => n = rt.toNat) nowhere nowhere nowhere s t

/-- `addi` completes in every state: its result, RA = 0 as the constant zero, and its frame (R222, log 7). -/
def Obligations.AddiWritesTheSum : Prop :=
  ∀ (rt ra : BitVec 5) (si : BitVec 16) (s : State), ∃ t, exec (.addi rt ra si) s = .next t ∧
    readReg t.gpr rt.toNat = (if ra = 0#5 then 0#64 else readReg s.gpr ra.toNat) + si.signExtend 64 ∧
    t.pc = s.pc + 4#64 ∧ Frame (fun n => n = rt.toNat) nowhere nowhere nowhere s t

/-- `b` completes in every state: the target is relative to the `b` itself, nothing else changes (R223, log 7). -/
def Obligations.BranchAddsItsDisplacement : Prop :=
  ∀ (li : BitVec 24) (s : State), ∃ t, exec (.b li) s = .next t ∧
    t.pc = s.pc + BitVec.ofInt 64 (4 * li.toInt) ∧ Frame nowhere nowhere nowhere nowhere s t

/-- `lwz` completes at an aligned, admitted address: the four bytes in the order of `MSR.LE`, zero-extended; its frame
(R51, R224, log 7, log 22). -/
def Obligations.LwzLoadsTheWord : Prop :=
  ∀ (rt ra : BitVec 5) (d : BitVec 16) (s : State), (effAddr s ra d).toNat % 4 = 0 →
    (∀ k < 4, s.launch.admits ((effAddr s ra d).toNat + k) = true) →
    ∃ t, exec (.lwz rt ra d) s = .next t ∧
      (readReg t.gpr rt.toNat).toNat =
        (let byte := fun k => (s.mem.read ((effAddr s ra d).toNat + k)).toNat
         if s.le then byte 0 + 2 ^ 8 * byte 1 + 2 ^ 16 * byte 2 + 2 ^ 24 * byte 3
         else byte 3 + 2 ^ 8 * byte 2 + 2 ^ 16 * byte 1 + 2 ^ 24 * byte 0) ∧
      t.pc = s.pc + 4#64 ∧ Frame (fun n => n = rt.toNat) nowhere nowhere nowhere s t

/-- `stw` completes at an aligned, admitted address: the low four bytes of RS in the order of `MSR.LE`; its frame, every
other byte of memory included (R51, R225, log 7, log 22). -/
def Obligations.StwStoresTheWord : Prop :=
  ∀ (rs ra : BitVec 5) (d : BitVec 16) (s : State), s.mem.wf = true → (effAddr s ra d).toNat % 4 = 0 →
    (∀ k < 4, s.launch.admits ((effAddr s ra d).toNat + k) = true) →
    ∃ t, exec (.stw rs ra d) s = .next t ∧
      (∀ k < 4, t.mem.read ((effAddr s ra d).toNat + k) =
        (readReg s.gpr rs.toNat).extractLsb' (8 * (if s.le then k else 3 - k)) 8) ∧
      t.pc = s.pc + 4#64 ∧
      Frame nowhere nowhere nowhere (fun a => (effAddr s ra d).toNat ≤ a ∧ a < (effAddr s ra d).toNat + 4) s t

/-- What `stw` stored, `lwz` loads again, in either byte order (R51; the effects of the two are general knowledge,
log 7). -/
def Obligations.StoreThenLoadReturnsTheWord : Prop :=
  ∀ (rs rt ra : BitVec 5) (d : BitVec 16) (s t : State), s.mem.wf = true → exec (.stw rs ra d) s = .next t →
    ∃ u, exec (.lwz rt ra d) t = .next u ∧
      readReg u.gpr rt.toNat = ((readReg s.gpr rs.toNat).setWidth 32).setWidth 64

/-- A misaligned `lwz` or `stw` is refused; so is one at an aligned address with a byte that is not admitted (D19, R58,
R224; log 22). -/
def Obligations.BadAccessIsRefused : Prop :=
  ∀ (r ra : BitVec 5) (d : BitVec 16) (s : State),
    ((effAddr s ra d).toNat % 4 ≠ 0 →
      exec (.lwz r ra d) s = .refused .misalignedAccess ∧ exec (.stw r ra d) s = .refused .misalignedAccess) ∧
    ((effAddr s ra d).toNat % 4 = 0 → (∃ k < 4, s.launch.admits ((effAddr s ra d).toNat + k) = false) →
      exec (.lwz r ra d) s = .refused .addressNotAdmitted ∧ exec (.stw r ra d) s = .refused .addressNotAdmitted)

/-! ## Steps -/

/-- A step runs the decoded instruction (R90, R91, R110). -/
def Obligations.StepRunsTheDecodedInstruction : Prop :=
  ∀ (s : State) (ws : List Insn) (i : Instr), fetchWords s = .ok ws → decode s.launch.base ws = .instr i →
    step s = exec i s

/-- When the bytes at `pc` are those of an instruction, each word in the byte order of `MSR.LE`, admitted and not stored to,
the fetch gives its words: one, or a pair's two that do not cross a 64-byte block unless `CROSS64` is `allow` (R53, R54,
R55, R58, R63; log 21, log 22, log 30). -/
def Obligations.FetchGivesTheWordsAtPc : Prop :=
  ∀ (s : State) (i : Instr), s.pc.toNat % 4 = 0 →
    (∀ x ∈ addrsFrom s.pc (4 * (encode i).length), s.launch.admits x.toNat = true ∧ x.toNat ∉ s.stored) →
    (addrsFrom s.pc (4 * (encode i).length)).map (fun x => s.mem.read x.toNat) =
      (encode i).flatMap (bytesOfInsn s.le) →
    ((encode i).length = 2 → s.launch.cross64 = true ∨ s.pc.toNat % 64 ≠ 60) →
    fetchWords s = .ok (encode i)

/-- A step on a word that is no row of the opcode table. A v3.1 prefix word of which the reader's `Base` has no instruction is
refused; the two words of one it has run it; a word that is no instruction of `Base` takes the illegal instruction trap;
a word the reader's `Base` supplies runs that instruction (R74, R110, R220; V79, log 12, log 18). -/
def Obligations.StepOnOtherWords : Prop :=
  ∀ (s : State) (w : Insn), fetch32 s s.pc = .ok w → isSvp64Prefix w = false →
    (isPrefixWord w = true → s.launch.base.coversPrefix w = false → step s = .refused .v31PrefixWord) ∧
    (isPrefixWord w = true → s.launch.base.coversPrefix w = true → s.launch.cross64 = true ∨ s.pc.toNat % 64 ≠ 60 →
      ∀ v, fetch32 s (s.pc + 4#64) = .ok v →
        (prefixedLookup s.launch.base.prefixed w v = none → step s = .refused .v31PrefixWord) ∧
        ∀ row, prefixedLookup s.launch.base.prefixed w v = some row → step s = execBasePrefixed w v row s) ∧
    (isPrefixWord w = false → decodeSuffix s.launch.base w = none → step s = .fault (.illegalInstruction s.pc)) ∧
    (∀ prof, isPrefixWord w = false → decodeSuffix s.launch.base w = some (.other w prof) →
      step s = execBaseWord w prof s)

/-- What a step refuses to fetch: at a `pc` that is no multiple of 4, at an address that is not admitted, a byte stored to,
and a two-word instruction that crosses a 64-byte block: an SVP64 pair (R55, the spec's decision D15) and, as the model's
choice, a v3.1 prefixed instruction of the reader's `Base` (log 18) (R55, R58, R63; log 21). Which refusal stands where
several apply is the model's choice (log 22). -/
def Obligations.BadFetchIsRefused : Prop :=
  ∀ s : State,
    (s.pc.toNat % 4 ≠ 0 → step s = .refused .pcMisaligned) ∧
    (s.pc.toNat % 4 = 0 → (∃ k < 4, s.launch.admits (s.pc.toNat + k) = false) →
      step s = .refused .addressNotAdmitted) ∧
    (s.pc.toNat % 4 = 0 → (∀ k < 4, s.launch.admits (s.pc.toNat + k) = true) →
      (∃ k < 4, s.pc.toNat + k ∈ s.stored) → step s = .refused .storedCodeFetched) ∧
    (∀ w, fetch32 s s.pc = .ok w → hasTwoWords s.launch.base w = true → s.pc.toNat % 64 = 60 → s.launch.cross64 = false →
      step s = .refused .pairCrosses64)

/-! ## Pairs: decode-time rules -/

/-- At `VL` = 0 every pair without a reserved value, of every format and class, changes nothing but `pc`, which goes on by
8; unprefixed instructions do not depend on `VL` (R116). -/
def Obligations.VlZeroMakesEveryPairANop : Prop :=
  (∀ (s : State) (f : RmFormat) (c : RmCommon) (e : BitVec 9) (sfx : Suffix), s.vl = 0 →
    (suffixProfile sfx).rmFormat ≠ none → reserved c (slotsOfExtra f e) (suffixProfile sfx) = false →
    exec (pairOf f c e sfx) s = .next { s with pc := s.pc + 8#64 }) ∧
  (∀ (s : State) (rm : BitVec 24) (w : Insn) (sfx : Suffix) (f : RmFormat), s.vl = 0 → isPrefixWord w = false →
    decodeSuffix s.launch.base w = some sfx → (suffixProfile sfx).rmFormat = some f →
    reserved (commonOfRm rm) (slotsOfRm f rm) (suffixProfile sfx) = false →
    exec (.sv rm w) s = .next { s with pc := s.pc + 8#64 }) ∧
  ∀ (s t : State) (i : Instr) (v : Nat), isPair i = false → exec i s = .next t →
    exec i { s with vl := v } = .next { t with vl := v }

/-- Scalar identity: with `RM` all zeros and `VL` = 1 a pair does what its suffix does unprefixed, with `pc + 8` instead of
the base's next address, for every suffix with an RM format that is no branch (R125), of the test subset and of
the reader's `Base` alike, split or unsplit (R117; log 7, log 9, log 11). -/
def Obligations.IdentityPairActsAsItsSuffix : Prop :=
  ∀ (f : RmFormat) (sfx : Suffix) (s : State), s.vl = 1 → (suffixProfile sfx).rmFormat = some f →
    (suffixProfile sfx).cls ≠ .branch →
    exec (pairOf f zeroCommon 0#9 sfx) s = outcomeAt (s.pc + 8#64) (execSuffix sfx s) ∧
    ∀ w, isPrefixWord w = false → decodeSuffix s.launch.base w = some sfx →
      exec (.sv 0#24 w) s = outcomeAt (s.pc + 8#64) (execSuffix sfx s)

/-- The identity-prefixed `stw` completes at an aligned, admitted address: the store, its frame, and `pc + 8` (R117, R185,
R225; log 7, log 22). -/
def Obligations.IdentityStoreStoresTheWord : Prop :=
  ∀ (rs ra : BitVec 5) (d : BitVec 16) (s : State), s.vl = 1 → s.mem.wf = true → (effAddr s ra d).toNat % 4 = 0 →
    (∀ k < 4, s.launch.admits ((effAddr s ra d).toNat + k) = true) →
    ∃ t, exec (.svRm2p2s zeroCommon ⟨0#3, 0#3, 0#3⟩ (.stw rs ra d)) s = .next t ∧
      (∀ k < 4, t.mem.read ((effAddr s ra d).toNat + k) =
        (readReg s.gpr rs.toNat).extractLsb' (8 * (if s.le then k else 3 - k)) 8) ∧
      t.pc = s.pc + 8#64 ∧
      Frame nowhere nowhere nowhere (fun a => (effAddr s ra d).toNat ≤ a ∧ a < (effAddr s ra d).toNat + 4) s t

/-- Scalar identity of a load, store or CR-operation word the reader's `Base` supplies, in each of the seven formats: it
completes where it raises no exception and every address is admitted; it has the effect `Base` gives the word, its
registers and its stored bytes, reaches only `r0`-`r31`, `fp0`-`fp31`, `CR0`-`CR7` and the bytes of that effect, and
goes on at `pc + 8` (R117; log 8, log 9). The effect is free: this holds for every `Base`. -/
def Obligations.IdentityOfSuppliedWordReachesBaseRegistersOnly : Prop :=
  ∀ (f : RmFormat) (word : Insn) (prof : Profile) (s : State), s.vl = 1 → s.mem.wf = true →
    (∀ a < 2 ^ 64, s.launch.admits a = true) → prof.rmFormat = some f → prof.cls = .ldst ∨ prof.cls = .crop →
    prof.mayRaise = false →
    ∃ t, exec (pairOf f zeroCommon 0#9 (.other word prof)) s = .next t ∧ t.pc = s.pc + 8#64 ∧
      t.gpr = (suppliedEffect [word] s).gpr.foldl (fun g p => writeReg g p.1.toNat p.2) s.gpr ∧
      t.fpr = (suppliedEffect [word] s).fpr.foldl (fun g p => writeReg g p.1.toNat p.2) s.fpr ∧
      t.cr = (suppliedEffect [word] s).cr.foldl (fun g p => writeCr g p.1.toNat p.2) s.cr ∧
      t.mem = (storeBytes s (suppliedEffect [word] s).mem).mem ∧
      Frame (fun n => n < 32) (fun n => n < 32) (fun n => n < 8)
        (fun a => ∃ p ∈ (suppliedEffect [word] s).mem, p.1.toNat = a) s t

/-- A pair whose suffix has no RM format never runs: a prefix word as suffix is refused, a suffix that is no base
instruction or UnVectoriseable takes the illegal instruction trap, whatever `RM` and `VL` are; UnVectoriseable are the
`sc`, `sync` and `mtmsr` of every `Base`, whatever its rows say of them (R78, R92, R114, R118; D10, D26). -/
def Obligations.SuffixWithoutFormatNeverRuns : Prop :=
  ∀ (rm : BitVec 24) (w : Insn) (s : State),
    (isPrefixWord w = true → exec (.sv rm w) s = .refused .suffixIsPrefix) ∧
    (isPrefixWord w = false → decodeSuffix s.launch.base w = none →
      exec (.sv rm w) s = .fault (.illegalInstruction s.pc)) ∧
    (∀ sfx, isPrefixWord w = false → decodeSuffix s.launch.base w = some sfx →
      (suffixProfile sfx).rmFormat = none → exec (.sv rm w) s = .fault (.illegalInstruction s.pc)) ∧
    (∀ prof, isPrefixWord w = false → decodeSuffix s.launch.base w = some (.other w prof) →
      prof.mnemonic = "sc" ∨ prof.mnemonic = "sync" ∨ prof.mnemonic = "mtmsr" →
      exec (.sv rm w) s = .fault (.illegalInstruction s.pc))

/-- The row of the prefix word of any RM format is the row of the suffix's own format: executing a pair unsplit and
executing what the decoder splits it into are the same, for every `RM`, suffix word and state (R77, R91, R114). -/
def Obligations.UnsplitPairIsTheSplitPair : Prop :=
  ∀ (rm : BitVec 24) (w : Insn) (s : State), exec (.sv rm w) s = exec (decodePair s.launch.base rm w) s

/-- The width value `0b11` (bf16) on an FPR operand traps, at every `VL` and in every format: ELWIDTH for a destination,
ELWIDTH_SRC for a source (R144, R95 row a). -/
def Obligations.Bf16WidthTraps : Prop :=
  ∀ (f : RmFormat) (c : RmCommon) (e : BitVec 9) (sfx : Suffix) (s : State) (o : Operand),
    o ∈ (suffixProfile sfx).operands → o.kind = .fpr →
    ((o.role = .rdest ∨ o.role = .rdest2) ∧ c.elwidth = 3#2) ∨
      ((o.role = .rsrc1 ∨ o.role = .rsrc2 ∨ o.role = .rsrc3) ∧ c.elwidthSrc = 3#2) →
    exec (pairOf f c e sfx) s = .fault (.illegalInstruction s.pc)

/-- An FP suffix ending in "s" traps at f16 and bf16 on the width field of an FPR operand (R145, R95 row b; log 23). -/
def Obligations.FpSingleAtHalfWidthTraps : Prop :=
  ∀ (f : RmFormat) (c : RmCommon) (e : BitVec 9) (sfx : Suffix) (s : State) (o : Operand),
    (suffixProfile sfx).fpSingle = true → o ∈ (suffixProfile sfx).operands → o.kind = .fpr →
    ((o.role = .rdest ∨ o.role = .rdest2) ∧ (c.elwidth = 2#2 ∨ c.elwidth = 3#2)) ∨
      ((o.role = .rsrc1 ∨ o.role = .rsrc2 ∨ o.role = .rsrc3) ∧ (c.elwidthSrc = 2#2 ∨ c.elwidthSrc = 3#2)) →
    exec (pairOf f c e sfx) s = .fault (.illegalInstruction s.pc)

/-- An EXTRA slot of an operand the suffix does not have traps unless it is zero; so does EXTRA2_MODE for a suffix that does
not use it (R95 row c; D25). -/
def Obligations.UnusedSlotMustBeZero : Prop :=
  (∀ (f : RmFormat) (c : RmCommon) (e : BitVec 9) (sfx : Suffix) (s : State) (r : Role),
    r ∈ formatRoles f → (slotOf (slotsOfExtra f e).entries r).isZero = false →
    (∀ o ∈ (suffixProfile sfx).operands, o.role ≠ r) →
    exec (pairOf f c e sfx) s = .fault (.illegalInstruction s.pc)) ∧
  ∀ (c : RmCommon) (x : Extra1p3s1d) (sfx : Suffix) (s : State), x.extra2Mode = true →
    (suffixProfile sfx).usesExtra2Mode = false →
    exec (.svRm1p3s1d c x sfx) s = .fault (.illegalInstruction s.pc)

/-- Every trap is `IllegalInstruction(pc)` and a property of the instruction's words (and of `Base`) alone: an instruction
that traps in one state traps in every state with the same `Base`, whatever `VL`, registers and predicates hold (R245,
an inference of the spec; log 12). -/
def Obligations.TrapsDependOnTheWordsAlone : Prop :=
  ∀ (i : Instr) (s : State) (r : Fault), exec i s = .fault r → r = .illegalInstruction s.pc ∧
    ∀ s' : State, s'.launch.base = s.launch.base → exec i s' = .fault (.illegalInstruction s'.pc)

/-- What a pair without a reserved value is refused for while `VL` > 0, in the order of R114 (R62, R65, R114, R122, R124,
R125, R148, R173, R222; decisions D7, D8, D11, D12, D19, D28, D31; log 13, log 27, log 28; the place of R62 is log 36). -/
def Obligations.RefusalsOfActivePairsInOrder : Prop :=
  ∀ (f : RmFormat) (c : RmCommon) (e : BitVec 9) (sfx : Suffix) (s : State),
    (suffixProfile sfx).rmFormat ≠ none → reserved c (slotsOfExtra f e) (suffixProfile sfx) = false →
    s.vl ≠ 0 →
    ((suffixProfile sfx).cls = .branch → exec (pairOf f c e sfx) s = .refused .prefixedBranch) ∧
    (¬ (c = zeroCommon ∧ e = 0#9 ∧ s.vl = 1) →
      ((suffixProfile sfx).cls ≠ .branch → (suffixProfile sfx).atomic = true →
        exec (pairOf f c e sfx) s = .refused .atomicSuffix) ∧
      ((suffixProfile sfx).atomic = false →
      ((suffixProfile sfx).cls = .ldst → exec (pairOf f c e sfx) s = .refused .ldstModeNotInSource) ∧
      ((suffixProfile sfx).cls = .crop → exec (pairOf f c e sfx) s = .refused .classNotNormal) ∧
      ((suffixProfile sfx).cls = .normal →
        (c.mode ≠ 0#5 → exec (pairOf f c e sfx) s = .refused .modeNonzero) ∧
        (c.mode = 0#5 → (suffixProfile sfx).rc = true → exec (pairOf f c e sfx) s = .refused .vectorisedRc1) ∧
        (c.mode = 0#5 → (suffixProfile sfx).rc = false → c.elwidth ≠ c.elwidthSrc →
          exec (pairOf f c e sfx) s = .refused .elwidthDiffers) ∧
        (c.mode = 0#5 → c.elwidth = c.elwidthSrc → (∃ rt si, sfx = .addi rt 0#5 si) →
          exec (pairOf f c e sfx) s = .refused .addiRa0) ∧
        (c.mode = 0#5 → (suffixProfile sfx).rc = false → c.elwidth = c.elwidthSrc → (∀ rt si, sfx ≠ .addi rt 0#5 si) →
          f = .rm2p2s ∨ f = .rm2p2s1d ∨ f = .rm2p1s2d ∨ f = .rm2p3s →
          exec (pairOf f c e sfx) s = .refused .twinLoopShape))))

/-! ## Pairs: the loops -/

/-- LS009's vector-looped `add` (R127, which gives widths 64 and 16; 32 and 8 follow from R119 and R147): with every operand
tagged vector, no predication, SUBVL = 1 and MODE = 0, the register file afterwards is the byte array LS009's loop computes, and nothing but it and `pc`
changes. Overlapping vectors are included: the loop is sequential (R121). -/
def Obligations.VectorAddIsTheLoopOfTheSource : Prop :=
  ∀ (rt ra rb : BitVec 5) (lt la lb : BitVec 2) (ew : BitVec 2) (s : State),
    8 * (4 * rt.toNat + lt.toNat) + s.vl * (widthOf ew / 8) ≤ 1024 →
    8 * (4 * ra.toNat + la.toNat) + s.vl * (widthOf ew / 8) ≤ 1024 →
    8 * (4 * rb.toNat + lb.toNat) + s.vl * (widthOf ew / 8) ≤ 1024 →
    ∃ t, exec (.svRm1p2s1d { zeroCommon with elwidth := ew, elwidthSrc := ew }
        ⟨1#1 ++ lt, 1#1 ++ la, 1#1 ++ lb⟩ (.add rt ra rb)) s = .next t ∧
      (∀ k < 1024, fileByte t.gpr k =
        refVectorAdd (widthOf ew) (4 * rt.toNat + lt.toNat) (4 * ra.toNat + la.toNat) (4 * rb.toNat + lb.toNat) s.vl
          (fileByte s.gpr) k) ∧
      t.pc = s.pc + 8#64 ∧ Frame (fun _ => True) nowhere nowhere nowhere s t

/-- `Loop1P` of `sv.add` with any tags, any SUBVL, any width and any predicate whose tests are defined as far as the loop
goes (a scalar destination ends it at the first enabled element) completes, split or as raw `RM` and suffix word: the
register file afterwards is the byte array of R119's loop under the mask read before the loop (R119, R121, R151, R161;
the reading of scalar operands and of SUBVL is the spec's decision D4, D6: log 14, log 16). -/
def Obligations.PrefixedAddIsLoop1P : Prop :=
  ∀ (c : RmCommon) (x : Extra1p2s1d) (rt ra rb : BitVec 5) (m : Nat → Bool) (s : State), s.vl ≠ 0 → c.mode = 0#5 →
    c.elwidth = c.elwidthSrc →
    (∀ i < s.vl, ((tagged rt x.rdest).1 = true ∨ ∀ i' < i, m i' = false) →
      predMask s c.maskMode c.mask i = .ok (m i)) →
    operandFits (tagged rt x.rdest) s.vl (subLen c.subvl) (widthOf c.elwidth) →
    operandFits (tagged ra x.rsrc1) s.vl (subLen c.subvl) (widthOf c.elwidth) →
    operandFits (tagged rb x.rsrc2) s.vl (subLen c.subvl) (widthOf c.elwidth) →
    ∃ t, exec (.svRm1p2s1d c x (.add rt ra rb)) s = .next t ∧
      (s.launch.base.leavesToSubset (encodeSuffix (.add rt ra rb)) = true →
        exec (.sv (rmOf c x.bits) (encodeSuffix (.add rt ra rb))) s = .next t) ∧
      (∀ k < 1024, fileByte t.gpr k =
        refAddLoop m (widthOf c.elwidth) (subLen c.subvl) (tagged rt x.rdest) (tagged ra x.rsrc1) (tagged rb x.rsrc2)
          s.vl 0 (fileByte s.gpr) k) ∧
      t.pc = s.pc + 8#64 ∧ Frame (fun _ => True) nowhere nowhere nowhere s t

/-- A prefixed `add` whose destination is a vector is refused as a whole where any element it enables, of any operand, has a
byte past `r127` (R26; V70, the spec's decision D9: log 13; where sub-element `j` of iteration `i` and the elements of a
scalar source lie is the spec's decision D4, D6: log 14, log 16). A scalar destination is left out: it ends the loop
before later elements of a vector source are read. -/
def Obligations.VectorPastTheFileIsRefused : Prop :=
  ∀ (c : RmCommon) (x : Extra1p2s1d) (rt ra rb : BitVec 5) (m : Nat → Bool) (i j : Nat) (s : State), c.mode = 0#5 →
    c.elwidth = c.elwidthSrc → (tagged rt x.rdest).1 = true →
    (∀ i' ≤ i, predMask s c.maskMode c.mask i' = .ok (m i')) → i < s.vl → m i = true → j < subLen c.subvl →
    pastFile (tagged rt x.rdest) i (subLen c.subvl) j (widthOf c.elwidth) ∨
      pastFile (tagged ra x.rsrc1) i (subLen c.subvl) j (widthOf c.elwidth) ∨
      pastFile (tagged rb x.rsrc2) i (subLen c.subvl) j (widthOf c.elwidth) →
    exec (.svRm1p2s1d c x (.add rt ra rb)) s = .refused .elementPastEnd

/-- Whatever a prefixed `add` does, a byte of the integer file it changes lies in a destination element whose iteration the
mask, read in the state before, enables (R172, R161, R25; where a scalar destination and a sub-vector lie is the spec's
decision D4, D6: log 14, log 16). -/
def Obligations.DisabledElementsKeepTheirBytes : Prop :=
  ∀ (c : RmCommon) (x : Extra1p2s1d) (rt ra rb : BitVec 5) (s t : State),
    exec (.svRm1p2s1d c x (.add rt ra rb)) s = .next t →
    Frame (fun _ => True) nowhere nowhere nowhere s t ∧
    ∀ k < 1024, fileByte t.gpr k ≠ fileByte s.gpr k →
      ∃ i < s.vl, ∃ j < subLen c.subvl, predMask s c.maskMode c.mask i = .ok true ∧
        (let o := extend rt (.e3 x.rdest)
         let at0 := 8 * o.2.toNat + refIndex o.1 i (subLen c.subvl) j * (widthOf c.elwidth / 8)
         at0 ≤ k ∧ k < at0 + widthOf c.elwidth / 8)

/-- A single-predicated normal-class pair no element of which is enabled changes nothing but `pc` (R119, R164, R172; with
`1 << R3` and `GPR[3]` >= `VL` that is R164's own case). -/
def Obligations.NoEnabledElementChangesOnlyPc : Prop :=
  ∀ (f : RmFormat) (c : RmCommon) (e : BitVec 9) (sfx : Suffix) (s : State), f = .rm1p3s1d ∨ f = .rm1p2s1d →
    (suffixProfile sfx).rmFormat ≠ none → reserved c (slotsOfExtra f e) (suffixProfile sfx) = false →
    (suffixProfile sfx).cls = .normal → (suffixProfile sfx).rc = false → (suffixProfile sfx).atomic = false →
    (∀ rt si, sfx ≠ .addi rt 0#5 si) → c.mode = 0#5 → c.elwidth = c.elwidthSrc → s.vl ≠ 0 →
    (∀ i < s.vl, predMask s c.maskMode c.mask i = .ok false) →
    exec (pairOf f c e sfx) s = .next { s with pc := s.pc + 8#64 }

/-- `Loop2P` of `sv.addi` with any tags, any SUBVL, any width and any source and destination predicates whose tests are all
defined completes, split or as raw `RM` and suffix word: the register file afterwards is the byte array of R173's loop
under the two masks read before the loop (R173, R151, R161, R168, R222; the loop, the scalar operands and SUBVL are the
spec's decisions D4, D5, D6, `addi` is D31: log 7, log 14, log 15, log 16). -/
def Obligations.PrefixedAddiIsLoop2P : Prop :=
  ∀ (c : RmCommon) (x : Extra2p1s1d) (rt ra : BitVec 5) (si : BitVec 16) (ms md : Nat → Bool) (s : State), s.vl ≠ 0 →
    ra ≠ 0#5 → c.mode = 0#5 → c.elwidth = c.elwidthSrc →
    (∀ i < s.vl, predMask s c.maskMode x.maskSrc i = .ok (ms i) ∧ predMask s c.maskMode c.mask i = .ok (md i)) →
    operandFits (tagged rt x.rdest) s.vl (subLen c.subvl) (widthOf c.elwidth) →
    operandFits (tagged ra x.rsrc1) s.vl (subLen c.subvl) (widthOf c.elwidth) →
    ∃ t, exec (.svRm2p1s1d c x (.addi rt ra si)) s = .next t ∧
      (s.launch.base.leavesToSubset (encodeSuffix (.addi rt ra si)) = true →
        exec (.sv (rmOf c x.bits) (encodeSuffix (.addi rt ra si))) s = .next t) ∧
      (∀ k < 1024, fileByte t.gpr k =
        refTwinLoop ms md (widthOf c.elwidth) (subLen c.subvl) (tagged rt x.rdest) (tagged ra x.rsrc1)
          (si.signExtend 64).toNat s.vl s.vl 0 0 (fileByte s.gpr) k) ∧
      t.pc = s.pc + 8#64 ∧ Frame (fun _ => True) nowhere nowhere nowhere s t

/-- `sv.addi` with both operands tagged vector and no predication on either side adds the immediate element by element, at
every width: the register file is the byte array of that loop (R173, R222; D5, D31: log 15, log 7). -/
def Obligations.VectorAddiAddsElementByElement : Prop :=
  ∀ (rt ra : BitVec 5) (si : BitVec 16) (lt la : BitVec 2) (ew : BitVec 2) (s : State), ra ≠ 0#5 →
    8 * (4 * rt.toNat + lt.toNat) + s.vl * (widthOf ew / 8) ≤ 1024 →
    8 * (4 * ra.toNat + la.toNat) + s.vl * (widthOf ew / 8) ≤ 1024 →
    ∃ t, exec (.svRm2p1s1d { zeroCommon with elwidth := ew, elwidthSrc := ew } ⟨1#1 ++ lt, 1#1 ++ la, 0#3⟩
        (.addi rt ra si)) s = .next t ∧
      (∀ k < 1024, fileByte t.gpr k =
        refVectorAddi (widthOf ew) (4 * rt.toNat + lt.toNat) (4 * ra.toNat + la.toNat) (si.signExtend 64).toNat s.vl
          (fileByte s.gpr) k) ∧
      t.pc = s.pc + 8#64 ∧ Frame (fun _ => True) nowhere nowhere nowhere s t

/-- Twin predication packs: under a source mask and no destination mask, the enabled source registers, in order, give the
first destination registers, and no other register changes (R173, R222; the loop is the spec's decision D5: log 15, and
`addi`'s effect and format are general knowledge, D31: log 7). -/
def Obligations.SourceMaskPacksTheDestination : Prop :=
  ∀ (rt ra : BitVec 5) (si : BitVec 16) (lt la : BitVec 2) (m : BitVec 3) (en : Nat → Bool) (s : State), ra ≠ 0#5 →
    4 * rt.toNat + lt.toNat + s.vl ≤ 128 → 4 * ra.toNat + la.toNat + s.vl ≤ 128 →
    (4 * rt.toNat + lt.toNat + s.vl ≤ 4 * ra.toNat + la.toNat ∨
      4 * ra.toNat + la.toNat + s.vl ≤ 4 * rt.toNat + lt.toNat) →
    (∀ i < s.vl, predMask s false m i = .ok (en i)) →
    ∃ t, exec (.svRm2p1s1d zeroCommon ⟨1#1 ++ lt, 1#1 ++ la, m⟩ (.addi rt ra si)) s = .next t ∧
      (∀ (k : Nat) (hk : k < ((List.range s.vl).filter en).length),
        readReg t.gpr (4 * rt.toNat + lt.toNat + k) =
          readReg s.gpr (4 * ra.toNat + la.toNat + ((List.range s.vl).filter en)[k]) + si.signExtend 64) ∧
      t.pc = s.pc + 8#64 ∧
      Frame (fun n => 4 * rt.toNat + lt.toNat ≤ n ∧
          n < 4 * rt.toNat + lt.toNat + ((List.range s.vl).filter en).length)
        nowhere nowhere nowhere s t

/-- A four-operand pair (RM-1P-3S1D, all GPRs) of a word the reader's `Base` supplies completes at `VL` = 1: one element
operation on element 0 of its extended operands, whatever their tags (R119, R181, R204; log 8, log 34). The result is
`Base`'s, free. -/
def Obligations.FourOperandPairRunsItsElementOperation : Prop :=
  ∀ (mn : String) (dw : Nat) (word : Insn) (ft fa fb fc : BitVec 5) (c : RmCommon) (x : Extra1p3s1d) (s : State), s.vl = 1 →
    c.maskMode = false → c.mask = 0#3 → c.elwidth = c.elwidthSrc → c.subvl = 0#2 → c.mode = 0#5 →
    x.extra2Mode = false →
    ∃ a b d g,
      elRead s.gpr (extend fa (.e2 x.rsrc1)).2.toNat 0 (widthOf c.elwidth) = .ok a ∧
      elRead s.gpr (extend fb (.e2 x.rsrc2)).2.toNat 0 (widthOf c.elwidth) = .ok b ∧
      elRead s.gpr (extend fc (.e2 x.rsrc3)).2.toNat 0 (widthOf c.elwidth) = .ok d ∧
      elWrite s.gpr (extend ft (.e2 x.rdest)).2.toNat 0 (widthOf c.elwidth)
        (Config.elementOp word (widthOf c.elwidth) [a, b, d]).1 = .ok g ∧
      exec (.svRm1p3s1d c x (.other word (normalProfile mn dw .rm1p3s1d
        [⟨.rdest, .gpr, ft⟩, ⟨.rsrc1, .gpr, fa⟩, ⟨.rsrc2, .gpr, fb⟩, ⟨.rsrc3, .gpr, fc⟩] false))) s =
        .next { s with gpr := g, pc := s.pc + 8#64 }

/-- A floating-point pair (RM-1P-2S1D, all FPRs, not ending in "s") of a word the reader's `Base` supplies completes at
`VL` = 1 at every width but bf16, and writes the FPR file alone (R28, R119, R144, R208; log 8). -/
def Obligations.FloatPairWritesTheFprFileAlone : Prop :=
  ∀ (mn : String) (dw : Nat) (word : Insn) (ft fa fb : BitVec 5) (c : RmCommon) (x : Extra1p2s1d) (s : State), s.vl = 1 →
    c.maskMode = false → c.mask = 0#3 → c.elwidth ≠ 3#2 → c.elwidth = c.elwidthSrc → c.subvl = 0#2 → c.mode = 0#5 →
    ∃ a b g,
      elRead s.fpr (extend fa (.e3 x.rsrc1)).2.toNat 0 (widthOf c.elwidth) = .ok a ∧
      elRead s.fpr (extend fb (.e3 x.rsrc2)).2.toNat 0 (widthOf c.elwidth) = .ok b ∧
      elWrite s.fpr (extend ft (.e3 x.rdest)).2.toNat 0 (widthOf c.elwidth)
        (Config.elementOp word (widthOf c.elwidth) [a, b]).1 = .ok g ∧
      exec (.svRm1p2s1d c x (.other word (normalProfile mn dw .rm1p2s1d
        [⟨.rdest, .fpr, ft⟩, ⟨.rsrc1, .fpr, fa⟩, ⟨.rsrc2, .fpr, fb⟩] false))) s =
        .next { s with fpr := g, pc := s.pc + 8#64 }

/-- A pair with a CR-field destination and two GPR sources of a word the reader's `Base` supplies completes at `VL` = 1, and
writes that one CR field, whatever the element width (R146, R209, R211; log 8). -/
def Obligations.CrFieldPairWritesOneFieldAlone : Prop :=
  ∀ (mn : String) (dw : Nat) (word : Insn) (bf : BitVec 3) (fa fb : BitVec 5) (c : RmCommon) (x : Extra1p2s1d) (s : State), s.vl = 1 →
    c.maskMode = false → c.mask = 0#3 → c.elwidth = c.elwidthSrc → c.subvl = 0#2 → c.mode = 0#5 →
    ∃ a b,
      elRead s.gpr (extend fa (.e3 x.rsrc1)).2.toNat 0 (widthOf c.elwidth) = .ok a ∧
      elRead s.gpr (extend fb (.e3 x.rsrc2)).2.toNat 0 (widthOf c.elwidth) = .ok b ∧
      exec (.svRm1p2s1d c x (.other word (normalProfile mn dw .rm1p2s1d
        [⟨.rdest, .crField, bf.setWidth 5⟩, ⟨.rsrc1, .gpr, fa⟩, ⟨.rsrc2, .gpr, fb⟩] false))) s =
        .next { s with
          cr := writeCr s.cr (extendCr bf (.e3 x.rdest)).2.toNat
            ((Config.elementOp word (widthOf c.elwidth) [a, b]).1.setWidth 4)
          pc := s.pc + 8#64 }

/-- A CR-bit operand's element is one bit of one CR field, whatever the width: read, it is that bit; written, that bit alone
changes (R211). That element `e` lies in CR field `number + e`, at the same bit, is the spec's decision D21 (log 37);
that bit 0 is LT is log 32, that a written value gives its lowest bit is log 8. -/
def Obligations.CrBitElementIsOneBitOfItsField : Prop :=
  ∀ (s : State) (o : ExtOperand) (e w : Nat) (v : Word), o.kind = .crBit → o.bit < 4 → o.num + e < 128 →
    (∃ r, readEl s o e w = .ok r ∧ r.toNat = ((readCr s.cr (o.num + e)).getMsbD o.bit).toNat) ∧
    ∃ t, writeEl (fun _ => false) s o e w v = .ok t ∧ (readCr t.cr (o.num + e)).getMsbD o.bit = v.getLsbD 0 ∧
      (∀ b < 4, b ≠ o.bit → (readCr t.cr (o.num + e)).getMsbD b = (readCr s.cr (o.num + e)).getMsbD b) ∧
      t.pc = s.pc ∧ Frame nowhere nowhere (fun n => n = o.num + e) nowhere s t

/-- A pair over three CR-bit operands of a word the reader's `Base` supplies completes at `VL` = 1: the extended destination
bit becomes the lowest bit of the element operation on the two source bits, and nothing else changes (R119, R209, R211;
log 8, log 32). -/
def Obligations.CrBitPairWritesOneBitAlone : Prop :=
  ∀ (mn : String) (dw : Nat) (word : Insn) (bt ba bb : BitVec 5) (c : RmCommon) (x : Extra1p2s1d) (s : State),
    s.vl = 1 → c.maskMode = false → c.mask = 0#3 → c.elwidth = c.elwidthSrc → c.subvl = 0#2 → c.mode = 0#5 →
    ∃ (a b : Word) (t : State),
      a.toNat = ((readCr s.cr (extendCrBit ba (.e3 x.rsrc1)).2.1.toNat).getMsbD (ba.extractLsb' 0 2).toNat).toNat ∧
      b.toNat = ((readCr s.cr (extendCrBit bb (.e3 x.rsrc2)).2.1.toNat).getMsbD (bb.extractLsb' 0 2).toNat).toNat ∧
      exec (.svRm1p2s1d c x (.other word (normalProfile mn dw .rm1p2s1d
        [⟨.rdest, .crBit, bt⟩, ⟨.rsrc1, .crBit, ba⟩, ⟨.rsrc2, .crBit, bb⟩] false))) s = .next t ∧
      (readCr t.cr (extendCrBit bt (.e3 x.rdest)).2.1.toNat).getMsbD (bt.extractLsb' 0 2).toNat =
        (Config.elementOp word (widthOf c.elwidth) [a, b]).1.getLsbD 0 ∧
      (∀ k < 4, k ≠ (bt.extractLsb' 0 2).toNat →
        (readCr t.cr (extendCrBit bt (.e3 x.rdest)).2.1.toNat).getMsbD k =
          (readCr s.cr (extendCrBit bt (.e3 x.rdest)).2.1.toNat).getMsbD k) ∧
      t.pc = s.pc + 8#64 ∧ Frame nowhere nowhere (fun n => n = (extendCrBit bt (.e3 x.rdest)).2.1.toNat) nowhere s t

/-- An element operation with a base-ISA exception refuses the whole pair: as an exception inside the loop (R126, the spec's
decision D18: log 13), and at scalar identity as the base ISA's own (R5, R117). Whether it has one is `Base`'s, free
(log 8); without one the pair completes. -/
def Obligations.ExceptionInTheLoopIsRefused : Prop :=
  ∀ (mn : String) (dw : Nat) (word : Insn) (ft fa fb : BitVec 5) (c : RmCommon) (x : Extra1p2s1d) (s : State), s.vl = 1 →
    predMask s c.maskMode c.mask 0 = .ok true → c.elwidth = c.elwidthSrc → c.subvl = 0#2 → c.mode = 0#5 →
    ∃ a b g,
      elRead s.gpr (tagged fa x.rsrc1).2 0 (widthOf c.elwidth) = .ok a ∧
      elRead s.gpr (tagged fb x.rsrc2).2 0 (widthOf c.elwidth) = .ok b ∧
      elWrite s.gpr (tagged ft x.rdest).2 0 (widthOf c.elwidth) (Config.elementOp word (widthOf c.elwidth) [a, b]).1
        = .ok g ∧
      exec (.svRm1p2s1d c x (.other word (normalProfile mn dw .rm1p2s1d
        [⟨.rdest, .gpr, ft⟩, ⟨.rsrc1, .gpr, fa⟩, ⟨.rsrc2, .gpr, fb⟩] true))) s =
        if Config.elementRaises word (widthOf c.elwidth) [a, b] then
          .refused (if c = zeroCommon ∧ x = ⟨0#3, 0#3, 0#3⟩ then .baseException else .exceptionInsideLoop)
        else .next { s with gpr := g, pc := s.pc + 8#64 }

/-- A CR-predicated pair with a CR-field or CR-bit destination and two GPR sources is refused where an element operation it
reaches writes the CR field that governs an element operation still to come: of a later element, or of a later
sub-element of its own sub-vector (R171, R272, UNDEFINED in LS009, and R174; log 24). Which field an element operation
writes rests on the spec's decisions on scalar destinations D4 (R119; log 14), on sub-vectors D6 (log 16) and on the step
of a CR operand D21 (R211; log 37). -/
def Obligations.OverwritingAPredicateIsRefused : Prop :=
  ∀ (mn : String) (dw : Nat) (word : Insn) (dk : RegKind) (bt fa fb : BitVec 5) (c : RmCommon) (x : Extra1p2s1d)
    (m : Nat → Bool) (i j i' : Nat) (s : State), dk = .crField ∨ dk = .crBit → c.maskMode = true →
    c.elwidth = c.elwidthSrc → c.mode = 0#5 →
    operandFits (tagged fa x.rsrc1) s.vl (subLen c.subvl) (widthOf c.elwidth) →
    operandFits (tagged fb x.rsrc2) s.vl (subLen c.subvl) (widthOf c.elwidth) →
    (∀ n ≤ i, predMask s true c.mask n = .ok (m n)) → i < s.vl → m i = true → j < subLen c.subvl →
    (extendOperand ⟨.rdest, dk, bt⟩ (.e3 x.rdest)).isVec = true ∨ (∀ n < i, m n = false) →
    (extendOperand ⟨.rdest, dk, bt⟩ (.e3 x.rdest)).num +
      refIndex (extendOperand ⟨.rdest, dk, bt⟩ (.e3 x.rdest)).isVec i (subLen c.subvl) j = 32 + i' →
    32 + i' < 128 → i' < s.vl →
    (i < i' ∧ (extendOperand ⟨.rdest, dk, bt⟩ (.e3 x.rdest)).isVec = true) ∨ (i' = i ∧ j + 1 < subLen c.subvl) →
    exec (.svRm1p2s1d c x (.other word (normalProfile mn dw .rm1p2s1d
      [⟨.rdest, dk, bt⟩, ⟨.rsrc1, .gpr, fa⟩, ⟨.rsrc2, .gpr, fb⟩] false))) s = .refused .crPredicateOverwritten

/-! ## Predicates and widths -/

/-- The eight integer predicates of R162, for every element the registers have a bit for. That the registers are read whole
and that row 001 compares the whole value are the spec's decisions D32 and D24 (R163, R164). -/
def Obligations.IntegerPredicatesAreTheTable : Prop :=
  ∀ (s : State) (i : Nat), i < 64 →
    predMask s false 0#3 i = .ok true ∧
    predMask s false 1#3 i = .ok (decide (i = (readReg s.gpr 3).toNat)) ∧
    predMask s false 2#3 i = .ok (decide ((readReg s.gpr 3).toNat &&& (1 <<< i) ≠ 0)) ∧
    predMask s false 3#3 i = .ok (decide ((readReg s.gpr 3).toNat &&& (1 <<< i) = 0)) ∧
    predMask s false 4#3 i = .ok (decide ((readReg s.gpr 10).toNat &&& (1 <<< i) ≠ 0)) ∧
    predMask s false 5#3 i = .ok (decide ((readReg s.gpr 10).toNat &&& (1 <<< i) = 0)) ∧
    predMask s false 6#3 i = .ok (decide ((readReg s.gpr 30).toNat &&& (1 <<< i) ≠ 0)) ∧
    predMask s false 7#3 i = .ok (decide ((readReg s.gpr 30).toNat &&& (1 <<< i) = 0))

/-- The eight CR predicates of R166, for every element that has a CR field: LT, GT, EQ and FU are bits 3, 2, 1 and 0 of CR
field `32 + i` (R167; the order of the bits is general knowledge, G1: log 32). -/
def Obligations.CrPredicatesAreTheTable : Prop :=
  ∀ (s : State) (i : Nat), i < 96 →
    predMask s true 0#3 i = .ok ((readCr s.cr (32 + i)).getLsbD 3) ∧
    predMask s true 1#3 i = .ok (!(readCr s.cr (32 + i)).getLsbD 3) ∧
    predMask s true 2#3 i = .ok ((readCr s.cr (32 + i)).getLsbD 2) ∧
    predMask s true 3#3 i = .ok (!(readCr s.cr (32 + i)).getLsbD 2) ∧
    predMask s true 4#3 i = .ok ((readCr s.cr (32 + i)).getLsbD 1) ∧
    predMask s true 5#3 i = .ok (!(readCr s.cr (32 + i)).getLsbD 1) ∧
    predMask s true 6#3 i = .ok ((readCr s.cr (32 + i)).getLsbD 0) ∧
    predMask s true 7#3 i = .ok (!(readCr s.cr (32 + i)).getLsbD 0)

/-- Predicates beyond their registers: ALWAYS and `1 << R3` are defined for every element, the others are refused beyond
bit 63; every CR predicate is refused beyond CR127 (R164, R165, R167; D13, D24). -/
def Obligations.PredicatesBeyondTheirRegisters : Prop :=
  ∀ (s : State) (m : BitVec 3) (i : Nat),
    predMask s false 0#3 i = .ok true ∧
    predMask s false 1#3 i = .ok (decide (i = (readReg s.gpr 3).toNat)) ∧
    (2 ≤ m.toNat → 64 ≤ i → predMask s false m i = .error .intPredicateBeyond63) ∧
    (96 ≤ i → predMask s true m i = .error .elementPastEnd)

/-- The element widths of ELWIDTH and the sub-vector lengths of SUBVL (R140, R142, R150; DEFAULT as 64 bits is the spec's
decision D23: log 35). -/
def Obligations.WidthsAndSubVectorLengths : Prop :=
  widthOf 0#2 = 64 ∧ widthOf 1#2 = 32 ∧ widthOf 2#2 = 16 ∧ widthOf 3#2 = 8 ∧
  subLen 0#2 = 1 ∧ subLen 1#2 = 2 ∧ subLen 2#2 = 3 ∧ subLen 3#2 = 4

/-! ## The whole machine -/

/-- Every step keeps the invariant: `pc` a multiple of 4, `VL` within `MAXVL`, which is at least 1, memory and the stored
addresses in canonical form and admitted, whatever the reader's `Base` does (R7, R31, R32, R58). -/
def Obligations.StepKeepsTheInvariant : Prop := ∀ s t : State, s.Inv → step s = .next t → t.Inv

/-- The state after reset meets the invariant; the reset values are the model's choices (log 1 to 6). -/
def Obligations.ResetMeetsTheInvariant : Prop := State.reset.Inv

/-- No step changes `VL`, `MSR.LE` or what the launch supplied (R31, R33, R51; D3, D14). -/
def Obligations.StepKeepsVlByteOrderAndLaunch : Prop :=
  ∀ s t : State, step s = .next t → t.vl = s.vl ∧ t.le = s.le ∧ t.launch = s.launch

/-- No unprefixed instruction, of the test subset or of the reader's `Base`, reaches `r32`-`r127`, `fp32`-`fp127` or
`CR8`-`CR127` (R21, R113). -/
def Obligations.UnprefixedReachesBaseRegistersOnly : Prop :=
  ∀ s t : State,
    ((∃ i, isPair i = false ∧ exec i s = .next t) ∨
      (∃ w prof, execBaseWord w prof s = .next t) ∨ (∃ p w row, execBasePrefixed p w row s = .next t)) →
    (∀ n, 32 ≤ n → readReg t.gpr n = readReg s.gpr n) ∧ (∀ n, 32 ≤ n → readReg t.fpr n = readReg s.fpr n) ∧
    ∀ n, 8 ≤ n → readCr t.cr n = readCr s.cr n

/-- A pair touches memory only at scalar identity: unless `RM` is all zeros and `VL` is 1, every pair that runs leaves every
byte of memory as it was (R65, R116, R117; D7). -/
def Obligations.PairsTouchMemoryOnlyAtIdentity : Prop :=
  ∀ (i : Instr) (s t : State), isPair i = true → exec i s = .next t → ¬ (hasZeroPrefix i = true ∧ s.vl = 1) →
    t.mem = s.mem ∧ t.stored = s.stored
end

