-- ==== Sys2Proof/Laws/State.lean ====
section
/-! SUPPORT. One lemma per field per update of the state, and of the operations that are one update. -/

namespace Sys2Proof.Machine

section
variable (s : State)

@[simp] theorem State.setPc_gpr (a : Word) : (s.setPc a).gpr = s.gpr := rfl
@[simp] theorem State.setPc_fpr (a : Word) : (s.setPc a).fpr = s.fpr := rfl
@[simp] theorem State.setPc_cr (a : Word) : (s.setPc a).cr = s.cr := rfl
@[simp] theorem State.setPc_vl (a : Word) : (s.setPc a).vl = s.vl := rfl
@[simp] theorem State.setPc_pc (a : Word) : (s.setPc a).pc = a := rfl
@[simp] theorem State.setPc_le (a : Word) : (s.setPc a).le = s.le := rfl
@[simp] theorem State.setPc_mem (a : Word) : (s.setPc a).mem = s.mem := rfl
@[simp] theorem State.setPc_stored (a : Word) : (s.setPc a).stored = s.stored := rfl
@[simp] theorem State.setPc_launch (a : Word) : (s.setPc a).launch = s.launch := rfl

@[simp] theorem State.setGpr_gpr (f : RegFile) : (s.setGpr f).gpr = f := rfl
@[simp] theorem State.setGpr_fpr (f : RegFile) : (s.setGpr f).fpr = s.fpr := rfl
@[simp] theorem State.setGpr_cr (f : RegFile) : (s.setGpr f).cr = s.cr := rfl
@[simp] theorem State.setGpr_vl (f : RegFile) : (s.setGpr f).vl = s.vl := rfl
@[simp] theorem State.setGpr_pc (f : RegFile) : (s.setGpr f).pc = s.pc := rfl
@[simp] theorem State.setGpr_le (f : RegFile) : (s.setGpr f).le = s.le := rfl
@[simp] theorem State.setGpr_mem (f : RegFile) : (s.setGpr f).mem = s.mem := rfl
@[simp] theorem State.setGpr_stored (f : RegFile) : (s.setGpr f).stored = s.stored := rfl
@[simp] theorem State.setGpr_launch (f : RegFile) : (s.setGpr f).launch = s.launch := rfl

@[simp] theorem State.setFpr_gpr (f : RegFile) : (s.setFpr f).gpr = s.gpr := rfl
@[simp] theorem State.setFpr_fpr (f : RegFile) : (s.setFpr f).fpr = f := rfl
@[simp] theorem State.setFpr_cr (f : RegFile) : (s.setFpr f).cr = s.cr := rfl
@[simp] theorem State.setFpr_vl (f : RegFile) : (s.setFpr f).vl = s.vl := rfl
@[simp] theorem State.setFpr_pc (f : RegFile) : (s.setFpr f).pc = s.pc := rfl
@[simp] theorem State.setFpr_le (f : RegFile) : (s.setFpr f).le = s.le := rfl
@[simp] theorem State.setFpr_mem (f : RegFile) : (s.setFpr f).mem = s.mem := rfl
@[simp] theorem State.setFpr_stored (f : RegFile) : (s.setFpr f).stored = s.stored := rfl
@[simp] theorem State.setFpr_launch (f : RegFile) : (s.setFpr f).launch = s.launch := rfl

@[simp] theorem State.setCr_gpr (f : CrFile) : (s.setCr f).gpr = s.gpr := rfl
@[simp] theorem State.setCr_fpr (f : CrFile) : (s.setCr f).fpr = s.fpr := rfl
@[simp] theorem State.setCr_cr (f : CrFile) : (s.setCr f).cr = f := rfl
@[simp] theorem State.setCr_vl (f : CrFile) : (s.setCr f).vl = s.vl := rfl
@[simp] theorem State.setCr_pc (f : CrFile) : (s.setCr f).pc = s.pc := rfl
@[simp] theorem State.setCr_le (f : CrFile) : (s.setCr f).le = s.le := rfl
@[simp] theorem State.setCr_mem (f : CrFile) : (s.setCr f).mem = s.mem := rfl
@[simp] theorem State.setCr_stored (f : CrFile) : (s.setCr f).stored = s.stored := rfl
@[simp] theorem State.setCr_launch (f : CrFile) : (s.setCr f).launch = s.launch := rfl

@[simp] theorem State.setMem_gpr (m : Memory) : (s.setMem m).gpr = s.gpr := rfl
@[simp] theorem State.setMem_fpr (m : Memory) : (s.setMem m).fpr = s.fpr := rfl
@[simp] theorem State.setMem_cr (m : Memory) : (s.setMem m).cr = s.cr := rfl
@[simp] theorem State.setMem_vl (m : Memory) : (s.setMem m).vl = s.vl := rfl
@[simp] theorem State.setMem_pc (m : Memory) : (s.setMem m).pc = s.pc := rfl
@[simp] theorem State.setMem_le (m : Memory) : (s.setMem m).le = s.le := rfl
@[simp] theorem State.setMem_mem (m : Memory) : (s.setMem m).mem = m := rfl
@[simp] theorem State.setMem_stored (m : Memory) : (s.setMem m).stored = s.stored := rfl
@[simp] theorem State.setMem_launch (m : Memory) : (s.setMem m).launch = s.launch := rfl

@[simp] theorem State.setStored_gpr (l : List Nat) : (s.setStored l).gpr = s.gpr := rfl
@[simp] theorem State.setStored_fpr (l : List Nat) : (s.setStored l).fpr = s.fpr := rfl
@[simp] theorem State.setStored_cr (l : List Nat) : (s.setStored l).cr = s.cr := rfl
@[simp] theorem State.setStored_vl (l : List Nat) : (s.setStored l).vl = s.vl := rfl
@[simp] theorem State.setStored_pc (l : List Nat) : (s.setStored l).pc = s.pc := rfl
@[simp] theorem State.setStored_le (l : List Nat) : (s.setStored l).le = s.le := rfl
@[simp] theorem State.setStored_mem (l : List Nat) : (s.setStored l).mem = s.mem := rfl
@[simp] theorem State.setStored_stored (l : List Nat) : (s.setStored l).stored = l := rfl
@[simp] theorem State.setStored_launch (l : List Nat) : (s.setStored l).launch = s.launch := rfl

@[simp] theorem State.setLaunch_gpr (l : Launch) : (s.setLaunch l).gpr = s.gpr := rfl
@[simp] theorem State.setLaunch_fpr (l : Launch) : (s.setLaunch l).fpr = s.fpr := rfl
@[simp] theorem State.setLaunch_cr (l : Launch) : (s.setLaunch l).cr = s.cr := rfl
@[simp] theorem State.setLaunch_vl (l : Launch) : (s.setLaunch l).vl = s.vl := rfl
@[simp] theorem State.setLaunch_pc (l : Launch) : (s.setLaunch l).pc = s.pc := rfl
@[simp] theorem State.setLaunch_le (l : Launch) : (s.setLaunch l).le = s.le := rfl
@[simp] theorem State.setLaunch_mem (l : Launch) : (s.setLaunch l).mem = s.mem := rfl
@[simp] theorem State.setLaunch_stored (l : Launch) : (s.setLaunch l).stored = s.stored := rfl
@[simp] theorem State.setLaunch_launch (l : Launch) : (s.setLaunch l).launch = l := rfl

@[simp] theorem advance_gpr (n : Nat) : (advance s n).gpr = s.gpr := rfl
@[simp] theorem advance_fpr (n : Nat) : (advance s n).fpr = s.fpr := rfl
@[simp] theorem advance_cr (n : Nat) : (advance s n).cr = s.cr := rfl
@[simp] theorem advance_vl (n : Nat) : (advance s n).vl = s.vl := rfl
@[simp] theorem advance_pc (n : Nat) : (advance s n).pc = s.pc + BitVec.ofNat 64 n := rfl
@[simp] theorem advance_le (n : Nat) : (advance s n).le = s.le := rfl
@[simp] theorem advance_mem (n : Nat) : (advance s n).mem = s.mem := rfl
@[simp] theorem advance_stored (n : Nat) : (advance s n).stored = s.stored := rfl
@[simp] theorem advance_launch (n : Nat) : (advance s n).launch = s.launch := rfl

@[simp] theorem storeByte_gpr (p : Word × Byte) : (storeByte s p).gpr = s.gpr := rfl
@[simp] theorem storeByte_fpr (p : Word × Byte) : (storeByte s p).fpr = s.fpr := rfl
@[simp] theorem storeByte_cr (p : Word × Byte) : (storeByte s p).cr = s.cr := rfl
@[simp] theorem storeByte_vl (p : Word × Byte) : (storeByte s p).vl = s.vl := rfl
@[simp] theorem storeByte_pc (p : Word × Byte) : (storeByte s p).pc = s.pc := rfl
@[simp] theorem storeByte_le (p : Word × Byte) : (storeByte s p).le = s.le := rfl
@[simp] theorem storeByte_mem (p : Word × Byte) : (storeByte s p).mem = s.mem.write p.1.toNat p.2 := rfl
@[simp] theorem storeByte_stored (p : Word × Byte) : (storeByte s p).stored = insertAddr p.1.toNat s.stored := rfl
@[simp] theorem storeByte_launch (p : Word × Byte) : (storeByte s p).launch = s.launch := rfl

end

end Sys2Proof.Machine
end

