-- ==== Sys2Proof/Laws/Registers.lean ====
section
/-! SUPPORT. What the register-file operations do, and that reading or writing elements touches nothing but the files. -/

namespace Sys2Proof.Machine

theorem readReg_writeReg (f : RegFile) (n : Nat) (v : Word) (k : Nat) :
    readReg (writeReg f n v) k = if k = n ∧ n < 128 then v else readReg f k := by
  unfold readReg writeReg
  rw [Vector.getElem?_setIfInBounds]
  by_cases hk : n = k
  · subst hk
    by_cases hn : n < 128 <;> simp [hn]
  · have hk' : k ≠ n := fun h => hk h.symm
    simp [hk, hk']

theorem readCr_writeCr (f : CrFile) (n : Nat) (v : BitVec 4) (k : Nat) :
    readCr (writeCr f n v) k = if k = n ∧ n < 128 then v else readCr f k := by
  unfold readCr writeCr
  rw [Vector.getElem?_setIfInBounds]
  by_cases hk : n = k
  · subst hk
    by_cases hn : n < 128 <;> simp [hn]
  · have hk' : k ≠ n := fun h => hk h.symm
    simp [hk, hk']

/-- Two register files with the same 128 registers are the same. -/
theorem regFile_ext {f g : RegFile} (h : ∀ n < 128, readReg f n = readReg g n) : f = g := by
  apply Vector.ext
  intro i hi
  have := h i hi
  unfold readReg at this
  simpa [hi] using this

theorem elRead_ok {f : RegFile} {n e w : Nat} {v : Word} (h : elRead f n e w = .ok v) :
    elInFile n e w = true ∧ v = truncW w (readReg f (elReg n e w) >>> elBit e w) := by
  unfold elRead at h
  split at h
  · next hin => exact ⟨hin, by simpa using h.symm⟩
  · cases h

theorem elWrite_ok {f g : RegFile} {n e w : Nat} {v : Word} (h : elWrite f n e w v = .ok g) :
    elInFile n e w = true ∧
      g = writeReg f (elReg n e w) (insertBits (readReg f (elReg n e w)) (elBit e w) w v) := by
  unfold elWrite at h
  split at h
  · next hin => exact ⟨hin, by simpa using h.symm⟩
  · cases h

/-- Two states that differ in the register files alone. -/
structure RegsOnly (s t : State) : Prop where
  vl : t.vl = s.vl
  pc : t.pc = s.pc
  le : t.le = s.le
  mem : t.mem = s.mem
  stored : t.stored = s.stored
  launch : t.launch = s.launch

theorem RegsOnly.refl (s : State) : RegsOnly s s := ⟨rfl, rfl, rfl, rfl, rfl, rfl⟩

theorem RegsOnly.trans {s t u : State} (h : RegsOnly s t) (k : RegsOnly t u) : RegsOnly s u :=
  ⟨k.vl.trans h.vl, k.pc.trans h.pc, k.le.trans h.le, k.mem.trans h.mem, k.stored.trans h.stored,
    k.launch.trans h.launch⟩

/-- All that writing a CR field can do. -/
theorem writeCrGuarded_ok {clash : Nat → Bool} {s t : State} {n : Nat} {v : BitVec 4}
    (h : writeCrGuarded clash s n v = .ok t) : n < 128 ∧ clash n = false ∧ t = s.setCr (writeCr s.cr n v) := by
  unfold writeCrGuarded at h
  split at h
  · next hn =>
    split at h
    · cases h
    · next hc => exact ⟨hn, by simpa using hc, by simpa using h.symm⟩
  · cases h

/-- All that writing an element can do, by the file of its operand. -/
theorem writeEl_ok {clash : Nat → Bool} {s t : State} {o : ExtOperand} {e w : Nat} {v : Word}
    (h : writeEl clash s o e w v = .ok t) :
    (o.kind = .gpr ∧ ∃ f, elWrite s.gpr o.num e w v = .ok f ∧ t = s.setGpr f) ∨
    (o.kind = .fpr ∧ ∃ f, elWrite s.fpr o.num e w v = .ok f ∧ t = s.setFpr f) ∨
    (o.kind = .crField ∧ writeCrGuarded clash s (o.num + e) (v.setWidth 4) = .ok t) ∨
    (o.kind = .crBit ∧
      writeCrGuarded clash s (o.num + e) (setCrFieldBit (readCr s.cr (o.num + e)) o.bit (v.getLsbD 0)) = .ok t) := by
  unfold writeEl at h
  split at h
  · next hk =>
    split at h
    · next f hf => exact .inl ⟨hk, f, hf, by simpa using h.symm⟩
    · cases h
  · next hk =>
    split at h
    · next f hf => exact .inr (.inl ⟨hk, f, hf, by simpa using h.symm⟩)
    · cases h
  · next hk => exact .inr (.inr (.inl ⟨hk, h⟩))
  · next hk => exact .inr (.inr (.inr ⟨hk, h⟩))

theorem writeEl_regsOnly {clash : Nat → Bool} {s t : State} {o : ExtOperand} {e w : Nat} {v : Word}
    (h : writeEl clash s o e w v = .ok t) : RegsOnly s t := by
  rcases writeEl_ok h with ⟨-, f, -, rfl⟩ | ⟨-, f, -, rfl⟩ | ⟨-, hc⟩ | ⟨-, hc⟩
  · exact ⟨rfl, rfl, rfl, rfl, rfl, rfl⟩
  · exact ⟨rfl, rfl, rfl, rfl, rfl, rfl⟩
  · obtain ⟨-, -, rfl⟩ := writeCrGuarded_ok hc; exact ⟨rfl, rfl, rfl, rfl, rfl, rfl⟩
  · obtain ⟨-, -, rfl⟩ := writeCrGuarded_ok hc; exact ⟨rfl, rfl, rfl, rfl, rfl, rfl⟩

theorem writeEls_regsOnly {clash : Nat → Bool} {s t : State} {i sv j w : Nat} {os : List ExtOperand} {vs : List Word}
    (h : writeEls clash s i sv j w os vs = .ok t) : RegsOnly s t := by
  induction os generalizing s vs with
  | nil =>
    simp only [writeEls, Except.ok.injEq] at h
    subst h; exact .refl s
  | cons o os ih =>
    cases vs with
    | nil =>
      simp only [writeEls, Except.ok.injEq] at h
      subst h; exact .refl s
    | cons v vs =>
      simp only [writeEls] at h
      split at h
      · cases h
      · next u hu => exact (writeEl_regsOnly hu).trans (ih h)

end Sys2Proof.Machine
end

