-- ==== Sys2Proof/Laws/Loops.lean ====
section
/-! SUPPORT. What the element loops can do: one inversion lemma per operation, and that a loop touches register files only. -/

namespace Sys2Proof.Machine

/-- All that one element operation can do. -/
theorem elementStep_ok {clash : Nat → Bool} {sfx : Suffix} {srcs dsts : List ExtOperand} {w sv i d j : Nat} {s t : State}
    (h : elementStep clash sfx srcs dsts w sv i d j s = .ok t) :
    ∃ vs, readEls s i sv j w srcs = .ok vs ∧ elementRaises sfx w vs = false ∧
      writeEls clash s d sv j w dsts [(elementOp sfx w vs).1, (elementOp sfx w vs).2] = .ok t := by
  unfold elementStep at h
  split at h
  · cases h
  · next vs hvs =>
    split at h
    · cases h
    · next hr => exact ⟨vs, hvs, by simpa using hr, h⟩

theorem elementStep_regsOnly {clash : Nat → Bool} {sfx : Suffix} {srcs dsts : List ExtOperand} {w sv i d j : Nat}
    {s t : State} (h : elementStep clash sfx srcs dsts w sv i d j s = .ok t) : RegsOnly s t := by
  obtain ⟨vs, -, -, hw⟩ := elementStep_ok h
  exact writeEls_regsOnly hw

/-- A sub-vector is its first element operation and the rest. -/
theorem subLoop_succ_ok {clash : Nat → Nat → Bool} {c : LoopCtx} {i d k j : Nat} {s t : State}
    (h : subLoop clash c i d (k + 1) j s = .ok t) :
    ∃ u, elementStep (clash j) c.sfx c.srcs c.dsts c.w c.sv i d j s = .ok u ∧ subLoop clash c i d k (j + 1) u = .ok t := by
  simp only [subLoop] at h
  split at h
  · cases h
  · next u hu => exact ⟨u, hu, h⟩

theorem subLoop_regsOnly {clash : Nat → Nat → Bool} {c : LoopCtx} {i d k j : Nat} {s t : State}
    (h : subLoop clash c i d k j s = .ok t) : RegsOnly s t := by
  induction k generalizing j s with
  | zero =>
    simp only [subLoop, Except.ok.injEq] at h
    subst h; exact .refl s
  | succ k ih =>
    obtain ⟨u, hu, ht⟩ := subLoop_succ_ok h
    exact (elementStep_regsOnly hu).trans (ih ht)

/-- All that one iteration of `Loop1P` can do: a disabled element is passed over, an enabled one runs its sub-vector and
then the loop ends or goes on. -/
theorem loop1PFrom_succ_ok {s0 : State} {c : LoopCtx} {k i : Nat} {s t : State}
    (h : loop1PFrom s0 c (k + 1) i s = .ok t) :
    (predMask s0 c.maskMode c.mask i = .ok false ∧ loop1PFrom s0 c k (i + 1) s = .ok t) ∨
    (predMask s0 c.maskMode c.mask i = .ok true ∧ ∃ u,
      subLoop (fun j => crClash c.maskMode s0.vl (pending1P (scalarDest c.dsts) c.sv i j)) c i i c.sv 0 s = .ok u ∧
      ((scalarDest c.dsts = true ∧ t = u) ∨ (scalarDest c.dsts = false ∧ loop1PFrom s0 c k (i + 1) u = .ok t))) := by
  simp only [loop1PFrom] at h
  split at h
  · cases h
  · next hm => exact .inl ⟨hm, h⟩
  · next hm =>
    split at h
    · cases h
    · next u hu =>
      refine .inr ⟨hm, u, hu, ?_⟩
      split at h
      · next hd => exact .inl ⟨hd, by simpa using h.symm⟩
      · next hd => exact .inr ⟨by simpa using hd, h⟩

theorem loop1PFrom_regsOnly {s0 : State} {c : LoopCtx} {k i : Nat} {s t : State}
    (h : loop1PFrom s0 c k i s = .ok t) : RegsOnly s t := by
  induction k generalizing i s with
  | zero =>
    simp only [loop1PFrom, Except.ok.injEq] at h
    subst h; exact .refl s
  | succ k ih =>
    rcases loop1PFrom_succ_ok h with ⟨-, h1⟩ | ⟨-, u, hu, ⟨-, rfl⟩ | ⟨-, h1⟩⟩
    · exact ih h1
    · exact subLoop_regsOnly hu
    · exact (subLoop_regsOnly hu).trans (ih h1)

theorem loop1P_regsOnly {c : LoopCtx} {s t : State} (h : loop1P c s = .ok t) : RegsOnly s t :=
  loop1PFrom_regsOnly h

/-- All that one operation of `Loop2P` can do: the loop ends, or one sub-vector runs and then it ends or goes on. -/
theorem loop2PFrom_succ_ok {s0 : State} {c : LoopCtx} {src dst : ExtOperand} {k i d : Nat} {s t : State}
    (h : loop2PFrom s0 c src dst (k + 1) i d s = .ok t) :
    t = s ∨ ∃ i1 d1 u,
      nextStep src.isVec (predMask s0 c.maskMode c.maskSrc) s0.vl i = .ok i1 ∧
      nextStep dst.isVec (predMask s0 c.maskMode c.mask) s0.vl d = .ok d1 ∧ i1 < s0.vl ∧ d1 < s0.vl ∧
      subLoop (fun j => crClash c.maskMode s0.vl (pending2P src.isVec dst.isVec s0.vl c.sv i1 d1 j)) c i1 d1 c.sv 0 s
        = .ok u ∧
      ((dst.isVec = false ∧ t = u) ∨
        (dst.isVec = true ∧
          loop2PFrom s0 c src dst k (if src.isVec then i1 + 1 else i1) (d1 + 1) u = .ok t)) := by
  simp only [loop2PFrom] at h
  split at h
  · cases h
  · next i1 hi1 =>
    split at h
    · cases h
    · next d1 hd1 =>
      split at h
      · left; simpa using h.symm
      · next hlt =>
        split at h
        · cases h
        · left; simpa using h.symm
        · split at h
          · cases h
          · left; simpa using h.symm
          · split at h
            · cases h
            · next u hu =>
              refine .inr ⟨i1, d1, u, hi1, hd1, by omega, by omega, hu, ?_⟩
              split at h
              · next hv => exact .inr ⟨hv, h⟩
              · next hv => exact .inl ⟨by simpa using hv, by simpa using h.symm⟩

theorem loop2PFrom_regsOnly {s0 : State} {c : LoopCtx} {src dst : ExtOperand} {k i d : Nat} {s t : State}
    (h : loop2PFrom s0 c src dst k i d s = .ok t) : RegsOnly s t := by
  induction k generalizing i d s with
  | zero =>
    simp only [loop2PFrom, Except.ok.injEq] at h
    subst h; exact .refl s
  | succ k ih =>
    rcases loop2PFrom_succ_ok h with rfl | ⟨i1, d1, u, -, -, -, -, hu, ⟨-, rfl⟩ | ⟨-, h1⟩⟩
    · exact .refl _
    · exact subLoop_regsOnly hu
    · exact (subLoop_regsOnly hu).trans (ih h1)

theorem loop2P_regsOnly {c : LoopCtx} {src dst : ExtOperand} {s t : State} (h : loop2P c src dst s = .ok t) :
    RegsOnly s t := loop2PFrom_regsOnly h

end Sys2Proof.Machine
end

