-- ==== Sys2Proof/Laws/Memory.lean ====
section
/-! SUPPORT. What the memory operations do: a byte reads as it was last written, every operation keeps the canonical form,
and one lemma per access that says all it can do. -/

namespace Sys2Proof.Machine

theorem Memory.wfFrom_mono {lo hi : Nat} (h : lo ≤ hi) {m : Memory} (hm : Memory.wfFrom hi m = true) :
    Memory.wfFrom lo m = true := by
  cases m with
  | nil => rfl
  | cons c rest =>
    obtain ⟨a, v⟩ := c
    simp only [Memory.wfFrom, Bool.and_eq_true, decide_eq_true_eq] at hm ⊢
    exact ⟨⟨⟨by omega, hm.1.1.2⟩, hm.1.2⟩, hm.2⟩

/-- Below the addresses of a canonical memory nothing is listed. -/
theorem Memory.read_below {lo : Nat} {m : Memory} (hm : Memory.wfFrom lo m = true) {a : Nat} (ha : a < lo) :
    m.read a = Memory.unlisted := by
  induction m generalizing lo with
  | nil => rfl
  | cons c rest ih =>
    obtain ⟨b, v⟩ := c
    simp only [Memory.wfFrom, Bool.and_eq_true, decide_eq_true_eq] at hm
    have hb : b ≠ a := by omega
    simp only [Memory.read, if_neg hb]
    exact ih hm.2 (by omega)

/-- Writing keeps the canonical form. -/
theorem Memory.write_wfFrom {lo : Nat} {m : Memory} (hm : Memory.wfFrom lo m = true) {a : Nat} (hlo : lo ≤ a)
    (ha : a < 2 ^ 64) (v : Byte) : Memory.wfFrom lo (m.write a v) = true := by
  induction m generalizing lo with
  | nil =>
    by_cases hv : v = Memory.unlisted
    · simp [Memory.write, hv, Memory.wfFrom]
    · simp only [Memory.write, if_neg hv, Memory.wfFrom, Bool.and_eq_true, decide_eq_true_eq]
      exact ⟨⟨⟨hlo, ha⟩, hv⟩, trivial⟩
  | cons c rest ih =>
    obtain ⟨b, x⟩ := c
    simp only [Memory.wfFrom, Bool.and_eq_true, decide_eq_true_eq] at hm
    obtain ⟨⟨⟨h1, h2⟩, h3⟩, h4⟩ := hm
    rcases Nat.lt_trichotomy a b with hab | hab | hab
    · by_cases hv : v = Memory.unlisted
      · simp only [Memory.write, if_pos hab, if_pos hv, Memory.wfFrom, Bool.and_eq_true, decide_eq_true_eq]
        exact ⟨⟨⟨h1, h2⟩, h3⟩, h4⟩
      · simp only [Memory.write, if_pos hab, if_neg hv, Memory.wfFrom, Bool.and_eq_true, decide_eq_true_eq]
        exact ⟨⟨⟨hlo, ha⟩, hv⟩, ⟨⟨by omega, h2⟩, h3⟩, h4⟩
    · subst hab
      by_cases hv : v = Memory.unlisted
      · simp only [Memory.write, Nat.lt_irrefl, if_false, if_pos hv, if_true]
        exact Memory.wfFrom_mono (by omega) h4
      · simp only [Memory.write, Nat.lt_irrefl, if_false, if_neg hv, if_true, Memory.wfFrom, Bool.and_eq_true,
          decide_eq_true_eq]
        exact ⟨⟨⟨hlo, ha⟩, hv⟩, h4⟩
    · have n1 : ¬ a < b := by omega
      have n2 : a ≠ b := by omega
      simp only [Memory.write, if_neg n1, if_neg n2, Memory.wfFrom, Bool.and_eq_true, decide_eq_true_eq]
      exact ⟨⟨⟨h1, h2⟩, h3⟩, ih h4 hab⟩

theorem Memory.write_wf {m : Memory} (hm : m.wf = true) {a : Nat} (ha : a < 2 ^ 64) (v : Byte) :
    (m.write a v).wf = true := Memory.write_wfFrom hm (Nat.zero_le a) ha v

/-- A byte of a canonical memory reads as it was written, every other byte as before. -/
theorem Memory.read_writeFrom {lo : Nat} {m : Memory} (hm : Memory.wfFrom lo m = true) (a b : Nat) (v : Byte) :
    (m.write a v).read b = if b = a then v else m.read b := by
  induction m generalizing lo with
  | nil =>
    by_cases hv : v = Memory.unlisted
    · simp [Memory.write, Memory.read, hv]
    · simp only [Memory.write, if_neg hv, Memory.read, @eq_comm Nat a b]
  | cons c rest ih =>
    obtain ⟨k, x⟩ := c
    simp only [Memory.wfFrom, Bool.and_eq_true, decide_eq_true_eq] at hm
    obtain ⟨⟨⟨h1, h2⟩, h3⟩, h4⟩ := hm
    have below : ∀ y, y ≤ k → Memory.read rest y = Memory.unlisted := fun y hy => Memory.read_below h4 (by omega)
    rcases Nat.lt_trichotomy a k with hak | hak | hak
    · have hr := below a (by omega)
      by_cases hv : v = Memory.unlisted
      · simp only [Memory.write, if_pos hak, if_pos hv, Memory.read]
        by_cases hb : b = a
        · subst hb
          rw [if_neg (by omega), if_pos rfl, hr, hv]
        · simp [hb]
      · simp only [Memory.write, if_pos hak, if_neg hv, Memory.read, @eq_comm Nat a b]
    · subst hak
      have hr := below a (Nat.le_refl a)
      by_cases hv : v = Memory.unlisted
      · simp only [Memory.write, Nat.lt_irrefl, if_false, if_pos hv, if_true, Memory.read]
        by_cases hb : b = a
        · subst hb; rw [hr, if_pos rfl, hv]
        · rw [if_neg hb, if_neg (fun h => hb h.symm)]
      · simp only [Memory.write, Nat.lt_irrefl, if_false, if_neg hv, if_true, Memory.read, @eq_comm Nat a b]
        by_cases hb : b = a
        · rw [if_pos hb, if_pos hb]
        · rw [if_neg hb, if_neg hb, if_neg hb]
    · have n1 : ¬ a < k := by omega
      have n2 : a ≠ k := by omega
      simp only [Memory.write, if_neg n1, if_neg n2, Memory.read]
      by_cases hb : k = b
      · subst hb; rw [if_pos rfl, if_pos rfl, if_neg (fun h => n2 h.symm)]
      · simp only [if_neg hb]; exact ih h4

theorem Memory.read_write {m : Memory} (hm : m.wf = true) (a b : Nat) (v : Byte) :
    (m.write a v).read b = if b = a then v else m.read b := Memory.read_writeFrom hm a b v

/-- The list of stored addresses keeps its canonical form. -/
theorem insertAddr_wfFrom {lo : Nat} {l : List Nat} (hl : addrsWfFrom lo l = true) {a : Nat} (hlo : lo ≤ a)
    (ha : a < 2 ^ 64) : addrsWfFrom lo (insertAddr a l) = true := by
  induction l generalizing lo with
  | nil =>
    simp only [insertAddr, addrsWfFrom, Bool.and_eq_true, decide_eq_true_eq]
    exact ⟨⟨hlo, ha⟩, trivial⟩
  | cons b rest ih =>
    simp only [addrsWfFrom, Bool.and_eq_true, decide_eq_true_eq] at hl
    obtain ⟨⟨h1, h2⟩, h3⟩ := hl
    rcases Nat.lt_trichotomy a b with hab | hab | hab
    · simp only [insertAddr, if_pos hab, addrsWfFrom, Bool.and_eq_true, decide_eq_true_eq]
      exact ⟨⟨hlo, ha⟩, ⟨by omega, h2⟩, h3⟩
    · subst hab
      simp only [insertAddr, Nat.lt_irrefl, if_false, if_true, addrsWfFrom, Bool.and_eq_true, decide_eq_true_eq]
      exact ⟨⟨h1, h2⟩, h3⟩
    · have n1 : ¬ a < b := by omega
      have n2 : a ≠ b := by omega
      simp only [insertAddr, if_neg n1, if_neg n2, addrsWfFrom, Bool.and_eq_true, decide_eq_true_eq]
      exact ⟨⟨h1, h2⟩, ih h3 hab⟩

@[simp] theorem mem_insertAddr {a b : Nat} {l : List Nat} : b ∈ insertAddr a l ↔ b = a ∨ b ∈ l := by
  induction l with
  | nil => simp [insertAddr]
  | cons c rest ih =>
    rcases Nat.lt_trichotomy a c with h | h | h
    · simp [insertAddr, h]
    · subst h; simp [insertAddr]
    · have n1 : ¬ a < c := by omega
      have n2 : a ≠ c := by omega
      simp only [insertAddr, if_neg n1, if_neg n2, List.mem_cons, ih]
      tauto

/-! ## Stores -/

@[simp] theorem storeBytes_nil (s : State) : storeBytes s [] = s := rfl

@[simp] theorem storeBytes_cons (s : State) (p : Word × Byte) (l : List (Word × Byte)) :
    storeBytes s (p :: l) = storeBytes (storeByte s p) l := rfl

/-- Storing bytes touches memory and the list of stored addresses, and nothing else. -/
theorem storeBytes_rest (s : State) (l : List (Word × Byte)) :
    (storeBytes s l).gpr = s.gpr ∧ (storeBytes s l).fpr = s.fpr ∧ (storeBytes s l).cr = s.cr ∧
      (storeBytes s l).vl = s.vl ∧ (storeBytes s l).pc = s.pc ∧ (storeBytes s l).le = s.le ∧
      (storeBytes s l).launch = s.launch := by
  induction l generalizing s with
  | nil => simp
  | cons p l ih => simpa using ih (storeByte s p)

@[simp] theorem storeBytes_launch (s : State) (l : List (Word × Byte)) : (storeBytes s l).launch = s.launch :=
  (storeBytes_rest s l).2.2.2.2.2.2

/-- Storing bytes keeps memory canonical. -/
theorem storeBytes_memWf (s : State) (l : List (Word × Byte)) (hm : s.mem.wf = true) :
    (storeBytes s l).mem.wf = true := by
  induction l generalizing s with
  | nil => exact hm
  | cons p l ih => exact ih (storeByte s p) (Memory.write_wf hm p.1.isLt p.2)

/-- Storing bytes keeps the list of stored addresses canonical. -/
theorem storeBytes_storedWf (s : State) (l : List (Word × Byte)) (hs : addrsWfFrom 0 s.stored = true) :
    addrsWfFrom 0 (storeBytes s l).stored = true := by
  induction l generalizing s with
  | nil => exact hs
  | cons p l ih => exact ih (storeByte s p) (insertAddr_wfFrom hs (Nat.zero_le _) p.1.isLt)

/-- Which addresses count as stored to afterwards. -/
theorem mem_storeBytes_stored {s : State} {l : List (Word × Byte)} {a : Nat} :
    a ∈ (storeBytes s l).stored ↔ a ∈ s.stored ∨ ∃ p ∈ l, p.1.toNat = a := by
  induction l generalizing s with
  | nil => simp
  | cons p l ih =>
    rw [storeBytes_cons, ih]
    simp only [storeByte_stored, mem_insertAddr, List.exists_mem_cons_iff]
    tauto

/-- A byte at no stored address reads as before. -/
theorem storeBytes_read_other (s : State) (l : List (Word × Byte)) (hm : s.mem.wf = true) {a : Nat}
    (ha : ∀ p ∈ l, p.1.toNat ≠ a) : (storeBytes s l).mem.read a = s.mem.read a := by
  induction l generalizing s with
  | nil => rfl
  | cons p l ih =>
    have hp : a ≠ p.1.toNat := fun h => ha p (by simp) h.symm
    rw [storeBytes_cons, ih (storeByte s p) (Memory.write_wf hm p.1.isLt p.2) (fun q hq => ha q (by simp [hq])),
      storeByte_mem, Memory.read_write hm, if_neg hp]

/-- All that an admitted store can do. -/
theorem storeAdmitted_ok {s t : State} {l : List (Word × Byte)} (h : storeAdmitted s l = .ok t) :
    t = storeBytes s l ∧ ∀ p ∈ l, s.launch.admits p.1.toNat = true := by
  unfold storeAdmitted at h
  split at h
  · next hall => exact ⟨by simpa using h.symm, by simpa using hall⟩
  · cases h

/-- What a checked access has established. -/
theorem checkAccess_ok {s : State} {a : Word} {n : Nat} (h : checkAccess s a n = .ok ()) :
    a.toNat % n = 0 ∧ ∀ x ∈ addrsFrom a n, s.launch.admits x.toNat = true := by
  unfold checkAccess at h
  split at h
  · cases h
  · next hal =>
    split at h
    · next hall => exact ⟨by simpa using hal, by simpa using hall⟩
    · cases h

/-- All that a load can do. -/
theorem load32_ok {s : State} {a : Word} {v : BitVec 32} (h : load32 s a = .ok v) :
    checkAccess s a 4 = .ok () ∧ v = BitVec.ofNat 32 (memRead s a 4) := by
  unfold load32 at h
  split at h
  · cases h
  · next hc => exact ⟨hc, by simpa using h.symm⟩

/-- All that a store can do. -/
theorem store32_ok {s t : State} {a : Word} {v : BitVec 32} (h : store32 s a v = .ok t) :
    checkAccess s a 4 = .ok () ∧ t = storeBytes s (store32Bytes s a v) := by
  unfold store32 at h
  split at h
  · cases h
  · next hc => exact ⟨hc, by simpa using h.symm⟩

/-- The addresses a 4-byte store writes are those of the access. -/
theorem store32Bytes_addr {s : State} {a : Word} {v : BitVec 32} {p : Word × Byte} (hp : p ∈ store32Bytes s a v) :
    p.1 ∈ addrsFrom a 4 := (List.of_mem_zip hp).1

end Sys2Proof.Machine
end

