-- ==== Sys2Proof/Laws/PerInstr.lean ====
section
/-! SUPPORT. The per-instruction family `LengthFromFirstWord`: the first word of an encoding tells its length (R70, R90). -/

namespace Sys2Proof

/-- The prefix word that carries any `RM` is recognised as an SVP64 prefix (R72, R73). -/
theorem isSvp64Prefix_prefixOfRm (rm : BitVec 24) : isSvp64Prefix (prefixOfRm rm) = true := by
  simp only [isSvp64Prefix, decide_eq_true_eq]
  apply BitVec.eq_of_getLsbD_eq
  intro i hi
  interval_cases i <;> simp [prefixOfRm, place]

namespace Laws.LengthFromFirstWord

/-- An instruction's first word is an SVP64 prefix exactly when the instruction has two words. -/
def Statement (i : Instr) : Prop := (encode i).head?.map isSvp64Prefix = some (decide ((encode i).length = 2))

theorem sv (rm : BitVec 24) (s : Insn) : Statement (.sv rm s) := by
  simp [Statement, encode, isSvp64Prefix_prefixOfRm]

theorem svRm1p3s1d (c : RmCommon) (x : Extra1p3s1d) (sfx : Suffix) : Statement (.svRm1p3s1d c x sfx) := by
  simp [Statement, encode, isSvp64Prefix_prefixOfRm]

theorem svRm1p2s1d (c : RmCommon) (x : Extra1p2s1d) (sfx : Suffix) : Statement (.svRm1p2s1d c x sfx) := by
  simp [Statement, encode, isSvp64Prefix_prefixOfRm]

theorem svRm2p1s1d (c : RmCommon) (x : Extra2p1s1d) (sfx : Suffix) : Statement (.svRm2p1s1d c x sfx) := by
  simp [Statement, encode, isSvp64Prefix_prefixOfRm]

theorem svRm2p2s (c : RmCommon) (x : Extra2p2s) (sfx : Suffix) : Statement (.svRm2p2s c x sfx) := by
  simp [Statement, encode, isSvp64Prefix_prefixOfRm]

theorem svRm2p2s1d (c : RmCommon) (x : Extra2p2s1d) (sfx : Suffix) : Statement (.svRm2p2s1d c x sfx) := by
  simp [Statement, encode, isSvp64Prefix_prefixOfRm]

theorem svRm2p1s2d (c : RmCommon) (x : Extra2p1s2d) (sfx : Suffix) : Statement (.svRm2p1s2d c x sfx) := by
  simp [Statement, encode, isSvp64Prefix_prefixOfRm]

theorem svRm2p3s (c : RmCommon) (x : Extra2p3s) (sfx : Suffix) : Statement (.svRm2p3s c x sfx) := by
  simp [Statement, encode, isSvp64Prefix_prefixOfRm]

/-- A word whose bit `k` differs from a prefix word's is no SVP64 prefix. -/
theorem notPrefix {w : Insn} (k : Nat)
    (h : (w &&& 0xFD400000#32).getLsbD k ≠ (0x05400000#32 : Insn).getLsbD k) : isSvp64Prefix w = false := by
  simp only [isSvp64Prefix, decide_eq_false_iff_not]
  exact fun e => h (by rw [e])

theorem add (rt ra rb : BitVec 5) : Statement (.add rt ra rb) := by
  have h : isSvp64Prefix (encodeSuffix (.add rt ra rb)) = false :=
    notPrefix 27 (by simp [encodeSuffix, place])
  simp [Statement, encode, h]

theorem addi (rt ra : BitVec 5) (si : BitVec 16) : Statement (.addi rt ra si) := by
  have h : isSvp64Prefix (encodeSuffix (.addi rt ra si)) = false :=
    notPrefix 27 (by simp [encodeSuffix, place])
  simp [Statement, encode, h]

theorem b (li : BitVec 24) : Statement (.b li) := by
  have h : isSvp64Prefix (encodeSuffix (.b li)) = false :=
    notPrefix 27 (by simp [encodeSuffix, place])
  simp [Statement, encode, h]

theorem lwz (rt ra : BitVec 5) (d : BitVec 16) : Statement (.lwz rt ra d) := by
  have h : isSvp64Prefix (encodeSuffix (.lwz rt ra d)) = false :=
    notPrefix 31 (by simp [encodeSuffix, place])
  simp [Statement, encode, h]

theorem stw (rs ra : BitVec 5) (d : BitVec 16) : Statement (.stw rs ra d) := by
  have h : isSvp64Prefix (encodeSuffix (.stw rs ra d)) = false :=
    notPrefix 31 (by simp [encodeSuffix, place])
  simp [Statement, encode, h]

end Laws.LengthFromFirstWord

end Sys2Proof
end

