-- ==== Sys2Proof/Laws/Steps.lean ====
section
/-! SUPPORT. What `Base.exec`, a pair and a step can do when they answer a next state: one inversion lemma each. -/

namespace Sys2Proof.Machine

@[simp] theorem outcomeOf_next {r : Except Refusal State} {t : State} : outcomeOf r = .next t ↔ r = .ok t := by
  cases r <;> simp [outcomeOf]

@[simp] theorem outcomeOf_ne_fault {r : Except Refusal State} {f : Fault} : outcomeOf r ≠ .fault f := by
  cases r <;> simp [outcomeOf]

@[simp] theorem raiseIllegal_ne_next {s t : State} : raiseIllegal s ≠ .next t := by simp [raiseIllegal]

/-- All that `lwz` can do. -/
theorem baseLwz_ok {rt ra : BitVec 5} {d : BitVec 16} {s t : State} (h : baseLwz rt ra d s = .ok t) :
    ∃ v, load32 s (effAddr s ra d) = .ok v ∧ t = advance (setGprField s rt (v.setWidth 64)) 4 := by
  unfold baseLwz at h
  split at h
  · cases h
  · next v hv => exact ⟨v, hv, by simpa using h.symm⟩

/-- All that `stw` can do. -/
theorem baseStw_ok {rs ra : BitVec 5} {d : BitVec 16} {s t : State} (h : baseStw rs ra d s = .ok t) :
    ∃ u, store32 s (effAddr s ra d) ((gprField s rs).setWidth 32) = .ok u ∧ t = advance u 4 := by
  unfold baseStw at h
  split at h
  · cases h
  · next u hu => exact ⟨u, hu, by simpa using h.symm⟩

/-- All that the free effect of words of the reader's `Base` can do. -/
theorem baseFree_ok {words : List Insn} {mayRaise branch : Bool} {s t : State}
    (h : baseFree words mayRaise branch s = .ok t) :
    (∀ a ∈ Config.baseReads words (baseView s), s.launch.admits a.toNat = true) ∧
      storeAdmitted ((applyRegs (suppliedEffect words s) s).setPc (suppliedNext words branch s))
        (suppliedEffect words s).mem = .ok t := by
  unfold baseFree at h
  split at h
  · cases h
  · next ha =>
    split at h
    · cases h
    · exact ⟨by simpa using ha, h⟩

/-- A record of Rc = 1 touches register files only. -/
theorem recordRc_regsOnly (word : Insn) (prof : Profile) (v : Config.BaseView) (s : State) :
    RegsOnly s (recordRc word prof v s) := by
  unfold recordRc
  split <;> exact ⟨rfl, rfl, rfl, rfl, rfl, rfl⟩

/-- All that the element-wise form of a word of the reader's `Base` can do. -/
theorem baseElementWise_ok {word : Insn} {prof : Profile} {s t : State} (h : baseElementWise word prof s = .ok t) :
    ∃ u, elementStep (fun _ => false) (.other word prof) (sourcesOf prof noSlots)
        (destsOf prof noSlots ++ baseImplicitDests word prof) 64 1 0 0 0 s = .ok u ∧
      t = advance (recordRc word prof (baseView s) u) 4 := by
  unfold baseElementWise at h
  split at h
  · cases h
  · cases h
  · next u hu => exact ⟨u, hu, by simpa using h.symm⟩

/-- All that a word of the reader's `Base` can do. -/
theorem baseOther_ok {word : Insn} {prof : Profile} {s t : State} (h : baseOther word prof s = .ok t) :
    baseElementWise word prof s = .ok t ∨ baseFree [word] prof.mayRaise (decide (prof.cls = .branch)) s = .ok t := by
  unfold baseOther at h
  split at h
  · exact .inl h
  · exact .inr h

/-- All that `IdentityExec` can do. -/
theorem identityExec_ok {sfx : Suffix} {s t : State} (h : identityExec sfx s = .ok t) :
    ∃ u, baseExec sfx s = .ok u ∧ t = u.setPc (s.pc + 8#64) := by
  unfold identityExec at h
  split at h
  · cases h
  · next u hu => exact ⟨u, hu, by simpa using h.symm⟩

/-- All that the loop of a format can do. -/
theorem runLoop_ok {l : LoopCtx} {fmt : RmFormat} {s t : State} (h : runLoop l fmt s = .ok t) :
    (isTwin fmt = false ∧ loop1P l s = .ok t) ∨
    (fmt = .rm2p1s1d ∧ ∃ src dst, l.srcs = [src] ∧ l.dsts = [dst] ∧ loop2P l src dst s = .ok t) := by
  unfold runLoop at h
  split at h
  · next ht =>
    split at h
    · next src dst hs hd => exact .inr ⟨rfl, src, dst, hs, hd, h⟩
    · cases h
  · next ht => exact .inl ⟨by simpa using ht, h⟩

theorem runLoop_regsOnly {l : LoopCtx} {fmt : RmFormat} {s t : State} (h : runLoop l fmt s = .ok t) : RegsOnly s t := by
  rcases runLoop_ok h with ⟨-, h1⟩ | ⟨-, src, dst, -, -, h2⟩
  · exact loop1P_regsOnly h1
  · exact loop2P_regsOnly h2

/-- All that a normal-class pair beyond `VL` = 0 and identity can do. -/
theorem execNormal_ok {c : RmCommon} {x : Slots} {sfx : Suffix} {s t : State} (h : execNormal c x sfx s = .ok t) :
    c.mode = 0#5 ∧ (suffixProfile sfx).rc = false ∧ c.elwidth = c.elwidthSrc ∧ isAddiRa0 sfx = false ∧
      ∃ u, runLoop (loopCtx c x sfx) x.fmt s = .ok u ∧ t = advance u 8 := by
  unfold execNormal at h
  split at h
  · cases h
  · next hm =>
    split at h
    · cases h
    · next hrc =>
      split at h
      · cases h
      · next hw =>
        split at h
        · cases h
        · next ha =>
          split at h
          · cases h
          · next u hu =>
            exact ⟨by simpa using hm, by simpa using hrc, by simpa using hw, by simpa using ha, u, hu,
              by simpa using h.symm⟩

/-- What the reader's `Base` gives a word comes from one of its rows that covers the word. -/
theorem baseLookup_some {rows : List BaseRow} {w : Insn} {prof : Profile} (h : baseLookup rows w = some prof) :
    ∃ r ∈ rows, w &&& r.mask = r.bits ∧ prof = profileOfRow w r := by
  induction rows with
  | nil => simp [baseLookup] at h
  | cons r rest ih =>
    unfold baseLookup at h
    split at h
    · next hr => exact ⟨r, by simp, hr, by simpa using h.symm⟩
    · obtain ⟨r', hm, hr⟩ := ih h
      exact ⟨r', by simp [hm], hr⟩

/-- The format of such a word is the one LS009 states for its name, where it states one. -/
theorem baseLookup_format {rows : List BaseRow} {w : Insn} {prof : Profile} (h : baseLookup rows w = some prof) :
    formatOf prof.mnemonic prof.rmFormat = prof.rmFormat := by
  obtain ⟨r, -, -, rfl⟩ := baseLookup_some h
  simp only [profileOfRow, formatOf]
  cases statedFormats.lookup r.mnemonic <;> rfl

/-- All that a pair can do while `VL` > 0. -/
theorem execActive_ok {c : RmCommon} {x : Slots} {sfx : Suffix} {s t : State} (h : execActive c x sfx s = .ok t) :
    (suffixProfile sfx).cls ≠ .branch ∧
      ((rmIsZero c x = true ∧ s.vl = 1 ∧ identityExec sfx s = .ok t) ∨
        ((suffixProfile sfx).atomic = false ∧ (suffixProfile sfx).cls = .normal ∧ execNormal c x sfx s = .ok t)) := by
  unfold execActive at h
  split at h
  · cases h
  · next hb =>
    refine ⟨hb, ?_⟩
    split at h
    · next hz =>
      simp only [Bool.and_eq_true, decide_eq_true_eq] at hz
      exact .inl ⟨hz.1, hz.2, h⟩
    · split at h
      · cases h
      · next ha =>
        split at h
        · cases h
        · cases h
        · next h1 h2 =>
          refine .inr ⟨by simpa using ha, ?_, h⟩
          cases hc : (suffixProfile sfx).cls <;> simp_all

/-- All that a pair can do when it answers a next state: nothing at `VL` = 0, the unprefixed instruction at identity, or
a loop. -/
theorem execSvp64_next {c : RmCommon} {x : Slots} {sfx : Suffix} {s t : State} (h : execSvp64 c x sfx s = .next t) :
    (suffixProfile sfx).rmFormat ≠ none ∧ reserved c x (suffixProfile sfx) = false ∧
      ((s.vl = 0 ∧ t = advance s 8) ∨ (s.vl ≠ 0 ∧ execActive c x sfx s = .ok t)) := by
  unfold execSvp64 at h
  split at h
  · cases h
  · next hf =>
    split at h
    · cases h
    · next hr =>
      refine ⟨hf, by simpa using hr, ?_⟩
      split at h
      · next h0 => exact .inl ⟨h0, by simpa using h.symm⟩
      · next h0 => exact .inr ⟨h0, by simpa using h⟩

/-- A pair's fault is the illegal instruction trap at `pc`. -/
theorem execSvp64_fault {c : RmCommon} {x : Slots} {sfx : Suffix} {s : State} {f : Fault}
    (h : execSvp64 c x sfx s = .fault f) :
    f = .illegalInstruction s.pc ∧
      ((suffixProfile sfx).rmFormat = none ∨ reserved c x (suffixProfile sfx) = true) := by
  unfold execSvp64 at h
  split at h
  · next hf => exact ⟨by simpa [raiseIllegal] using h.symm, .inl hf⟩
  · split at h
    · next hr => exact ⟨by simpa [raiseIllegal] using h.symm, .inr hr⟩
    · split at h
      · cases h
      · simp at h

/-- All that a fetched word has established. -/
theorem fetch32_ok {s : State} {a : Word} {w : Insn} (h : fetch32 s a = .ok w) :
    a.toNat % 4 = 0 ∧ (∀ x ∈ addrsFrom a 4, s.launch.admits x.toNat = true) ∧
      (∀ x ∈ addrsFrom a 4, x.toNat ∉ s.stored) ∧ w = BitVec.ofNat 32 (memRead s a 4) := by
  unfold fetch32 at h
  split at h
  · cases h
  · next ha =>
    split at h
    · cases h
    · next hadm =>
      split at h
      · cases h
      · next hst =>
        refine ⟨by simpa using ha, by simpa using hadm, by simpa using hst, by simpa using h.symm⟩

/-- All that a step can do when it answers a next state. -/
theorem step_next {s t : State} (h : step s = .next t) :
    ∃ ws, fetchWords s = .ok ws ∧
      ((∃ i, decode s.launch.base ws = .instr i ∧ exec i s = .next t) ∨
        (∃ word prof, decode s.launch.base ws = .baseWord word prof ∧ baseOther word prof s = .ok t) ∨
        (∃ pfx sfx row, decode s.launch.base ws = .basePrefixed pfx sfx row ∧
          baseFree [pfx, sfx] row.mayRaise false s = .ok t)) := by
  unfold step at h
  split at h
  · cases h
  · next ws hws =>
    refine ⟨ws, hws, ?_⟩
    unfold execDecoded at h
    split at h
    · next i hi => exact .inl ⟨i, hi, h⟩
    · next word prof hb => exact .inr (.inl ⟨word, prof, hb, by simpa [execBaseWord] using h⟩)
    · next pfx sfx row hb => exact .inr (.inr ⟨pfx, sfx, row, hb, by simpa [execBasePrefixed] using h⟩)
    · cases h
    · simp at h
    · cases h

end Sys2Proof.Machine
end

