-- ==== Sys2Proof/Tests/Slice0.lean ====
section
/-! SUPPORT. The model's own tests: ill-formed terms refused, words decoded, one step of each instruction against the
vectors of 95_test_vectors.md, and for each statement with hypotheses a state and operands that meet them. -/

set_option maxRecDepth 40000
-- one test at a time: a hundred small kernel evaluations side by side wait for each other, each in a thread of its own
set_option Elab.async false

namespace Sys2Proof.Tests

open Sys2Proof Sys2Proof.Machine

/-! ## Helpers -/

/-- A small state: `VL`, some GPRs and some CR fields; `pc` = 0x1000 and little-endian, as the vectors have them. -/
def small (vl : Nat) (g : List (Nat × Nat)) (c : List (Nat × Nat) := []) : State :=
  { State.reset with
    vl := vl
    pc := 0x1000#64
    le := true
    launch := { State.reset.launch with maxVL := 200 }
    gpr := g.foldl (fun f p => writeReg f p.1 (BitVec.ofNat 64 p.2)) State.reset.gpr
    cr := c.foldl (fun f p => writeCr f p.1 (BitVec.ofNat 4 p.2)) State.reset.cr }

/-- The outcome is a next state with the property. -/
def nextWith (o : Host.Outcome State Fault Refusal) (p : State → Bool) : Bool :=
  match o with
  | .next t => p t
  | _ => false

theorem exists_of_nextWith {o : Host.Outcome State Fault Refusal} {p : State → Bool} (h : nextWith o p = true) :
    ∃ t, o = .next t ∧ p t = true := by
  cases o with
  | next t => exact ⟨t, rfl, h⟩
  | fault r => simp [nextWith] at h
  | refused r => simp [nextWith] at h

/-- Completion alone. -/
theorem exists_next {o : Host.Outcome State Fault Refusal} (h : nextWith o (fun _ => true) = true) : ∃ t, o = .next t := by
  obtain ⟨t, ht, -⟩ := exists_of_nextWith h
  exact ⟨t, ht⟩

/-- The outcome is that refusal. -/
def refusedWith (o : Host.Outcome State Fault Refusal) (r : Refusal) : Bool :=
  match o with
  | .refused r' => decide (r' = r)
  | _ => false

/-- The outcome is that fault. -/
def faultWith (o : Host.Outcome State Fault Refusal) (r : Fault) : Bool :=
  match o with
  | .fault r' => decide (r' = r)
  | _ => false

/-- Some GPRs of a state. -/
def gprs (t : State) (l : List Nat) : List Nat := l.map fun n => (readReg t.gpr n).toNat

/-- A supplied profile over the register fields 2, 4, 6, 8. -/
def prof4 (f : Option RmFormat) (roles : List Role) (k : RegKind := .gpr) (cls : SuffixClass := .normal) : Profile :=
  { normalProfile "sample" 64 .rm1p2s1d ((roles.zip [2#5, 4#5, 6#5, 8#5]).map fun p => ⟨p.1, k, p.2⟩) false with
    cls := cls, rmFormat := f }

/-- The suffix of the four-operand word of `sampleBase`. -/
def sfx4 : Suffix := sampleSuffix 0x10443230#32 .rm1p3s1d [.rdest, .rsrc1, .rsrc2, .rsrc3]

/-- A floating-point suffix, as a reader's `Base` could give it. -/
def sfxFp (single : Bool := false) : Suffix :=
  .other 0x10443230#32 { prof4 (some .rm1p2s1d) [.rdest, .rsrc1, .rsrc2] .fpr with fpSingle := single }

/-- A `Base` one row of which covers every word. -/
def coverAll (r : BaseRow) : BaseTable := { sampleBase with rows := [{ r with mask := 0#32, bits := 0#32 }] }

/-- The test subset, with the v3.1 prefixed instruction of `sampleBase`: the prefix 0x0600xxxx before a word of primary
opcode 14. -/
def withPrefixed (s : State) : State := s.setLaunch { s.launch with base := sampleBase }

/-! ## Well-formedness: an ill-formed term for each check -/

theorem test_wf_pair_in_its_format : (Instr.svRm1p2s1d zeroCommon ⟨0, 0, 0⟩ (.add 2 4 6)).wellFormed .test = true := by decide

theorem test_wf_pair_in_another_format :
    (Instr.svRm2p2s zeroCommon ⟨0, 0, 0⟩ (.add 2 4 6)).wellFormed .test = false := by decide

theorem test_wf_unsplit_pair_that_has_a_format : (Instr.sv 0 0x7C443214#32).wellFormed .test = false := by decide

theorem test_wf_unsplit_pair_without_format :
    (Instr.sv 0 0x48000008#32).wellFormed .test = true ∧ (Instr.sv 0 0x05400000#32).wellFormed .test = true ∧
      (Instr.sv 0 0#32).wellFormed .test = true := by decide

theorem test_wf_supplied_word : (Instr.svRm1p3s1d zeroCommon ⟨0, 0, 0, 0, false⟩ sfx4).wellFormed sampleBase = true := by decide

theorem test_wf_supplied_word_not_in_base :
    (Instr.svRm1p3s1d zeroCommon ⟨0, 0, 0, 0, false⟩ sfx4).wellFormed .test = false := by decide

theorem test_wf_supplied_prefix_word :
    (Suffix.other 0x05400000#32 (prof4 none [])).wellFormed (coverAll (sampleRow 0 none [])) = false ∧
      (Suffix.other 0x10443230#32 (prof4 none [])).wellFormed (coverAll (sampleRow 0 none [])) = true := by decide

/-- A reader's row overrides a word of the test subset (D22), and a reader may leave the subset out. -/
theorem test_wf_word_of_the_subset_not_left_to_it :
    (Suffix.add 2 4 6).wellFormed (coverAll (sampleRow 0 none [])) = false ∧
      (Instr.add 2 4 6).wellFormed { sampleBase with testSubset := false } = false ∧
      (Instr.add 2 4 6).wellFormed sampleBase = true := by decide

theorem test_wf_profile_slot_not_in_format :
    (prof4 (some .rm1p2s1d) [.rdest, .rsrc1, .rsrc3]).wellFormed = false := by decide

theorem test_wf_profile_slot_twice : (prof4 (some .rm1p2s1d) [.rdest, .rsrc1, .rsrc1]).wellFormed = false := by decide

theorem test_wf_profile_extra2_mode_elsewhere :
    ({ prof4 (some .rm1p2s1d) [.rdest, .rsrc1] with usesExtra2Mode := true, mnemonic := "maddedu" }).wellFormed = false ∧
    ({ prof4 (some .rm1p3s1d) [.rdest, .rsrc1] with usesExtra2Mode := true }).wellFormed = false ∧
    ({ prof4 (some .rm1p3s1d) [.rdest, .rsrc1] with usesExtra2Mode := true, mnemonic := "maddedu" }).wellFormed = true := by
  decide

theorem test_wf_profile_fp_single_not_ending_in_s :
    ({ prof4 (some .rm1p2s1d) [.rdest] .fpr with fpSingle := true, mnemonic := "fadd" }).wellFormed = false ∧
    ({ prof4 (some .rm1p2s1d) [.rdest] .fpr with fpSingle := true, mnemonic := "fadds" }).wellFormed = true := by decide

theorem test_wf_profile_in_another_format_than_stated :
    ({ prof4 (some .rm1p3s1d) [.rdest] with mnemonic := "rlwimi" }).wellFormed = false ∧
    ({ prof4 none [] with mnemonic := "stdx" }).wellFormed = false ∧
    ({ prof4 (some .rm2p3s) [.rsrc1] with mnemonic := "sync" }).wellFormed = false ∧
    ({ prof4 (some .rm1p2s1d) [.rdest] with mnemonic := "rlwimi" }).wellFormed = true ∧
    (suffixProfile (.add 2 4 6)).wellFormed = true ∧ (suffixProfile (.stw 5 4 0)).wellFormed = true := by decide

/-! ## Decoding: one word written out for every constructor -/

/-- R92: the stated format stands before a row's own, `maddedu` uses EXTRA2_MODE, and any other name takes the row's. -/
theorem test_stated_formats :
    (profileOfRow 0 { sampleRow 0 none [] with mnemonic := "isel" }).rmFormat = some .rm1p3s1d ∧
    (profileOfRow 0 { sampleRow 0 none [] with mnemonic := "lhaux" }).rmFormat = some .rm2p2s1d ∧
    (profileOfRow 0 { sampleRow 0 (some .rm2p3s) [] with mnemonic := "mtmsr" }).rmFormat = none ∧
    (profileOfRow 0 { sampleRow 0 none [] with mnemonic := "maddedu" }).usesExtra2Mode = true ∧
    (profileOfRow 0 (sampleRow 0 (some .rm2p3s) [])).rmFormat = some .rm2p3s := by decide


/-- V20: PO 1, `W{7}` and `W{9}` set, EXTRA = 100 100 100; `add 2,4,6`. -/
theorem test_decode_1p2s1d :
    decode .test [0b000001_0_1_0_1_000000_0010_0100_1000_0000#32, 0b011111_00010_00100_00110_0_100001010_0#32] =
      .instr (.svRm1p2s1d zeroCommon ⟨4, 4, 4⟩ (.add 2 4 6)) := by decide

/-- V90: MASK = 100, EXTRA = 100 100 010; `addi 2,4,1`. -/
theorem test_decode_2p1s1d :
    decode .test [0b000001_0_1_1_1_000000_0010_0100_0100_0000#32, 0b001110_00010_00100_0000000000000001#32] =
      .instr (.svRm2p1s1d { zeroCommon with mask := 4 } ⟨4, 4, 2⟩ (.addi 2 4 1)) := by decide

/-- Program 3 of 95_test_vectors.md: the identity-prefixed `stw 5,0(4)`. -/
theorem test_decode_2p2s :
    decode .test [0x05400000#32, 0b100100_00101_00100_0000000000000000#32] =
      .instr (.svRm2p2s zeroCommon ⟨0, 0, 0⟩ (.stw 5 4 0)) := by decide

/-- R83: EXTRA = 10 01 11 00 1. -/
theorem test_decode_1p3s1d :
    decode sampleBase [0b000001_0_1_0_1_000000_00_10_01_11_00_1_00000#32, 0x10443230#32] =
      .instr (.svRm1p3s1d zeroCommon ⟨2, 1, 3, 0, true⟩ sfx4) := by decide

/-- R87: EXTRA = 10 01 11 101. -/
theorem test_decode_2p2s1d :
    decode sampleBase [0b000001_0_1_0_1_000000_00_10_01_11_101_00000#32, 0x10443231#32] =
      .instr (.svRm2p2s1d zeroCommon ⟨2, 1, 3, 5⟩
        (sampleSuffix 0x10443231#32 .rm2p2s1d [.rdest, .rsrc1, .rsrc2])) := by decide

/-- R89, D22: EXTRA = 10 01 11 101, the source first. -/
theorem test_decode_2p1s2d :
    decode sampleBase [0b000001_0_1_0_1_000000_00_10_01_11_101_00000#32, 0x10443232#32] =
      .instr (.svRm2p1s2d zeroCommon ⟨2, 1, 3, 5⟩
        (sampleSuffix 0x10443232#32 .rm2p1s2d [.rsrc1, .rdest, .rdest2])) := by decide

/-- R89: EXTRA = 10 01 11 101. -/
theorem test_decode_2p3s :
    decode sampleBase [0b000001_0_1_0_1_000000_00_10_01_11_101_00000#32, 0x10443233#32] =
      .instr (.svRm2p3s zeroCommon ⟨2, 1, 3, 5⟩
        (sampleSuffix 0x10443233#32 .rm2p3s [.rsrc1, .rsrc2, .rsrc3])) := by decide

/-- V2: every bit of `RM` set; V74: a suffix with no format stays unsplit. -/
theorem test_decode_unsplit : decode .test [0x07FFFFFF#32, 0x48000008#32] = .instr (.sv 0xFFFFFF 0x48000008#32) := by decide

theorem test_decode_add : decode .test [0b011111_00011_00100_00101_0_100001010_0#32] = .instr (.add 3 4 5) := by decide

theorem test_decode_addi : decode .test [0b001110_00011_00100_1111111111111111#32] = .instr (.addi 3 4 0xFFFF) := by decide

theorem test_decode_b : decode .test [0b010010_111111111111111111111111_00#32] = .instr (.b 0xFFFFFF) := by decide

theorem test_decode_lwz : decode .test [0b100000_00101_00100_1000000000000001#32] = .instr (.lwz 5 4 0x8001) := by decide

theorem test_decode_stw : decode .test [0b100100_00101_00100_1000000000000001#32] = .instr (.stw 5 4 0x8001) := by decide

/-- Neighbours of the five words are none of them: `add.` (Rc = 1), `addo`, `ba`, `bl`, and the all-zero word. -/
theorem test_decode_rejects :
    decode .test [0x7C443215#32] = .illegal 0x7C443215#32 ∧ decode .test [0x7C443614#32] = .illegal 0x7C443614#32 ∧
    decode .test [0x48000002#32] = .illegal 0x48000002#32 ∧ decode .test [0x48000001#32] = .illegal 0x48000001#32 ∧
    decode .test [0#32] = .illegal 0#32 ∧ decode .test [0x04000000#32] = .v31Prefix 0x04000000#32 ∧
    decode .test [0x05400000#32] = .truncated ∧ decode .test [] = .truncated := by decide

/-- R74: a v3.1 prefixed instruction is handed to `Base`; D22: a row of `Base` overrides the test subset's. -/
theorem test_decode_supplied :
    decode sampleBase [0x06000000#32, 0x38600005#32] =
      .basePrefixed 0x06000000#32 0x38600005#32 ⟨0xFFFC0000#32, 0x06000000#32, 0xFC000000#32, 0x38000000#32, false⟩ ∧
    decode sampleBase [0x06000000#32, 0x80600000#32] = .v31Prefix 0x06000000#32 ∧
    decode sampleBase [0x06000000#32] = .truncated ∧
    decode (coverAll (sampleRow 0 none [])) [0x7C443214#32] = .baseWord 0x7C443214#32 (prof4 none []) := by decide

/-- V1 to V12: which words are SVP64 prefixes, and the `RM` of those that are. -/
theorem test_prefix_words :
    [0x05400000#32, 0x07FFFFFF#32, 0x07400000#32, 0x05C00000#32, 0x05500000#32, 0x05480000#32, 0x05402480#32].map
      (fun w => (isSvp64Prefix w, rmOfPrefix w)) =
      [(true, 0x000000#24), (true, 0xFFFFFF#24), (true, 0x800000#24), (true, 0x400000#24), (true, 0x100000#24),
       (true, 0x080000#24), (true, 0x002480#24)] ∧
    [0x04000000#32, 0x05000000#32, 0x04400000#32, 0x06000000#32, 0x7C443214#32].map isSvp64Prefix =
      [false, false, false, false, false] := by decide

/-! ## One step of each instruction -/

/-- The words of the opcode table as the host numbers them. -/
theorem test_table_words :
    decodeTableWord 32 0x05400000 = some (.sv 0 0) ∧ decodeTableWord 32 0x7C000214 = some (.add 0 0 0) ∧
      decodeTableWord 64 0x7C44321405402480 = some (.svRm1p2s1d zeroCommon ⟨4, 4, 4⟩ (.add 2 4 6)) := by decide

/-- V20 through `step`: the last sum wraps modulo 2^64, and `pc` = 0x1008. -/
theorem test_step_sv_add :
    nextWith
      (step ((small 4 [(16, 1), (17, 2), (18, 3), (19, 0xFFFFFFFFFFFFFFFF), (24, 10), (25, 20), (26, 30), (27, 1)]).withFetchWord
        64 0x7C44321405402480))
      (fun t => decide (gprs t [8, 9, 10, 11, 12] = [0xB, 0x16, 0x21, 0, 0] ∧ t.pc = 0x1008#64)) = true := by decide +kernel

/-- V26: 16-bit elements, no carry between them, the rest of the last register kept. -/
theorem test_sv_add_16_bit :
    nextWith
      (exec (.svRm1p2s1d { zeroCommon with elwidth := 2, elwidthSrc := 2 } ⟨4, 4, 4⟩ (.add 2 4 6))
        (small 5 [(16, 0x000400030002FFFF), (17, 0x1111222233335555), (24, 0x0040003000200002), (25, 0xAAAABBBBCCCC0001),
          (8, 0xDEADBEEFDEADBEEF), (9, 0xDEADBEEFDEADBEEF)]))
      (fun t => decide (gprs t [8, 9] = [0x0044003300220001, 0xDEADBEEFDEAD5556])) = true := by decide +kernel

/-- V64b: the complement of `r10` as predicate. -/
theorem test_sv_add_masked :
    nextWith
      (exec (.svRm1p2s1d { zeroCommon with mask := 5 } ⟨4, 4, 4⟩ (.add 3 4 6))
        (small 4 [(10, 6), (16, 1), (17, 2), (18, 3), (19, 4), (24, 16), (25, 32), (26, 48), (27, 64), (13, 0xEE), (14, 0xEE)]))
      (fun t => decide (gprs t [12, 13, 14, 15] = [0x11, 0xEE, 0xEE, 0x44])) = true := by decide +kernel

/-- V65b: the CR predicate `ge`. -/
theorem test_sv_add_cr_masked :
    nextWith
      (exec (.svRm1p2s1d { zeroCommon with maskMode := true, mask := 1 } ⟨4, 4, 4⟩ (.add 2 4 6))
        (small 4 [(16, 1), (17, 2), (18, 3), (19, 4), (24, 16), (25, 32), (26, 48), (27, 64), (8, 0xEE)]
          [(32, 8), (33, 4), (34, 2), (35, 3)]))
      (fun t => decide (gprs t [8, 9, 10, 11] = [0xEE, 0x22, 0x33, 0x44])) = true := by decide +kernel

/-- V90: both masks; `r10` is the mask and a destination that is not reached. -/
theorem test_sv_addi_twin :
    nextWith
      (exec (.svRm2p1s1d { zeroCommon with mask := 4 } ⟨4, 4, 2⟩ (.addi 2 4 1))
        (small 4 [(16, 0x100), (17, 0x200), (18, 0x300), (19, 0x400), (11, 0xEE), (3, 0xA), (10, 3)]))
      (fun t => decide (gprs t [8, 9, 10, 11] = [0x201, 0x401, 3, 0xEE])) = true := by decide +kernel

/-- V94: `1 << r3` on the source extracts element 2 into a scalar. -/
theorem test_sv_addi_extract :
    nextWith
      (exec (.svRm2p1s1d zeroCommon ⟨0, 4, 1⟩ (.addi 5 4 0))
        (small 4 [(16, 0x100), (17, 0x200), (18, 0x300), (19, 0x400), (3, 2)]))
      (fun t => decide (gprs t [5] = [0x300])) = true := by decide +kernel

/-- Program 3: the identity-prefixed `stw` stores the low word, little-endian, and goes on at `pc + 8`. -/
theorem test_sv_stw_identity :
    nextWith (exec (.svRm2p2s zeroCommon ⟨0, 0, 0⟩ (.stw 5 4 0)) (small 1 [(5, 0x1122334455667788), (4, 0x100)]))
      (fun t => decide (t.mem = [(0x100, 0x88#8), (0x101, 0x77#8), (0x102, 0x66#8), (0x103, 0x55#8)] ∧
        t.pc = 0x1008#64)) = true := by decide +kernel

/-- V80 through the unsplit row: `r2` = 7 + 8 and `pc + 8`. -/
theorem test_sv_identity :
    nextWith (exec (.sv 0 0x7C443214#32) (small 1 [(4, 7), (6, 8)]))
      (fun t => decide (gprs t [2] = [0xF] ∧ t.pc = 0x1008#64)) = true := by decide +kernel

/-- V74b: a `b` suffix traps even at `VL` = 0; V73b: a v3.1 prefix word as suffix is refused. -/
theorem test_sv_stops :
    faultWith (exec (.sv 0 0x48000008#32) (small 0 [])) (.illegalInstruction 0x1000#64) = true ∧
      refusedWith (exec (.sv 0 0x04000000#32) (small 2 [])) .suffixIsPrefix = true := by decide +kernel

/-- R116: at `VL` = 0 the four-operand pair advances `pc` and writes no destination; V102: EXTRA2_MODE set traps. -/
theorem test_1p3s1d :
    nextWith (exec (.svRm1p3s1d zeroCommon ⟨2, 1, 3, 0, false⟩ sfx4) (small 0 [(8, 0xEE), (9, 0xEE)]))
      (fun t => decide (gprs t [8, 9] = [0xEE, 0xEE] ∧ t.pc = 0x1008#64)) = true ∧
    faultWith (exec (.svRm1p3s1d zeroCommon ⟨2, 1, 3, 0, true⟩ sfx4) (small 2 [])) (.illegalInstruction 0x1000#64) = true := by
  decide +kernel

/-- R116 and R122 on the three remaining formats, whose suffix here is a load. -/
theorem test_other_formats :
    nextWith (exec (.svRm2p2s1d zeroCommon ⟨2, 1, 3, 5⟩ (.other 0#32 (prof4 (some .rm2p2s1d) [.rdest, .rsrc1, .rsrc2])))
      (small 0 [])) (fun t => decide (t.pc = 0x1008#64)) = true ∧
    nextWith (exec (.svRm2p1s2d zeroCommon ⟨2, 1, 3, 5⟩ (.other 0#32 (prof4 (some .rm2p1s2d) [.rsrc1, .rdest, .rdest2])))
      (small 0 [])) (fun t => decide (t.pc = 0x1008#64)) = true ∧
    refusedWith (exec (.svRm2p3s zeroCommon ⟨2, 1, 3, 5⟩
      (.other 0#32 (prof4 (some .rm2p3s) [.rsrc1, .rsrc2, .rsrc3] .gpr .ldst))) (small 2 [])) .ldstModeNotInSource = true := by
  decide +kernel

/-- Hand calculation from R221: 7 + 8. -/
theorem test_add : nextWith (exec (.add 3 4 5) (small 2 [(4, 7), (5, 8)]))
    (fun t => decide (gprs t [3, 4, 5] = [15, 7, 8] ∧ t.pc = 0x1004#64)) = true := by decide +kernel

/-- Hand calculation from R222: 0 - 1 wraps; RA = 0 is the constant zero, not `r0`. -/
theorem test_addi :
    nextWith (exec (.addi 3 3 0xFFFF) (small 2 [])) (fun t => decide (gprs t [3] = [0xFFFFFFFFFFFFFFFF])) = true ∧
    nextWith (exec (.addi 3 0 5) (small 2 [(0, 100)])) (fun t => decide (gprs t [3] = [5])) = true := by decide +kernel

/-- Program 2's forward `b`, and a `b` to the word before it (hand calculation from R223). -/
theorem test_b :
    nextWith (exec (.b 3) (small 2 [])) (fun t => decide (t.pc = 0x100C#64)) = true ∧
    nextWith (exec (.b 0xFFFFFF) (small 2 [])) (fun t => decide (t.pc = 0xFFC#64)) = true := by decide +kernel

/-- Hand calculation from R224 and R51: the word at 0x100, in both byte orders, zero-extended. -/
theorem test_lwz :
    nextWith (exec (.lwz 5 4 0xFFFC) { small 1 [(4, 0x104)] with mem := [(0x100, 0x88#8), (0x103, 0xF5#8)] })
      (fun t => decide (gprs t [5] = [0xF5000088])) = true ∧
    nextWith (exec (.lwz 5 4 0xFFFC) { small 1 [(4, 0x104)] with mem := [(0x100, 0x88#8), (0x103, 0xF5#8)], le := false })
      (fun t => decide (gprs t [5] = [0x880000F5])) = true := by decide +kernel

/-- Hand calculation from R225 and R51: a big-endian store over listed bytes; storing an unlisted byte's value delists. -/
theorem test_stw :
    nextWith (exec (.stw 5 0 0x100) { small 1 [(5, 0xFFFFFFFF00223344)] with le := false, mem := [(0x100, 9#8), (0x104, 7#8)] })
      (fun t => decide (t.mem = [(0x101, 0x22#8), (0x102, 0x33#8), (0x103, 0x44#8), (0x104, 7#8)] ∧
        t.stored = [0x100, 0x101, 0x102, 0x103])) = true := by decide +kernel

/-- V78: a pair that crosses a 64-byte block; V79: a v3.1 prefix word; V66: an integer predicate beyond bit 63. -/
theorem test_refusals :
    refusedWith (step (placeWords (small 1 []) 0x103C#64 [0x05402480#32, 0x7C443214#32])) .pairCrosses64 = true ∧
    refusedWith (step ((small 1 []).withFetchWord 32 0x04000000)) .v31PrefixWord = true ∧
    refusedWith (exec (.svRm1p2s1d { zeroCommon with elwidth := 3, elwidthSrc := 3, mask := 2 } ⟨4, 4, 4⟩ (.add 2 4 6))
      (small 65 [(3, 1)])) .intPredicateBeyond63 = true := by decide +kernel

/-- R62 in the order of R246: a load-reserve suffix is a no-operation at `VL` = 0 and refused beyond identity. -/
theorem test_atomic_suffix :
    nextWith (exec (.svRm2p1s1d zeroCommon ⟨0, 0, 0⟩
      (.other 0#32 { prof4 (some .rm2p1s1d) [.rdest, .rsrc1] .gpr .ldst with atomic := true })) (small 0 []))
      (fun t => decide (t.pc = 0x1008#64)) = true ∧
    refusedWith (exec (.svRm2p1s1d zeroCommon ⟨0, 0, 0⟩
      (.other 0#32 { prof4 (some .rm2p1s1d) [.rdest, .rsrc1] .gpr .ldst with atomic := true })) (small 2 []))
      .atomicSuffix = true := by decide +kernel

/-- R171, R174: a CR-predicated pair with a CR-field destination. With SUBVL = 2 and `VL` = 1, writing CR32 at the first
sub-element while the second waits is refused; with SUBVL = 1 nothing is pending and it runs. -/
theorem test_cr_predicate_overwritten :
    refusedWith (exec (.svRm1p2s1d { zeroCommon with maskMode := true, subvl := 1 } ⟨4, 0, 0⟩
      (.other 0#32 (normalProfile "op" 64 .rm1p2s1d [⟨.rdest, .crField, 2⟩] false))) (small 1 [] [(32, 8)]))
      .crPredicateOverwritten = true ∧
    nextWith (exec (.svRm1p2s1d { zeroCommon with maskMode := true } ⟨4, 0, 0⟩
      (.other 0#32 (normalProfile "op" 64 .rm1p2s1d [⟨.rdest, .crField, 2⟩] false))) (small 1 [] [(32, 8)]))
      (fun _ => true) = true := by decide +kernel

/-- R171 in `Loop2P`: a scalar source's element 0 is pending while the destination goes on, and not after its last step. -/
theorem test_cr_predicate_overwritten_twin :
    refusedWith (exec (.svRm2p1s1d { zeroCommon with maskMode := true } ⟨4, 0, 0⟩
      (.other 0#32 (normalProfile "op" 64 .rm2p1s1d [⟨.rdest, .crField, 2⟩, ⟨.rsrc1, .gpr, 4⟩] false)))
      (small 2 [] [(32, 8), (33, 8)])) .crPredicateOverwritten = true ∧
    nextWith (exec (.svRm2p1s1d { zeroCommon with maskMode := true } ⟨4, 0, 0⟩
      (.other 0#32 (normalProfile "op" 64 .rm2p1s1d [⟨.rdest, .crField, 2⟩, ⟨.rsrc1, .gpr, 4⟩] false)))
      (small 1 [] [(32, 8)])) (fun _ => true) = true := by decide +kernel

/-! ## Witnesses: every statement's hypotheses are met -/

/-- The reset launch admits every address. -/
theorem admits_all (vl : Nat) (g c : List (Nat × Nat)) (a : Nat) (h : a < 2 ^ 64) : (small vl g c).launch.admits a = true := by
  simpa [small, State.reset, Launch.admits, AddrRange.holds] using h

theorem witness_PrefixWordsAndRmCorrespond : isSvp64Prefix 0x05402480#32 = true := by decide

theorem witness_DecodeOfEncodeIsTheInstruction :
    (Instr.svRm1p3s1d zeroCommon ⟨2, 1, 3, 0, true⟩ sfx4).wellFormed sampleBase = true ∧
      (Instr.stw 31 31 0xFFFF).wellFormed sampleBase = true := by decide

theorem witness_EncodeOfDecodeIsTheWords :
    decode .test [0x05402480#32, 0x7C443214#32] = .instr (.svRm1p2s1d zeroCommon ⟨4, 4, 4⟩ (.add 2 4 6)) := by decide

theorem witness_SuffixIsDecodedAsIfAlone :
    isPrefixWord 0x7C443214#32 = false ∧ decodeSuffix .test 0x7C443214#32 = some (.add 2 4 6) ∧
      (suffixProfile (.add 2 4 6)).rmFormat = some .rm1p2s1d := by decide

/-- Both at the end of the file: the last byte of `r127`. -/
theorem witness_ElementIsItsBytes : (8 : Nat) = 8 ∧ 8 * 127 + 7 * (8 / 8) + 8 / 8 ≤ 1024 := by decide

/-- One byte past the end of the file. -/
theorem witness_ElementPastEndIsRefused : 1024 < 8 * 127 + 8 * (8 / 8) + 8 / 8 := by decide

/-- The highest aligned word, in `lwz` and `stw` alike. -/
theorem witness_aligned_admitted_access :
    (small 1 []).mem.wf = true ∧ (effAddr (small 1 []) 0 0xFFFC).toNat % 4 = 0 ∧
      ∀ k < 4, (small 1 []).launch.admits ((effAddr (small 1 []) 0 0xFFFC).toNat + k) = true := by decide +kernel

theorem witness_StoreThenLoadReturnsTheWord :
    (small 1 []).mem.wf = true ∧ ∃ t, exec (.stw 5 0 0xFFFC) (small 1 []) = .next t :=
  ⟨by decide, exists_next (by decide +kernel)⟩

/-- A state that admits one word only. -/
def oneWord : State := { small 1 [] with launch := { State.reset.launch with admitted := [⟨0x1000, 4⟩] } }

theorem witness_BadAccessIsRefused :
    (effAddr oneWord 0 1).toNat % 4 ≠ 0 ∧ (effAddr oneWord 0 0x1004).toNat % 4 = 0 ∧
      ∃ k < 4, oneWord.launch.admits ((effAddr oneWord 0 0x1004).toNat + k) = false := by decide +kernel

theorem witness_StepRunsTheDecodedInstruction :
    fetchWords (placeWords (small 1 []) 0x1000#64 [0x7C642A14#32]) = .ok [0x7C642A14#32] ∧
      decode (placeWords (small 1 []) 0x1000#64 [0x7C642A14#32]).launch.base [0x7C642A14#32] = .instr (.add 3 4 5) := by
  decide +kernel

/-- A state with the pair of V20 in memory at the last place of a 64-byte block where a pair does not cross it. -/
def paired : State := placeWords (small 1 []) 0x1038#64 [0x05402480#32, 0x7C443214#32]

theorem paired_fetchable :
    (addrsFrom paired.pc 8).all
      (fun x => decide (paired.launch.admits x.toNat = true ∧ x.toNat ∉ paired.stored)) = true := by decide +kernel

theorem witness_FetchGivesTheWordsAtPc :
    paired.pc.toNat % 4 = 0 ∧
    (∀ x ∈ addrsFrom paired.pc (4 * (encode (.svRm1p2s1d zeroCommon ⟨4, 4, 4⟩ (.add 2 4 6))).length),
      paired.launch.admits x.toNat = true ∧ x.toNat ∉ paired.stored) ∧
    (addrsFrom paired.pc (4 * (encode (.svRm1p2s1d zeroCommon ⟨4, 4, 4⟩ (.add 2 4 6))).length)).map
        (fun x => paired.mem.read x.toNat) =
      (encode (.svRm1p2s1d zeroCommon ⟨4, 4, 4⟩ (.add 2 4 6))).flatMap (bytesOfInsn paired.le) ∧
    paired.pc.toNat % 64 ≠ 60 :=
  ⟨by decide +kernel, fun x hx => of_decide_eq_true (List.all_eq_true.mp paired_fetchable x hx), by decide +kernel,
   by decide +kernel⟩

theorem witness_StepOnOtherWords :
    fetch32 (placeWords (small 1 []) 0x1000#64 [0x04000000#32]) 0x1000#64 = .ok 0x04000000#32 ∧
      isSvp64Prefix 0x04000000#32 = false ∧ isPrefixWord 0x04000000#32 = true ∧
      BaseTable.test.coversPrefix 0x04000000#32 = false ∧
    fetch32 (placeWords (small 1 []) 0x1000#64 [0x00000001#32]) 0x1000#64 = .ok 0x00000001#32 ∧
      isPrefixWord 0x00000001#32 = false ∧ decodeSuffix .test 0x00000001#32 = none ∧
    fetch32 (placeWords (small 1 []) 0x1000#64 [0x10443230#32]) 0x1000#64 = .ok 0x10443230#32 ∧
      isPrefixWord 0x10443230#32 = false ∧ decodeSuffix sampleBase 0x10443230#32 = some sfx4 := by
  decide +kernel

/-- A state with a v3.1 prefixed instruction of `sampleBase` in memory. -/
def v31 (w : Insn) : State := placeWords (withPrefixed (small 1 [])) 0x1038#64 [0x06000000#32, w]

theorem witness_StepOnOtherWords_prefixed :
    fetch32 (v31 0x38600005#32) (v31 0x38600005#32).pc = .ok 0x06000000#32 ∧
      (v31 0x38600005#32).launch.base.coversPrefix 0x06000000#32 = true ∧ (v31 0x38600005#32).pc.toNat % 64 ≠ 60 ∧
      fetch32 (v31 0x38600005#32) ((v31 0x38600005#32).pc + 4#64) = .ok 0x38600005#32 ∧
      prefixedLookup (v31 0x38600005#32).launch.base.prefixed 0x06000000#32 0x38600005#32 =
        some ⟨0xFFFC0000#32, 0x06000000#32, 0xFC000000#32, 0x38000000#32, false⟩ ∧
    fetch32 (v31 0#32) ((v31 0#32).pc + 4#64) = .ok 0#32 ∧
      prefixedLookup (v31 0#32).launch.base.prefixed 0x06000000#32 0#32 = none := by
  decide +kernel

theorem witness_BadFetchIsRefused :
    (({ small 1 [] with pc := 0x1002#64 }).pc.toNat % 4 ≠ 0) ∧
    (({ oneWord with pc := 0x1004#64 }).pc.toNat % 4 = 0 ∧ oneWord.launch.admits (0x1004 + 3) = false) ∧
    (oneWord.pc.toNat % 4 = 0 ∧ ∀ k < 4, oneWord.launch.admits (oneWord.pc.toNat + k) = true) ∧
    (0x1000 + 3 ∈ ({ oneWord with stored := [0x1003] }).stored) := by decide +kernel

theorem witness_BadFetchIsRefused_crossing :
    fetch32 (placeWords (small 1 []) 0x103C#64 [0x05402480#32, 0x7C443214#32]) 0x103C#64 = .ok 0x05402480#32 ∧
      hasTwoWords (small 1 []).launch.base 0x05402480#32 = true ∧ (0x103C#64).toNat % 64 = 60 ∧ (small 1 []).launch.cross64 = false := by
  decide +kernel

theorem witness_VlZeroMakesEveryPairANop :
    (small 0 []).vl = 0 ∧ (suffixProfile (.add 2 4 6)).rmFormat ≠ none ∧
      reserved { zeroCommon with mode := 31 } (slotsOfExtra .rm1p2s1d 511) (suffixProfile (.add 2 4 6)) = false ∧
    decodeSuffix (small 0 []).launch.base 0x7C443214#32 = some (.add 2 4 6) ∧
      reserved (commonOfRm 0xFFFFFF) (slotsOfRm .rm1p2s1d 0xFFFFFF) (suffixProfile (.add 2 4 6)) = false := by decide

theorem witness_VlZeroMakesEveryPairANop_unprefixed :
    isPair (.add 1 2 3) = false ∧ ∃ t, exec (.add 1 2 3) (small 5 []) = .next t :=
  ⟨rfl, exists_next (by decide +kernel)⟩

/-- A suffix of the test subset, and a normal-class supplied one with its word. -/
theorem witness_IdentityPairActsAsItsSuffix :
    (small 1 []).vl = 1 ∧ (suffixProfile (.stw 5 4 0)).rmFormat = some .rm2p2s ∧ (suffixProfile (.stw 5 4 0)).cls ≠ .branch ∧
    (suffixProfile sfx4).rmFormat = some .rm1p3s1d ∧ (suffixProfile sfx4).cls ≠ .branch ∧
      isPrefixWord 0x10443230#32 = false ∧
      decodeSuffix (withPrefixed (small 1 [])).launch.base 0x10443230#32 = some sfx4 := by decide

theorem witness_IdentityOfSuppliedWordReachesBaseRegistersOnly :
    (small 1 []).vl = 1 ∧ (small 1 []).mem.wf = true ∧ (∀ a < 2 ^ 64, (small 1 []).launch.admits a = true) ∧
      (prof4 (some .rm2p3s) [.rsrc1, .rsrc2, .rsrc3] .gpr .ldst).rmFormat = some .rm2p3s ∧
      (prof4 (some .rm2p3s) [.rsrc1, .rsrc2, .rsrc3] .gpr .ldst).cls = .ldst ∧
      (prof4 (some .rm1p2s1d) [.rdest] .crBit .crop).cls = .crop ∧
      (prof4 (some .rm2p3s) [.rsrc1, .rsrc2, .rsrc3] .gpr .ldst).mayRaise = false :=
  ⟨rfl, rfl, admits_all 1 [] [], rfl, rfl, rfl, rfl⟩

theorem witness_SuffixWithoutFormatNeverRuns :
    isPrefixWord 0x04000000#32 = true ∧ isPrefixWord 0#32 = false ∧ decodeSuffix (small 0 []).launch.base 0#32 = none ∧
      isPrefixWord 0x48000008#32 = false ∧ decodeSuffix (small 0 []).launch.base 0x48000008#32 = some (.b 2) ∧
      (suffixProfile (.b 2)).rmFormat = none := by decide

/-- A row that calls `sc` by its name and gives it an RM format. -/
theorem witness_SuffixWithoutFormatNeverRuns_named :
    isPrefixWord 0x10443230#32 = false ∧
      decodeSuffix (coverAll { sampleRow 0 (some .rm1p2s1d) [] with mnemonic := "sc" }) 0x10443230#32 =
        some (.other 0x10443230#32 { prof4 none [] with mnemonic := "sc" }) := by decide

/-- A destination under ELWIDTH and a source under ELWIDTH_SRC. -/
theorem witness_Bf16WidthTraps :
    (⟨.rdest, .fpr, 2⟩ : Operand) ∈ (suffixProfile (sfxFp)).operands ∧
      ({ zeroCommon with elwidth := 3 } : RmCommon).elwidth = 3#2 ∧
    (⟨.rsrc2, .fpr, 6⟩ : Operand) ∈ (suffixProfile (sfxFp)).operands ∧
      ({ zeroCommon with elwidthSrc := 3 } : RmCommon).elwidthSrc = 3#2 := by decide

theorem witness_FpSingleAtHalfWidthTraps :
    (suffixProfile (sfxFp true)).fpSingle = true ∧
      (⟨.rdest, .fpr, 2⟩ : Operand) ∈ (suffixProfile (sfxFp true)).operands ∧
      ({ zeroCommon with elwidth := 2 } : RmCommon).elwidth = 2#2 ∧
      (⟨.rsrc1, .fpr, 4⟩ : Operand) ∈ (suffixProfile (sfxFp true)).operands ∧
      ({ zeroCommon with elwidthSrc := 2 } : RmCommon).elwidthSrc = 2#2 := by decide

theorem witness_UnusedSlotMustBeZero :
    Role.rsrc2 ∈ formatRoles .rm1p2s1d ∧ (slotOf (slotsOfExtra .rm1p2s1d 1).entries .rsrc2).isZero = false ∧
      (∀ o ∈ (suffixProfile (.addi 2 4 1)).operands, o.role ≠ .rsrc2) ∧
      (suffixProfile sfx4).usesExtra2Mode = false := by decide

theorem witness_TrapsDependOnTheWordsAlone :
    faultWith (exec (.sv 0 0x48000008#32) (small 0 [])) (.illegalInstruction 0x1000#64) = true ∧
      (small 1 [(3, 1)]).launch.base = (small 0 []).launch.base := by decide +kernel

/-- A load-reserve suffix without a reserved value, beyond identity (`VL` = 2). -/
theorem witness_RefusalsOfActivePairsInOrder_atomic :
    (small 2 []).vl ≠ 0 ∧ ¬ (zeroCommon = zeroCommon ∧ 0#9 = 0#9 ∧ (small 2 []).vl = 1) ∧
    reserved zeroCommon (slotsOfExtra .rm2p1s1d 0)
      (suffixProfile (.other 0 { prof4 (some .rm2p1s1d) [.rdest, .rsrc1] .gpr .ldst with atomic := true })) = false := by
  decide

/-- A pair without a reserved value of each class, and each refused field. -/
theorem witness_RefusalsOfActivePairsInOrder :
    (small 2 []).vl ≠ 0 ∧ (suffixProfile (.add 2 4 6)).rmFormat ≠ none ∧
      reserved zeroCommon (slotsOfExtra .rm1p2s1d 292) (suffixProfile (.add 2 4 6)) = false ∧
      (suffixProfile (.add 2 4 6)).cls = .normal ∧
      reserved zeroCommon (slotsOfExtra .rm2p1s1d 0) (suffixProfile (.addi 2 0 6)) = false ∧
      reserved zeroCommon (slotsOfExtra .rm2p1s1d 0) (suffixProfile (.lwz 2 0 6)) = false ∧
      (suffixProfile (.lwz 2 0 6)).cls = .ldst ∧
      reserved zeroCommon (slotsOfExtra .rm2p3s 0) (suffixProfile sfx4) = false ∧
      (∀ k : RegKind, ∀ cls : SuffixClass, cls = .branch ∨ cls = .crop →
        reserved zeroCommon (slotsOfExtra .rm2p1s1d 0)
          (suffixProfile (.other 0 (prof4 (some .rm2p1s1d) [.rdest, .rsrc1] k cls))) = false) := by
  refine ⟨by decide, by decide, by decide, by decide, by decide, by decide, by decide, by decide, ?_⟩
  intro k cls h
  rcases h with rfl | rfl <;> cases k <;> decide

/-- The three refused fields, each on a pair without a reserved value: MODE, Rc, unequal widths. -/
theorem witness_RefusalsOfActivePairsInOrder_fields :
    reserved { zeroCommon with mode := 31 } (slotsOfExtra .rm1p2s1d 511) (suffixProfile (.add 2 4 6)) = false ∧
      reserved zeroCommon (slotsOfExtra .rm1p2s1d 511) (suffixProfile (.other 0
        { prof4 (some .rm1p2s1d) [.rdest, .rsrc1, .rsrc2] with rc := true })) = false ∧
      reserved { zeroCommon with elwidth := 3 } (slotsOfExtra .rm1p2s1d 0) (suffixProfile (.add 2 4 6)) = false := by
  decide

/-- `VL` as large as the file allows, from `r127` down: one 64-bit element at the last register, 8 bytes at 8 bits. -/
theorem witness_VectorAddIsTheLoopOfTheSource :
    8 * (4 * (31#5).toNat + (3#2).toNat) + (small 8 []).vl * (widthOf 3#2 / 8) ≤ 1024 ∧
      8 * (4 * (31#5).toNat + (3#2).toNat) + (small 1 []).vl * (widthOf 0#2 / 8) ≤ 1024 ∧ (4#5 ≠ 0#5) := by decide

theorem witness_PrefixedAddIsLoop1P :
    (small 2 [(3, 2)]).vl ≠ 0 ∧
    (∀ i < (small 2 [(3, 2)]).vl, predMask (small 2 [(3, 2)]) false 2#3 i = .ok (decide (i = 1))) ∧
    operandFits (tagged 31#5 4#3) 2 (subLen 1#2) (widthOf 0#2) ∧
    operandFits (tagged 31#5 2#3) 2 (subLen 1#2) (widthOf 0#2) ∧
    (small 2 [(3, 2)]).launch.base.leavesToSubset (encodeSuffix (.add 31 4 6)) = true := by
  unfold operandFits
  decide +kernel

/-- A scalar destination ends the loop at element 0, before the undefined test of element 64. -/
theorem witness_PrefixedAddIsLoop1P_scalar_destination :
    (tagged 5#5 0#3).1 = false ∧ predMask (small 65 [(3, 1)]) false 2#3 0 = .ok true ∧
      predMask (small 65 [(3, 1)]) false 2#3 64 = .error .intPredicateBeyond63 := by decide +kernel

/-- V70: element 4 of a vector at `r124`. -/
theorem witness_VectorPastTheFileIsRefused :
    (tagged 31#5 4#3).1 = true ∧ (∀ i' ≤ 4, predMask (small 5 []) false 0#3 i' = .ok true) ∧ 4 < (small 5 []).vl ∧
      0 < subLen 0#2 ∧ pastFile (tagged 31#5 4#3) 4 (subLen 0#2) 0 (widthOf 0#2) := by
  unfold pastFile
  decide +kernel

/-- Both masks of V90, CR masks being as in `witness_OverwritingAPredicateIsRefused`. -/
theorem witness_PrefixedAddiIsLoop2P :
    (small 4 [(3, 10), (10, 3)]).vl ≠ 0 ∧ (4#5 ≠ 0#5) ∧
    (∀ i < (small 4 [(3, 10), (10, 3)]).vl,
      predMask (small 4 [(3, 10), (10, 3)]) false 2#3 i = .ok (decide (i = 1 ∨ i = 3)) ∧
      predMask (small 4 [(3, 10), (10, 3)]) false 4#3 i = .ok (decide (i < 2))) ∧
    operandFits (tagged 2#5 4#3) 4 (subLen 0#2) (widthOf 0#2) ∧ operandFits (tagged 4#5 4#3) 4 (subLen 0#2) (widthOf 0#2) ∧
    (small 4 [(3, 10), (10, 3)]).launch.base.leavesToSubset (encodeSuffix (.addi 2 4 1)) = true := by
  unfold operandFits
  decide +kernel

theorem witness_DisabledElementsKeepTheirBytes :
    ∃ t, exec (.svRm1p2s1d zeroCommon ⟨4, 0, 0⟩ (.add 2 4 6)) (small 2 [(4, 1)]) = .next t ∧
      decide (fileByte t.gpr 64 ≠ fileByte (small 2 [(4, 1)]).gpr 64) = true :=
  exists_of_nextWith (by decide +kernel)

/-- R164's own case: `1 << R3` with `GPR[3]` = `VL`. -/
theorem witness_NoEnabledElementChangesOnlyPc :
    reserved { zeroCommon with mask := 1 } (slotsOfExtra .rm1p2s1d 292) (suffixProfile (.add 2 4 6)) = false ∧
    (suffixProfile (.add 2 4 6)).cls = .normal ∧ (suffixProfile (.add 2 4 6)).rc = false ∧ (small 4 [(3, 4)]).vl ≠ 0 ∧
    ∀ i < (small 4 [(3, 4)]).vl, predMask (small 4 [(3, 4)]) false 1#3 i = .ok false := by
  decide +kernel

theorem witness_SourceMaskPacksTheDestination :
    (4#5 ≠ 0#5) ∧ 4 * (2#5).toNat + (0#2).toNat + (small 2 [(3, 2)]).vl ≤ 128 ∧
    4 * (31#5).toNat + (2#2).toNat + (small 2 [(3, 2)]).vl ≤ 128 ∧
    4 * (2#5).toNat + (0#2).toNat + (small 2 [(3, 2)]).vl ≤ 4 * (31#5).toNat + (2#2).toNat ∧
    ∀ i < (small 2 [(3, 2)]).vl, predMask (small 2 [(3, 2)]) false 2#3 i = .ok (decide (i = 1)) := by
  decide +kernel

/-- For the four-operand, the floating-point and the CR-field pair of a supplied word. -/
theorem witness_pair_of_supplied_word :
    (small 1 []).vl = 1 ∧ zeroCommon.maskMode = false ∧ zeroCommon.mask = 0#3 ∧ zeroCommon.elwidth ≠ 3#2 ∧
      zeroCommon.elwidth = zeroCommon.elwidthSrc ∧ zeroCommon.subvl = 0#2 ∧ zeroCommon.mode = 0#5 ∧
      (⟨3, 3, 3, 3, false⟩ : Extra1p3s1d).extra2Mode = false := by decide

/-- A destination starting at CR field 48: its first element governs element 16, the last of seventeen. -/
theorem witness_OverwritingAPredicateIsRefused :
    operandFits (tagged 2#5 4#3) (small 17 [] [(32, 8)]).vl (subLen 0#2) (widthOf 0#2) ∧
      (∀ n ≤ 0, predMask (small 17 [] [(32, 8)]) true 0#3 n = .ok true) ∧ 0 < (small 17 [] [(32, 8)]).vl ∧
      (extendOperand ⟨.rdest, .crField, 3⟩ (.e3 4#3)).isVec = true ∧
      (extendOperand ⟨.rdest, .crField, 3⟩ (.e3 4#3)).num + refIndex true 0 (subLen 0#2) 0 = 32 + 16 ∧
      16 < (small 17 [] [(32, 8)]).vl := by
  unfold operandFits
  decide +kernel

/-- A CR-bit destination at CR field 32 with SUBVL = 2: its first sub-element writes the field that governs its second. -/
theorem witness_OverwritingAPredicateIsRefused_subvl :
    (extendOperand ⟨.rdest, .crBit, 8⟩ (.e3 4#3)).num +
        refIndex (extendOperand ⟨.rdest, .crBit, 8⟩ (.e3 4#3)).isVec 0 (subLen 1#2) 0 = 32 + 0 ∧ 0 + 1 < subLen 1#2 := by
  decide +kernel

theorem witness_CrBitElementIsOneBitOfItsField : (3 : Nat) < 4 ∧ 112 + 15 < 128 := by decide

/-- A predicate that enables element 0, under which a pair is and is not the identity. -/
theorem witness_ExceptionInTheLoopIsRefused :
    (small 1 [(3, 1)]).vl = 1 ∧ predMask (small 1 [(3, 1)]) false 0#3 0 = .ok true ∧
      predMask (small 1 [(3, 1)]) false 2#3 0 = .ok true := by decide +kernel

theorem witness_predicates_at_their_bounds : (63 : Nat) < 64 ∧ (95 : Nat) < 96 ∧ 2 ≤ (2#3).toNat ∧ (64 : Nat) ≤ 64 := by
  decide

/-- A state that meets the invariant, and its next state. -/
theorem witness_StepKeepsTheInvariant :
    (small 1 []).Inv ∧ ∃ t, exec (.addi 3 0 5) (small 1 []) = .next t :=
  ⟨⟨by decide, by decide, by decide, by decide, by decide, by simp [small, State.reset]⟩, exists_next (by decide +kernel)⟩

theorem witness_step_next : ∃ t, step (placeWords (small 1 []) 0x1000#64 [0x7C642A14#32]) = .next t :=
  exists_next (by decide +kernel)

theorem witness_UnprefixedReachesBaseRegistersOnly :
    isPair (.add 1 2 3) = false ∧ ∃ t, exec (.add 1 2 3) (small 5 []) = .next t :=
  ⟨rfl, exists_next (by decide +kernel)⟩

theorem witness_PairsTouchMemoryOnlyAtIdentity :
    isPair (.svRm1p2s1d zeroCommon ⟨4, 4, 4⟩ (.add 2 4 6)) = true ∧ ¬ (hasZeroPrefix (.svRm1p2s1d zeroCommon ⟨4, 4, 4⟩ (.add 2 4 6)) = true ∧ (small 2 []).vl = 1) ∧
      ∃ t, exec (.svRm1p2s1d zeroCommon ⟨4, 4, 4⟩ (.add 2 4 6)) (small 2 []) = .next t :=
  ⟨rfl, by decide, exists_next (by decide +kernel)⟩

end Sys2Proof.Tests
end

/-! ## Decoding: the suffix as if it stood alone (R6, R76, R113) -/

namespace Sys2Proof

/-- `isSvp64Prefix` picks out some of the words of primary opcode 1 (R73, R74). -/
theorem isPrefixWord_of_isSvp64Prefix {w : Insn} (h : isSvp64Prefix w = true) : isPrefixWord w = true := by
  simp only [isSvp64Prefix, decide_eq_true_eq] at h
  have hpo : primaryOpcode w = (w &&& 0xFD400000#32).extractLsb' 26 6 := by
    apply BitVec.eq_of_getLsbD_eq
    intro i hi
    interval_cases i <;> simp [primaryOpcode]
  simp only [isPrefixWord, hpo, h, decide_eq_true_eq]
  rfl

/-- `prefixOfRm` carries all of `RM` (R75). -/
theorem rmOfPrefix_prefixOfRm (rm : BitVec 24) : rmOfPrefix (prefixOfRm rm) = rm := by
  apply BitVec.eq_of_getLsbD_eq
  intro i hi
  interval_cases i <;> simp [rmOfPrefix, prefixOfRm, place]

/-- Behind the word that carries `RM` the decoder answers the pair (R90, R91). -/
theorem decode_prefixOfRm (base : BaseTable) (rm : BitVec 24) (w : Insn) (rest : List Insn) :
    decode base (prefixOfRm rm :: w :: rest) = .instr (decodePair base rm w) := by
  simp [decode, isSvp64Prefix_prefixOfRm, rmOfPrefix_prefixOfRm]

/-- A word not of primary opcode 1 is decoded by the suffix decoder alone (R91, R113). -/
theorem decode_unprefixed {base : BaseTable} {w : Insn} {sfx : Suffix} (rest : List Insn)
    (hp : isPrefixWord w = false) (hd : decodeSuffix base w = some sfx) :
    decode base (w :: rest) = decodedOfSuffix sfx := by
  have hs : isSvp64Prefix w = false :=
    Bool.eq_false_iff.mpr fun hs => Bool.eq_false_iff.mp hp (isPrefixWord_of_isSvp64Prefix hs)
  simp [decode, hs, hp, hd]

/-- A pair whose suffix has an RM format is the pair of that format with that suffix (R91). -/
theorem decodePair_eq_pairOf {base : BaseTable} (rm : BitVec 24) {w : Insn} {sfx : Suffix} {f : RmFormat}
    (hp : isPrefixWord w = false) (hd : decodeSuffix base w = some sfx) (hf : (suffixProfile sfx).rmFormat = some f) :
    decodePair base rm w = Machine.pairOf f (commonOfRm rm) (extraOfRm rm) sfx := by
  cases f <;> simp [decodePair, hp, hd, hf, Machine.pairOf]

@[simp] theorem pairSuffix_pairOf (f : RmFormat) (c : RmCommon) (e : BitVec 9) (sfx : Suffix) :
    Machine.pairSuffix (Machine.pairOf f c e sfx) = some sfx := by
  cases f <;> rfl

/-- Settles O8: both decoders call the same suffix decoder, and the split by format passes its answer on. -/
theorem suffixIsDecodedAsIfAlone : Obligations.SuffixIsDecodedAsIfAlone := by
  intro base rm w rest sfx f hp hd hf
  refine ⟨decode_unprefixed rest hp hd, _, decode_prefixOfRm base rm w rest, ?_⟩
  rw [decodePair_eq_pairOf rm hp hd hf, pairSuffix_pairOf]

end Sys2Proof

/-! ## The invariant (R7, R31, R32, R58) -/

namespace Sys2Proof.Machine

/-! ### Multiples of 4 -/

theorem toNat_add_mod_four {a b : Word} (ha : a.toNat % 4 = 0) (hb : b.toNat % 4 = 0) : (a + b).toNat % 4 = 0 := by
  rw [BitVec.toNat_add]
  omega

theorem toNat_mod_four_of_low_bits {a : Word} (h : ∀ k < 2, a.getLsbD k = false) : a.toNat % 4 = 0 := by
  have h0 := h 0 (by decide)
  have h1 := h 1 (by decide)
  rw [BitVec.getLsbD, Nat.testBit_eq_decide_div_mod_eq, decide_eq_false_iff_not] at h0 h1
  omega

/-- The displacement of `b` is a multiple of 4 (R223). -/
theorem branchOffset_mod_four (li : BitVec 24) : ((li ++ 0#2).signExtend 64).toNat % 4 = 0 := by
  refine toNat_mod_four_of_low_bits fun k hk => ?_
  rw [BitVec.getLsbD_signExtend, if_pos (by omega), BitVec.getLsbD_append, if_pos hk, BitVec.getLsbD_zero,
    Bool.and_false]

/-- What follows the supplied words is a multiple of 4, the target of a branch included (R32, R125). -/
theorem suppliedNext_mod_four (words : List Insn) (branch : Bool) {s : State} (h : s.pc.toNat % 4 = 0) :
    (suppliedNext words branch s).toNat % 4 = 0 := by
  cases branch with
  | true => exact toNat_mod_four_of_low_bits fun k hk => by simp [suppliedNext, hk]
  | false =>
    refine toNat_add_mod_four h ?_
    rw [BitVec.toNat_ofNat]
    omega

/-! ### One rule per update of the state -/

/-- Updates of the register files keep the invariant. -/
theorem State.Inv.of_regsOnly {s t : State} (h : s.Inv) (hr : RegsOnly s t) : t.Inv where
  pcAligned := hr.pc ▸ h.pcAligned
  maxVLPos := hr.launch ▸ h.maxVLPos
  vlBound := hr.vl ▸ hr.launch ▸ h.vlBound
  memWf := hr.mem ▸ h.memWf
  storedWf := hr.stored ▸ h.storedWf
  storedAdmitted := hr.stored ▸ hr.launch ▸ h.storedAdmitted

theorem State.Inv.setPc {s : State} (h : s.Inv) {a : Word} (ha : a.toNat % 4 = 0) : (s.setPc a).Inv :=
  { h with pcAligned := ha }

theorem State.Inv.advance {s : State} (h : s.Inv) {n : Nat} (hn : n % 4 = 0) : (advance s n).Inv := by
  refine h.setPc (toNat_add_mod_four h.pcAligned ?_)
  rw [BitVec.toNat_ofNat]
  omega

/-- Stores to admitted addresses keep the invariant. -/
theorem State.Inv.storeBytes {s : State} (h : s.Inv) {l : List (Word × Byte)}
    (hl : ∀ p ∈ l, s.launch.admits p.1.toNat = true) : (storeBytes s l).Inv := by
  obtain ⟨-, -, -, hvl, hpc, -, hlaunch⟩ := storeBytes_rest s l
  refine ⟨hpc ▸ h.pcAligned, hlaunch ▸ h.maxVLPos, ?_, storeBytes_memWf s l h.memWf,
    storeBytes_storedWf s l h.storedWf, ?_⟩
  · rw [hvl, hlaunch]
    exact h.vlBound
  · intro a ha
    rw [hlaunch]
    rcases mem_storeBytes_stored.mp ha with hs | ⟨p, hp, rfl⟩
    · exact h.storedAdmitted a hs
    · exact hl p hp

theorem setGprField_regsOnly (s : State) (r : BitVec 5) (v : Word) : RegsOnly s (setGprField s r v) :=
  ⟨rfl, rfl, rfl, rfl, rfl, rfl⟩

theorem applyRegs_regsOnly (e : Config.BaseEffect) (s : State) : RegsOnly s (applyRegs e s) :=
  ⟨rfl, rfl, rfl, rfl, rfl, rfl⟩

/-! ### Unprefixed instructions -/

theorem store32_inv {s t : State} {a : Word} {v : BitVec 32} (h : s.Inv) (hs : store32 s a v = .ok t) : t.Inv := by
  obtain ⟨hc, rfl⟩ := store32_ok hs
  exact h.storeBytes fun p hp => (checkAccess_ok hc).2 p.1 (store32Bytes_addr hp)

/-- The free effect of supplied words keeps the invariant: it reaches registers, admitted bytes and an aligned `pc`. -/
theorem baseFree_inv {words : List Insn} {mayRaise branch : Bool} {s t : State} (h : s.Inv)
    (ht : baseFree words mayRaise branch s = .ok t) : t.Inv := by
  obtain ⟨-, hst⟩ := baseFree_ok ht
  obtain ⟨rfl, hadm⟩ := storeAdmitted_ok hst
  exact ((h.of_regsOnly (applyRegs_regsOnly _ s)).setPc (suppliedNext_mod_four words branch h.pcAligned)).storeBytes hadm

theorem baseElementWise_inv {word : Insn} {prof : Profile} {s t : State} (h : s.Inv)
    (ht : baseElementWise word prof s = .ok t) : t.Inv := by
  obtain ⟨u, hu, rfl⟩ := baseElementWise_ok ht
  exact (h.of_regsOnly ((elementStep_regsOnly hu).trans (recordRc_regsOnly word prof _ u))).advance rfl

theorem baseOther_inv {word : Insn} {prof : Profile} {s t : State} (h : s.Inv) (ht : baseOther word prof s = .ok t) :
    t.Inv := by
  rcases baseOther_ok ht with he | hf
  · exact baseElementWise_inv h he
  · exact baseFree_inv h hf

/-- `Base.exec` keeps the invariant, one case per suffix. -/
theorem baseExec_inv {sfx : Suffix} {s t : State} (h : s.Inv) (ht : baseExec sfx s = .ok t) : t.Inv := by
  cases sfx with
  | add rt ra rb =>
    cases ht
    exact (h.of_regsOnly (setGprField_regsOnly s rt _)).advance rfl
  | addi rt ra si =>
    cases ht
    exact (h.of_regsOnly (setGprField_regsOnly s rt _)).advance rfl
  | b li =>
    cases ht
    exact h.setPc (toNat_add_mod_four h.pcAligned (branchOffset_mod_four li))
  | lwz rt ra d =>
    obtain ⟨v, -, rfl⟩ := baseLwz_ok ht
    exact (h.of_regsOnly (setGprField_regsOnly s rt _)).advance rfl
  | stw rs ra d =>
    obtain ⟨u, hu, rfl⟩ := baseStw_ok ht
    exact (store32_inv h hu).advance rfl
  | other word prof => exact baseOther_inv h ht

/-! ### Pairs and steps -/

theorem identityExec_inv {sfx : Suffix} {s t : State} (h : s.Inv) (ht : identityExec sfx s = .ok t) : t.Inv := by
  obtain ⟨u, hu, rfl⟩ := identityExec_ok ht
  exact (baseExec_inv h hu).setPc (toNat_add_mod_four h.pcAligned rfl)

/-- A pair keeps the invariant: it passes on, is its unprefixed instruction, or loops over register files. -/
theorem execSvp64_inv {c : RmCommon} {x : Slots} {sfx : Suffix} {s t : State} (h : s.Inv)
    (ht : execSvp64 c x sfx s = .next t) : t.Inv := by
  obtain ⟨-, -, ⟨-, rfl⟩ | ⟨-, hact⟩⟩ := execSvp64_next ht
  · exact h.advance rfl
  · obtain ⟨-, ⟨-, -, hid⟩ | ⟨-, -, hnorm⟩⟩ := execActive_ok hact
    · exact identityExec_inv h hid
    · obtain ⟨-, -, -, -, u, hu, rfl⟩ := execNormal_ok hnorm
      exact (h.of_regsOnly (runLoop_regsOnly hu)).advance rfl

/-- An unsplit pair that answers a next state is the pair of its suffix's format (R114). -/
theorem execSv_next {rm : BitVec 24} {w : Insn} {s t : State} (h : execSv rm w s = .next t) :
    ∃ sfx f, decodeSuffix s.launch.base w = some sfx ∧ (suffixProfile sfx).rmFormat = some f ∧
      execSvp64 (commonOfRm rm) (slotsOfRm f rm) sfx s = .next t := by
  unfold execSv at h
  split at h
  · cases h
  · split at h
    · simp at h
    · next sfx hd =>
      split at h
      · simp at h
      · next f hf => exact ⟨sfx, f, hd, hf, h⟩

/-- All that an instruction can do when it answers a next state: the rule of the pair, or `Base.exec`. -/
theorem exec_next {i : Instr} {s t : State} (h : exec i s = .next t) :
    (isPair i = true ∧ ∃ c x sfx, execSvp64 c x sfx s = .next t) ∨
      (isPair i = false ∧ ∃ sfx, baseExec sfx s = .ok t) := by
  cases i with
  | sv rm w =>
    obtain ⟨sfx, f, -, -, hx⟩ := execSv_next h
    exact .inl ⟨rfl, _, _, sfx, hx⟩
  | svRm1p3s1d c x sfx => exact .inl ⟨rfl, c, slots1p3s1d x, sfx, h⟩
  | svRm1p2s1d c x sfx => exact .inl ⟨rfl, c, slots1p2s1d x, sfx, h⟩
  | svRm2p1s1d c x sfx => exact .inl ⟨rfl, c, slots2p1s1d x, sfx, h⟩
  | svRm2p2s c x sfx => exact .inl ⟨rfl, c, slots2p2s x, sfx, h⟩
  | svRm2p2s1d c x sfx => exact .inl ⟨rfl, c, slots2p2s1d x, sfx, h⟩
  | svRm2p1s2d c x sfx => exact .inl ⟨rfl, c, slots2p1s2d x, sfx, h⟩
  | svRm2p3s c x sfx => exact .inl ⟨rfl, c, slots2p3s x, sfx, h⟩
  | add rt ra rb => cases h; exact .inr ⟨rfl, .add rt ra rb, rfl⟩
  | addi rt ra si => cases h; exact .inr ⟨rfl, .addi rt ra si, rfl⟩
  | b li => cases h; exact .inr ⟨rfl, .b li, rfl⟩
  | lwz rt ra d => exact .inr ⟨rfl, .lwz rt ra d, outcomeOf_next.mp h⟩
  | stw rs ra d => exact .inr ⟨rfl, .stw rs ra d, outcomeOf_next.mp h⟩

theorem exec_inv {i : Instr} {s t : State} (h : s.Inv) (ht : exec i s = .next t) : t.Inv := by
  rcases exec_next ht with ⟨-, c, x, sfx, hpair⟩ | ⟨-, sfx, hbase⟩
  · exact execSvp64_inv h hpair
  · exact baseExec_inv h hbase

/-- Settles O56, by the cases of a step: a row of the opcode table, a supplied word, a supplied v3.1 prefixed
instruction. -/
theorem stepKeepsTheInvariant : Obligations.StepKeepsTheInvariant := by
  intro s t h hstep
  obtain ⟨ws, -, ⟨i, -, hi⟩ | ⟨word, prof, -, hw⟩ | ⟨pfx, sfx, row, -, hp⟩⟩ := step_next hstep
  · exact exec_inv h hi
  · exact baseOther_inv h hw
  · exact baseFree_inv h hp

end Sys2Proof.Machine

/-! ## One element operation over three GPRs (R119, R126) -/

namespace Sys2Proof.Machine

/-! ### Element 0 of a register -/

theorem widthOf_le (ew : BitVec 2) : widthOf ew ≤ 64 := by
  have h : (8 : Nat) <<< (3 - ew.toNat) ≤ 8 <<< 3 := by
    simp only [Nat.shiftLeft_eq]
    exact Nat.mul_le_mul_left 8 (Nat.pow_le_pow_right (by decide) (Nat.sub_le 3 _))
  simpa [widthOf] using h

/-- Element 0 of any of the 128 registers lies in the file, at every width (R26). -/
theorem elInFile_zero {n w : Nat} (hn : n < 128) (hw : w ≤ 64) : elInFile n 0 w = true := by
  have hbytes : w / 8 ≤ 8 := Nat.div_le_div_right (c := 8) hw
  simp only [elInFile, Config.nreg, Nat.zero_mul, decide_eq_true_eq]
  omega

theorem exists_elRead {n e w : Nat} (f : RegFile) (h : elInFile n e w = true) : ∃ v, elRead f n e w = .ok v :=
  ⟨_, by rw [elRead, if_pos h]⟩

theorem exists_elWrite {n e w : Nat} (f : RegFile) (v : Word) (h : elInFile n e w = true) :
    ∃ g, elWrite f n e w v = .ok g :=
  ⟨_, by rw [elWrite, if_pos h]⟩

theorem tagged_lt (r : BitVec 5) (v : BitVec 3) : (tagged r v).2 < 128 := (extend r (.e3 v)).2.isLt

/-- The operand a 5-bit GPR field and an EXTRA3 value name (R206). -/
def gprOperand (r : BitVec 5) (v : BitVec 3) : ExtOperand := ⟨.gpr, (tagged r v).1, (tagged r v).2, 0⟩

/-- At the first sub-element of iteration 0 every operand is at element 0 (R119). -/
@[simp] theorem elIndex_zero (o : ExtOperand) (sv : Nat) : elIndex o 0 sv 0 = 0 := by simp [elIndex]

@[simp] theorem readEl_gprOperand (s : State) (r : BitVec 5) (v : BitVec 3) (e w : Nat) :
    readEl s (gprOperand r v) e w = elRead s.gpr (tagged r v).2 e w := rfl

theorem writeEl_gprOperand {clash : Nat → Bool} {s : State} {r : BitVec 5} {v : BitVec 3} {e w : Nat} {d : Word}
    {g : RegFile} (h : elWrite s.gpr (tagged r v).2 e w d = .ok g) :
    writeEl clash s (gprOperand r v) e w d = .ok (s.setGpr g) := by
  simp [writeEl, gprOperand, h]

/-- Element 0 of two GPR sources and a GPR destination: the operation raises, or writes its first result (R119, R126). -/
theorem elementStep_threeGpr {clash : Nat → Bool} {sfx : Suffix} {ft fa fb : BitVec 5} {x : Extra1p2s1d} {w sv : Nat}
    {s : State} {a b : Word} {g : RegFile} (ha : elRead s.gpr (tagged fa x.rsrc1).2 0 w = .ok a)
    (hb : elRead s.gpr (tagged fb x.rsrc2).2 0 w = .ok b)
    (hg : elWrite s.gpr (tagged ft x.rdest).2 0 w (elementOp sfx w [a, b]).1 = .ok g) :
    elementStep clash sfx [gprOperand fa x.rsrc1, gprOperand fb x.rsrc2] [gprOperand ft x.rdest] w sv 0 0 0 s =
      if elementRaises sfx w [a, b] then .error .exceptionInsideLoop else .ok (s.setGpr g) := by
  simp [elementStep, readEls, writeEls, ha, hb, writeEl_gprOperand hg]

/-! ### The loop at `VL` = 1 -/

/-- A sub-vector of one element is one element operation (R151). -/
theorem subLoop_one (clash : Nat → Nat → Bool) (c : LoopCtx) (i d j : Nat) (s : State) :
    subLoop clash c i d 1 j s = elementStep (clash j) c.sfx c.srcs c.dsts c.w c.sv i d j s := by
  simp only [subLoop]
  cases elementStep (clash j) c.sfx c.srcs c.dsts c.w c.sv i d j s <;> rfl

/-- `Loop1P` with one enabled element and no sub-vector is that element operation (R119). -/
theorem loop1P_one {c : LoopCtx} {s : State} (hvl : s.vl = 1) (hm : predMask s c.maskMode c.mask 0 = .ok true)
    (hsv : c.sv = 1) :
    loop1P c s = elementStep (crClash c.maskMode 1 (pending1P (scalarDest c.dsts) 1 0 0)) c.sfx c.srcs c.dsts c.w
      1 0 0 0 s := by
  simp only [loop1P, hvl, loop1PFrom, hm, hsv, subLoop_one]
  cases elementStep (crClash c.maskMode 1 (pending1P (scalarDest c.dsts) 1 0 0)) c.sfx c.srcs c.dsts c.w 1 0 0 0 s with
  | error r => rfl
  | ok t => exact ite_self _

/-! ### The pair of a normal-class suffix -/

/-- A 1P pair that no test of R114 refuses: the unprefixed instruction at identity, else the loop. -/
theorem execActive_normal {c : RmCommon} {x : Slots} {sfx : Suffix} {s : State}
    (hcls : (suffixProfile sfx).cls = .normal) (hat : (suffixProfile sfx).atomic = false)
    (hrc : (suffixProfile sfx).rc = false) (hadd : isAddiRa0 sfx = false) (hfmt : isTwin x.fmt = false)
    (hmode : c.mode = 0#5) (hew : c.elwidth = c.elwidthSrc) :
    execActive c x sfx s =
      if rmIsZero c x && decide (s.vl = 1) then identityExec sfx s
      else (loop1P (loopCtx c x sfx) s).map (advance · 8) := by
  have hloop : execNormal c x sfx s = (loop1P (loopCtx c x sfx) s).map (advance · 8) := by
    simp only [execNormal, runLoop, hmode, hrc, hew, hadd, hfmt, ne_eq, not_true_eq_false, Bool.false_eq_true, if_false]
    cases loop1P (loopCtx c x sfx) s <;> rfl
  simp only [execActive, hcls, hat, hloop]
  rfl

/-- `RM` is all zeros exactly when its common fields and its three slots are (R94). -/
theorem rmIsZero_slots1p2s1d (c : RmCommon) (x : Extra1p2s1d) :
    rmIsZero c (slots1p2s1d x) = decide (c = zeroCommon ∧ x = ⟨0#3, 0#3, 0#3⟩) := by
  obtain ⟨mm, m, ew, ews, sv, md⟩ := c
  obtain ⟨d, a, b⟩ := x
  rw [Bool.eq_iff_iff]
  simp [rmIsZero, slotsAreZero, slots1p2s1d, ExtraVal.isZero, zeroCommon, and_assoc]

/-! ### A supplied word over three GPRs -/

/-- A supplied RM-1P-2S1D profile of a destination and two source GPRs. -/
def threeGprProfile (mn : String) (dw : Nat) (ft fa fb : BitVec 5) (mayRaise : Bool) : Profile :=
  normalProfile mn dw .rm1p2s1d [⟨.rdest, .gpr, ft⟩, ⟨.rsrc1, .gpr, fa⟩, ⟨.rsrc2, .gpr, fb⟩] mayRaise

/-- A supplied suffix of that profile. -/
def threeGprSuffix (mn : String) (dw : Nat) (word : Insn) (ft fa fb : BitVec 5) (mayRaise : Bool) : Suffix :=
  .other word (threeGprProfile mn dw ft fa fb mayRaise)

section
variable (mn : String) (dw : Nat) (word : Insn) (ft fa fb : BitVec 5) (mayRaise : Bool)

/-- No value of `RM` is reserved for it: it has no FPR operand, and an operand for every slot (R95). -/
theorem reserved_threeGprSuffix (c : RmCommon) (x : Extra1p2s1d) :
    reserved c (slots1p2s1d x) (suffixProfile (threeGprSuffix mn dw word ft fa fb mayRaise)) = false := by
  simp [reserved, reservedBf16, reservedFpSingle, reservedUnused, threeGprSuffix, threeGprProfile, suffixProfile,
    normalProfile, slots1p2s1d]

@[simp] theorem elementRaises_threeGprSuffix (w : Nat) (vs : List Word) :
    elementRaises (threeGprSuffix mn dw word ft fa fb mayRaise) w vs = (mayRaise && Config.elementRaises word w vs) := rfl

theorem loopCtx_threeGprSuffix (c : RmCommon) (x : Extra1p2s1d) :
    loopCtx c (slots1p2s1d x) (threeGprSuffix mn dw word ft fa fb mayRaise) =
      { sfx := threeGprSuffix mn dw word ft fa fb mayRaise
        srcs := [gprOperand fa x.rsrc1, gprOperand fb x.rsrc2]
        dsts := [gprOperand ft x.rdest]
        w := widthOf c.elwidth
        sv := subLen c.subvl
        maskMode := c.maskMode
        mask := c.mask
        maskSrc := 0#3 } := by
  have himp : implicitDests (threeGprSuffix mn dw word ft fa fb mayRaise) (slots1p2s1d x) = [] := by
    simp [implicitDests, threeGprSuffix, threeGprProfile, baseImplicitDests, normalProfile]
  simp only [loopCtx, himp]
  rfl

/-- Such a pair at `VL` = 1: the unprefixed instruction at identity, else `Loop1P` (R114). -/
theorem exec_threeGprSuffix {c : RmCommon} {x : Extra1p2s1d} {s : State} (hvl : s.vl = 1) (hmode : c.mode = 0#5)
    (hew : c.elwidth = c.elwidthSrc) :
    exec (.svRm1p2s1d c x (threeGprSuffix mn dw word ft fa fb mayRaise)) s =
      outcomeOf (if c = zeroCommon ∧ x = ⟨0#3, 0#3, 0#3⟩ then identityExec (threeGprSuffix mn dw word ft fa fb mayRaise) s
        else (loop1P (loopCtx c (slots1p2s1d x) (threeGprSuffix mn dw word ft fa fb mayRaise)) s).map (advance · 8)) := by
  have hfmt : (suffixProfile (threeGprSuffix mn dw word ft fa fb mayRaise)).rmFormat ≠ none := by
    simp [threeGprSuffix, threeGprProfile, suffixProfile, normalProfile]
  have hact := execActive_normal (c := c) (x := slots1p2s1d x) (sfx := threeGprSuffix mn dw word ft fa fb mayRaise)
    (s := s) rfl rfl rfl rfl rfl hmode hew
  simp only [rmIsZero_slots1p2s1d, hvl, decide_true, Bool.and_true, decide_eq_true_eq] at hact
  simp only [exec, execSvRm1p2s1d, execSvp64, reserved_threeGprSuffix, if_neg hfmt, hvl, hact, Bool.false_eq_true,
    one_ne_zero, if_false]

/-- Its loop at `VL` = 1 is the one element operation: an exception refuses it (R119, R126). -/
theorem loop1P_threeGprSuffix {c : RmCommon} {x : Extra1p2s1d} {s : State} {a b : Word} {g : RegFile} (hvl : s.vl = 1)
    (hm : predMask s c.maskMode c.mask 0 = .ok true) (hsv : c.subvl = 0#2)
    (ha : elRead s.gpr (tagged fa x.rsrc1).2 0 (widthOf c.elwidth) = .ok a)
    (hb : elRead s.gpr (tagged fb x.rsrc2).2 0 (widthOf c.elwidth) = .ok b)
    (hg : elWrite s.gpr (tagged ft x.rdest).2 0 (widthOf c.elwidth)
      (Config.elementOp word (widthOf c.elwidth) [a, b]).1 = .ok g) :
    loop1P (loopCtx c (slots1p2s1d x) (threeGprSuffix mn dw word ft fa fb mayRaise)) s =
      if mayRaise && Config.elementRaises word (widthOf c.elwidth) [a, b] then .error .exceptionInsideLoop
      else .ok (s.setGpr g) := by
  rw [loopCtx_threeGprSuffix, loop1P_one hvl hm (congrArg subLen hsv)]
  exact elementStep_threeGpr ha hb hg

/-- Its unprefixed form is the element operation on whole scalar registers, an exception being the base ISA's (R5, R117). -/
theorem baseExec_threeGprSuffix {s : State} {a b : Word} {g : RegFile}
    (ha : elRead s.gpr (tagged fa 0#3).2 0 64 = .ok a) (hb : elRead s.gpr (tagged fb 0#3).2 0 64 = .ok b)
    (hg : elWrite s.gpr (tagged ft 0#3).2 0 64 (Config.elementOp word 64 [a, b]).1 = .ok g) :
    baseExec (threeGprSuffix mn dw word ft fa fb mayRaise) s =
      if mayRaise && Config.elementRaises word 64 [a, b] then .error .baseException
      else .ok (advance (s.setGpr g) 4) := by
  have hstep : elementStep (fun _ => false) (threeGprSuffix mn dw word ft fa fb mayRaise)
      (sourcesOf (threeGprProfile mn dw ft fa fb mayRaise) noSlots)
      (destsOf (threeGprProfile mn dw ft fa fb mayRaise) noSlots ++
        baseImplicitDests word (threeGprProfile mn dw ft fa fb mayRaise)) 64 1 0 0 0 s =
      if mayRaise && Config.elementRaises word 64 [a, b] then .error .exceptionInsideLoop else .ok (s.setGpr g) :=
    elementStep_threeGpr (x := ⟨0#3, 0#3, 0#3⟩) ha hb hg
  have hbase : baseExec (threeGprSuffix mn dw word ft fa fb mayRaise) s =
      baseElementWise word (threeGprProfile mn dw ft fa fb mayRaise) s := rfl
  rw [hbase, baseElementWise, ← threeGprSuffix, hstep]
  cases mayRaise && Config.elementRaises word 64 [a, b] <;> rfl

end

/-- Settles O50: at identity the element operation runs as the unprefixed word does, else as the one element of the
loop; the operands are the same in both, since a zero slot is the scalar register of the field. -/
theorem exceptionInTheLoopIsRefused : Obligations.ExceptionInTheLoopIsRefused := by
  intro mn dw word ft fa fb c x s hvl hm hew hsv hmode
  have hin : ∀ r v, elInFile (tagged r v).2 0 (widthOf c.elwidth) = true := fun r v =>
    elInFile_zero (tagged_lt r v) (widthOf_le _)
  obtain ⟨a, ha⟩ := exists_elRead s.gpr (hin fa x.rsrc1)
  obtain ⟨b, hb⟩ := exists_elRead s.gpr (hin fb x.rsrc2)
  obtain ⟨g, hg⟩ := exists_elWrite s.gpr (Config.elementOp word (widthOf c.elwidth) [a, b]).1 (hin ft x.rdest)
  refine ⟨a, b, g, ha, hb, hg, (exec_threeGprSuffix mn dw word ft fa fb true hvl hmode hew).trans ?_⟩
  by_cases hid : c = zeroCommon ∧ x = ⟨0#3, 0#3, 0#3⟩
  · rw [if_pos hid, if_pos hid]
    obtain ⟨rfl, rfl⟩ := hid
    have hbase := baseExec_threeGprSuffix mn dw word ft fa fb true ha hb hg
    have hw : widthOf zeroCommon.elwidth = 64 := rfl
    rw [identityExec, hbase, hw]
    cases Config.elementRaises word 64 [a, b] <;> rfl
  · rw [if_neg hid, if_neg hid, loop1P_threeGprSuffix mn dw word ft fa fb true hvl hm hsv ha hb hg]
    cases Config.elementRaises word (widthOf c.elwidth) [a, b] <;> rfl

end Sys2Proof.Machine

/-! ## The register file as bytes (R24, R25, R26) -/

namespace Sys2Proof.Machine

/-- The element widths there are (R140, R142). -/
def IsWidth (w : Nat) : Prop := w = 8 ∨ w = 16 ∨ w = 32 ∨ w = 64

theorem IsWidth.le {w : Nat} (h : IsWidth w) : w ≤ 64 := by
  rcases h with rfl | rfl | rfl | rfl <;> decide

theorem isWidth_widthOf (ew : BitVec 2) : IsWidth (widthOf ew) := by
  revert ew
  unfold IsWidth
  decide

/-! ### Single bits -/

theorem getLsbD_truncW {w : Nat} (hw : w ≤ 64) (v : Word) (i : Nat) :
    (truncW w v).getLsbD i = (decide (i < w) && v.getLsbD i) := by
  simp only [truncW, BitVec.getLsbD_and, BitVec.getLsbD_ofNat, Nat.testBit_two_pow_sub_one]
  by_cases hi : i < w
  · have h64 : i < 64 := by omega
    simp [hi, h64]
  · simp [hi]

/-- Bits `o` to `o + w - 1` are those of the value, the others as before (R25). -/
theorem getLsbD_insertBits {o w : Nat} (h : o + w ≤ 64) (old v : Word) {i : Nat} (hi : i < 64) :
    (insertBits old o w v).getLsbD i = if o ≤ i ∧ i < o + w then v.getLsbD (i - o) else old.getLsbD i := by
  have hmask : (BitVec.ofNat 64 (2 ^ w - 1) <<< o).getLsbD i = decide (o ≤ i ∧ i < o + w) := by
    rw [BitVec.getLsbD_shiftLeft, BitVec.getLsbD_ofNat, Nat.testBit_two_pow_sub_one, Bool.eq_iff_iff]
    simp only [Bool.and_eq_true, Bool.not_eq_true', decide_eq_true_eq, decide_eq_false_iff_not]
    omega
  have hval : (truncW w v <<< o).getLsbD i = (decide (o ≤ i ∧ i < o + w) && v.getLsbD (i - o)) := by
    rw [BitVec.getLsbD_shiftLeft, getLsbD_truncW (by omega), ← Bool.and_assoc]
    congr 1
    rw [Bool.eq_iff_iff]
    simp only [Bool.and_eq_true, Bool.not_eq_true', decide_eq_true_eq, decide_eq_false_iff_not]
    omega
  rw [insertBits, BitVec.getLsbD_or, BitVec.getLsbD_and, BitVec.getLsbD_not, hmask, hval]
  by_cases hin : o ≤ i ∧ i < o + w <;> simp [hin, hi]

theorem getLsbD_fileByte (f : RegFile) (k : Nat) {j : Nat} (hj : j < 8) :
    (fileByte f k).getLsbD j = (readReg f (k / 8)).getLsbD (8 * (k % 8) + j) := by
  simp [fileByte, hj]

/-- Bit `i` of the number some bytes form is bit `i % 8` of byte `i / 8`. -/
theorem testBit_natOfBytes (bs : List Byte) (i : Nat) :
    (natOfBytes bs).testBit i = (bs[i / 8]?.getD 0#8).getLsbD (i % 8) := by
  induction bs generalizing i with
  | nil => simp [natOfBytes]
  | cons b bs ih =>
    have hcons : natOfBytes (b :: bs) = 2 ^ 8 * natOfBytes bs + b.toNat := by
      rw [natOfBytes]
      omega
    rw [hcons, Nat.testBit_two_pow_mul_add _ b.isLt]
    by_cases hi : i < 8
    · have hdiv : i / 8 = 0 := by omega
      have hmod : i % 8 = i := by omega
      rw [if_pos hi, hdiv, hmod]
      rfl
    · have hdiv : i / 8 = (i - 8) / 8 + 1 := by omega
      have hmod : (i - 8) % 8 = i % 8 := by omega
      rw [if_neg hi, ih, hdiv, hmod, List.getElem?_cons_succ]

/-! ### Where the bytes of an element lie -/

/-- The byte of the file an element starts at (R24). -/
def elAt (n e w : Nat) : Nat := 8 * n + e * (w / 8)

/-- An element lies within one register (R24). -/
theorem elBit_add_le {e w : Nat} (hw : IsWidth w) : elBit e w + w ≤ 64 := by
  rcases hw with rfl | rfl | rfl | rfl <;> simp only [elBit] <;> omega

/-- A bit of a byte of the file is a bit of an element exactly when the byte is one of the element's (R24). -/
theorem elBytes_iff {w : Nat} (hw : IsWidth w) (n e k : Nat) {j : Nat} (hj : j < 8) :
    elAt n e w ≤ k ∧ k < elAt n e w + w / 8 ↔
      k / 8 = elReg n e w ∧ elBit e w ≤ 8 * (k % 8) + j ∧ 8 * (k % 8) + j < elBit e w + w := by
  rcases hw with rfl | rfl | rfl | rfl <;> simp only [elAt, elReg, elBit] <;> omega

/-- Byte `m` of an element is bits `8 * m` to `8 * m + 7` of it (R24). -/
theorem elByte_bits {n e w m : Nat} (hw : IsWidth w) (hm : m < w / 8) :
    (elAt n e w + m) / 8 = elReg n e w ∧ 8 * ((elAt n e w + m) % 8) = elBit e w + 8 * m := by
  rcases hw with rfl | rfl | rfl | rfl <;> simp only [elAt, elReg, elBit] <;> omega

theorem elInFile_iff {n e w : Nat} : elInFile n e w = true ↔ elAt n e w + w / 8 ≤ 1024 := by
  rw [elInFile, decide_eq_true_eq]
  rfl

theorem elReg_lt {n e w : Nat} (hw : IsWidth w) (h : elInFile n e w = true) : elReg n e w < 128 := by
  rw [elInFile_iff, elAt] at h
  rcases hw with rfl | rfl | rfl | rfl <;> simp only [elReg] <;> omega

/-! ### Elements past the end -/

theorem elRead_pastEnd {f : RegFile} {n e w : Nat} (h : elInFile n e w = false) :
    elRead f n e w = .error .elementPastEnd := by simp [elRead, h]

theorem elWrite_pastEnd {f : RegFile} {n e w : Nat} {v : Word} (h : elInFile n e w = false) :
    elWrite f n e w v = .error .elementPastEnd := by simp [elWrite, h]

/-- Settles O14: reading and writing test the same bound. -/
theorem elementPastEndIsRefused : Obligations.ElementPastEndIsRefused := by
  intro f n e w v hpast
  have hin : elInFile n e w = false := by
    rw [Bool.eq_false_iff, Ne, elInFile_iff, elAt]
    omega
  exact ⟨elRead_pastEnd hin, elWrite_pastEnd hin⟩

/-! ### Elements in the file -/

/-- A bit of the number the bytes of an element form is that bit of the element's register (R24). -/
theorem testBit_refElem {w : Nat} (hw : IsWidth w) (f : RegFile) (n e i : Nat) :
    (refElem (fileByte f) n e w).testBit i =
      (decide (i < w) && (readReg f (elReg n e w)).getLsbD (elBit e w + i)) := by
  have hdvd : i < w ↔ i / 8 < w / 8 := by rcases hw with rfl | rfl | rfl | rfl <;> omega
  rw [refElem, testBit_natOfBytes, List.getElem?_map]
  by_cases hi : i < w
  · obtain ⟨hreg, hbit⟩ := elByte_bits (n := n) (e := e) hw (hdvd.mp hi)
    have hpos : elBit e w + 8 * (i / 8) + i % 8 = elBit e w + i := by omega
    rw [List.getElem?_range (hdvd.mp hi), Option.map_some, Option.getD_some, ← elAt,
      getLsbD_fileByte f _ (Nat.mod_lt i (by decide)), hreg, hbit, hpos]
    simp [hi]
  · have hnone : (List.range (w / 8))[i / 8]? = none := by
      rw [List.getElem?_eq_none_iff, List.length_range]
      omega
    simp [hnone, hi]

/-- Settles O12, bit by bit: both sides are a run of bits of one register. -/
theorem elementReadIsItsBytes : Obligations.ElementReadIsItsBytes := by
  intro f n e w hw hin
  refine ⟨_, if_pos (elInFile_iff.mpr hin), Nat.eq_of_testBit_eq fun i => ?_⟩
  rw [testBit_refElem hw, BitVec.testBit_toNat, getLsbD_truncW (IsWidth.le hw), BitVec.getLsbD_ushiftRight]

/-- The bytes of the file after an element is written (R24, R25). -/
theorem fileByte_elWrite {f g : RegFile} {n e w : Nat} {v : Word} (hw : IsWidth w) (h : elWrite f n e w v = .ok g)
    (k : Nat) : fileByte g k = refWrite (fileByte f) n e w v.toNat k := by
  obtain ⟨hin, rfl⟩ := elWrite_ok h
  have hreg := elReg_lt hw hin
  apply BitVec.eq_of_getLsbD_eq
  intro j hj
  have hbytes := elBytes_iff hw n e k hj
  rw [getLsbD_fileByte _ k hj, readReg_writeReg, refWrite, ← elAt]
  by_cases hk : k / 8 = elReg n e w
  · rw [if_pos ⟨hk, hreg⟩, getLsbD_insertBits (elBit_add_le hw) _ _ (by omega)]
    by_cases hel : elAt n e w ≤ k ∧ k < elAt n e w + w / 8
    · obtain ⟨m, rfl⟩ := Nat.exists_eq_add_of_le hel.1
      have hpos := (elByte_bits (n := n) (e := e) (m := m) hw (by omega)).2
      rw [if_pos hel, if_pos (hbytes.mp hel).2, BitVec.getLsbD_ofNat, Nat.testBit_shiftRight, BitVec.testBit_toNat,
        Nat.add_sub_cancel_left, hpos, Nat.add_assoc, Nat.add_sub_cancel_left]
      simp [hj]
    · rw [if_neg hel, if_neg fun hbit => hel (hbytes.mpr ⟨hk, hbit⟩), getLsbD_fileByte f k hj, hk]
  · rw [if_neg fun hc => hk hc.1, if_neg fun hel => hk (hbytes.mp hel).1, getLsbD_fileByte f k hj]

/-- Settles O13: `fileByte_elWrite` at an element that lies in the file. -/
theorem elementWriteChangesItsBytesOnly : Obligations.ElementWriteChangesItsBytesOnly := by
  intro f n e w v hw hin
  obtain ⟨g, hg⟩ := exists_elWrite f v (elInFile_iff.mpr hin)
  exact ⟨g, hg, fun k _ => fileByte_elWrite hw hg k⟩

end Sys2Proof.Machine

/-! ## CR predicates (R166, R167) -/

namespace Sys2Proof.Machine

/-- Bit `k` of a CR field, counted from LT, is bit `3 - k` of the number (R29, log 32). -/
theorem crFieldBit_eq (f : BitVec 4) {k : Nat} (hk : k < 4) : crFieldBit f k = f.getLsbD (3 - k) := by
  simp [crFieldBit, BitVec.getMsbD, hk]

/-- The test a CR predicate makes: bits `m{0:1}` choose the bit, bit `m{2}` the sense (R166). -/
theorem crPredTest_eq (m : BitVec 3) (f : BitVec 4) :
    crPredTest m f = (f.getLsbD (3 - m.toNat / 2) != m.getLsbD 0) := by
  rw [crPredTest, crFieldBit_eq f (by omega)]

/-- The CR predicate of an element that has a CR field (R167). -/
theorem predMask_cr {s : State} {i : Nat} (hi : i < 96) (m : BitVec 3) :
    predMask s true m i = .ok ((readCr s.cr (32 + i)).getLsbD (3 - m.toNat / 2) != m.getLsbD 0) := by
  have hfield : Config.crPredOffs + i < Config.nreg := by
    simp only [Config.crPredOffs, Config.nreg]
    omega
  rw [predMask, if_pos rfl, crPred, if_pos hfield, crPredTest_eq]
  rfl

/-- Settles O53: each row is the one test at its value of MASK. -/
theorem crPredicatesAreTheTable : Obligations.CrPredicatesAreTheTable := by
  intro s i hi
  simp only [predMask_cr hi]
  simp

end Sys2Proof.Machine

/-! ## Reset -/

namespace Sys2Proof.Machine

/-- Settles O57, field by field of the invariant. -/
theorem resetMeetsTheInvariant : Obligations.ResetMeetsTheInvariant where
  pcAligned := rfl
  maxVLPos := Nat.le_refl 1
  vlBound := Nat.zero_le 1
  memWf := rfl
  storedWf := rfl
  storedAdmitted := fun _ ha => absurd ha List.not_mem_nil

end Sys2Proof.Machine

/-! ## What an unprefixed instruction keeps (R21, R31, R33, R51, R113) -/

namespace Sys2Proof.Machine

/-- Two states with the same `VL`, `MSR.LE` and launch parameters. -/
structure SameLaunch (s t : State) : Prop where
  vl : t.vl = s.vl
  le : t.le = s.le
  launch : t.launch = s.launch

theorem SameLaunch.trans {s t u : State} (h : SameLaunch s t) (k : SameLaunch t u) : SameLaunch s u :=
  ⟨k.vl.trans h.vl, k.le.trans h.le, k.launch.trans h.launch⟩

theorem RegsOnly.sameLaunch {s t : State} (h : RegsOnly s t) : SameLaunch s t := ⟨h.vl, h.le, h.launch⟩

/-- Two such states that also agree in `r32`-`r127`, `fp32`-`fp127` and `CR8`-`CR127`: they differ at most in what the
base ISA can reach. -/
structure BaseReach (s t : State) : Prop extends SameLaunch s t where
  gpr : ∀ n, 32 ≤ n → readReg t.gpr n = readReg s.gpr n
  fpr : ∀ n, 32 ≤ n → readReg t.fpr n = readReg s.fpr n
  cr : ∀ n, 8 ≤ n → readCr t.cr n = readCr s.cr n

theorem BaseReach.trans {s t u : State} (h : BaseReach s t) (k : BaseReach t u) : BaseReach s u where
  toSameLaunch := h.toSameLaunch.trans k.toSameLaunch
  gpr n hn := (k.gpr n hn).trans (h.gpr n hn)
  fpr n hn := (k.fpr n hn).trans (h.fpr n hn)
  cr n hn := (k.cr n hn).trans (h.cr n hn)

theorem BaseReach.refl (s : State) : BaseReach s s :=
  ⟨⟨rfl, rfl, rfl⟩, fun _ _ => rfl, fun _ _ => rfl, fun _ _ => rfl⟩

theorem BaseReach.setPc (s : State) (a : Word) : BaseReach s (s.setPc a) :=
  ⟨⟨rfl, rfl, rfl⟩, fun _ _ => rfl, fun _ _ => rfl, fun _ _ => rfl⟩

theorem BaseReach.advance (s : State) (n : Nat) : BaseReach s (advance s n) := .setPc s _

theorem BaseReach.storeBytes (s : State) (l : List (Word × Byte)) : BaseReach s (storeBytes s l) := by
  obtain ⟨hg, hf, hc, hvl, -, hle, hlaunch⟩ := storeBytes_rest s l
  exact ⟨⟨hvl, hle, hlaunch⟩, fun _ _ => by rw [hg], fun _ _ => by rw [hf], fun _ _ => by rw [hc]⟩

/-! ### Writes of a low register -/

/-- A write of a register below a bound leaves every register from the bound on. -/
theorem readReg_writeReg_low {r b n : Nat} (f : RegFile) (v : Word) (hr : r < b) (hn : b ≤ n) :
    readReg (writeReg f r v) n = readReg f n := by
  rw [readReg_writeReg, if_neg (by omega)]

theorem readCr_writeCr_low {r b n : Nat} (f : CrFile) (v : BitVec 4) (hr : r < b) (hn : b ≤ n) :
    readCr (writeCr f r v) n = readCr f n := by
  rw [readCr_writeCr, if_neg (by omega)]

theorem BaseReach.writeGpr (s : State) {r : Nat} (hr : r < 32) (v : Word) :
    BaseReach s (s.setGpr (writeReg s.gpr r v)) :=
  ⟨⟨rfl, rfl, rfl⟩, fun _ hn => readReg_writeReg_low s.gpr v hr hn, fun _ _ => rfl, fun _ _ => rfl⟩

theorem BaseReach.writeFpr (s : State) {r : Nat} (hr : r < 32) (v : Word) :
    BaseReach s (s.setFpr (writeReg s.fpr r v)) :=
  ⟨⟨rfl, rfl, rfl⟩, fun _ _ => rfl, fun _ hn => readReg_writeReg_low s.fpr v hr hn, fun _ _ => rfl⟩

theorem BaseReach.writeCr (s : State) {r : Nat} (hr : r < 8) (v : BitVec 4) :
    BaseReach s (s.setCr (writeCr s.cr r v)) :=
  ⟨⟨rfl, rfl, rfl⟩, fun _ _ => rfl, fun _ _ => rfl, fun _ hn => readCr_writeCr_low s.cr v hr hn⟩

theorem BaseReach.setGprField (s : State) (r : BitVec 5) (v : Word) : BaseReach s (setGprField s r v) :=
  .writeGpr s r.isLt v

theorem readReg_foldl_writeReg (l : List (BitVec 5 × Word)) (f : RegFile) {n : Nat} (hn : 32 ≤ n) :
    readReg (l.foldl (fun f p => writeReg f p.1.toNat p.2) f) n = readReg f n := by
  induction l generalizing f with
  | nil => rfl
  | cons p l ih => exact (ih _).trans (readReg_writeReg_low f p.2 p.1.isLt hn)

theorem readCr_foldl_writeCr (l : List (BitVec 3 × BitVec 4)) (f : CrFile) {n : Nat} (hn : 8 ≤ n) :
    readCr (l.foldl (fun f p => writeCr f p.1.toNat p.2) f) n = readCr f n := by
  induction l generalizing f with
  | nil => rfl
  | cons p l ih => exact (ih _).trans (readCr_writeCr_low f p.2 p.1.isLt hn)

theorem BaseReach.applyRegs (e : Config.BaseEffect) (s : State) : BaseReach s (applyRegs e s) :=
  ⟨⟨rfl, rfl, rfl⟩, fun _ hn => readReg_foldl_writeReg e.gpr s.gpr hn,
    fun _ hn => readReg_foldl_writeReg e.fpr s.fpr hn, fun _ hn => readCr_foldl_writeCr e.cr s.cr hn⟩

theorem BaseReach.recordRc (word : Insn) (prof : Profile) (v : Config.BaseView) (s : State) :
    BaseReach s (recordRc word prof v s) := by
  have htarget : rcTarget prof < 8 := by
    unfold rcTarget
    split <;> decide
  unfold Machine.recordRc
  split
  · exact .writeCr s htarget _
  · exact .refl s

/-! ### Element operations on the base ISA's own operands -/

/-- An operand that starts at one of the base ISA's own registers of its file. -/
def ExtOperand.IsBase (o : ExtOperand) : Prop :=
  match o.kind with
  | .gpr | .fpr => o.num < 32
  | .crField | .crBit => o.num < 8

/-- An EXTRA3 value of zero names the register of the field (R202). -/
theorem extend_zero_toNat (r : BitVec 5) : (extend r (.e3 0#3)).2.toNat = r.toNat :=
  (BitVec.toNat_append 0#2 r).trans (by simp)

/-- An EXTRA3 value of zero names the CR field of the field (R209). -/
theorem extendCr_zero_toNat (bf : BitVec 3) : (extendCr bf (.e3 0#3)).2.toNat = bf.toNat :=
  (BitVec.toNat_append (0#2 ++ 0#2) bf).trans (by simp)

/-- Without EXTRA every operand is the register or CR field the suffix names (R21). -/
theorem extendOperand_zero_isBase (o : Operand) : (extendOperand o (.e3 0#3)).IsBase := by
  have hreg : (extend o.field (.e3 0#3)).2.toNat < 32 := extend_zero_toNat o.field ▸ o.field.isLt
  have hcr : ∀ bf : BitVec 3, (extendCr bf (.e3 0#3)).2.toNat < 8 := fun bf => extendCr_zero_toNat bf ▸ bf.isLt
  unfold extendOperand
  split
  · exact hreg
  · exact hreg
  · exact hcr _
  · exact hcr _

theorem operandsIn_noSlots_isBase (roles : List Role) (prof : Profile) :
    ∀ o ∈ operandsIn roles prof noSlots, o.IsBase := by
  intro o ho
  obtain ⟨r, -, hr⟩ := List.mem_filterMap.mp ho
  obtain ⟨p, -, rfl⟩ := Option.map_eq_some_iff.mp hr
  exact extendOperand_zero_isBase p

theorem baseImplicitDests_isBase (word : Insn) (prof : Profile) : ∀ o ∈ baseImplicitDests word prof, o.IsBase := by
  intro o ho
  unfold baseImplicitDests at ho
  split at ho
  · obtain rfl := List.mem_singleton.mp ho
    exact (Config.baseRS word).isLt
  · cases ho

/-- Element 0 of 64 bits of a low register is that register, so a write of it reaches no high one. -/
theorem BaseReach.writeEl {clash : Nat → Bool} {s t : State} {o : ExtOperand} {v : Word} (ho : o.IsBase)
    (h : writeEl clash s o 0 64 v = .ok t) : BaseReach s t := by
  have hreg : elReg o.num 0 64 = o.num := by simp [elReg]
  rcases writeEl_ok h with ⟨hk, f, hf, rfl⟩ | ⟨hk, f, hf, rfl⟩ | ⟨hk, hc⟩ | ⟨hk, hc⟩ <;>
    simp only [ExtOperand.IsBase, hk] at ho
  · obtain ⟨-, rfl⟩ := elWrite_ok hf
    exact .writeGpr s (hreg.trans_lt ho) _
  · obtain ⟨-, rfl⟩ := elWrite_ok hf
    exact .writeFpr s (hreg.trans_lt ho) _
  · obtain ⟨-, -, rfl⟩ := writeCrGuarded_ok hc
    exact .writeCr s ho _
  · obtain ⟨-, -, rfl⟩ := writeCrGuarded_ok hc
    exact .writeCr s ho _

theorem BaseReach.writeEls {clash : Nat → Bool} {s t : State} {sv : Nat} {os : List ExtOperand} {vs : List Word}
    (hos : ∀ o ∈ os, o.IsBase) (h : writeEls clash s 0 sv 0 64 os vs = .ok t) : BaseReach s t := by
  induction os generalizing s vs with
  | nil =>
    cases h
    exact .refl _
  | cons o os ih =>
    cases vs with
    | nil =>
      cases h
      exact .refl _
    | cons v vs =>
      simp only [Machine.writeEls, elIndex_zero] at h
      split at h
      · cases h
      · next u hu => exact (BaseReach.writeEl (hos o (by simp)) hu).trans (ih (fun p hp => hos p (by simp [hp])) h)

/-! ### The unprefixed instructions -/

theorem BaseReach.baseElementWise {word : Insn} {prof : Profile} {s t : State}
    (ht : baseElementWise word prof s = .ok t) : BaseReach s t := by
  obtain ⟨u, hu, rfl⟩ := baseElementWise_ok ht
  obtain ⟨vs, -, -, hw⟩ := elementStep_ok hu
  have hdests : ∀ o ∈ destsOf prof noSlots ++ baseImplicitDests word prof, o.IsBase := fun o ho =>
    (List.mem_append.mp ho).elim (operandsIn_noSlots_isBase _ prof o) (baseImplicitDests_isBase word prof o)
  exact ((BaseReach.writeEls hdests hw).trans (.recordRc word prof _ u)).trans (.advance _ 4)

theorem BaseReach.baseFree {words : List Insn} {mayRaise branch : Bool} {s t : State}
    (ht : baseFree words mayRaise branch s = .ok t) : BaseReach s t := by
  obtain ⟨-, hst⟩ := baseFree_ok ht
  obtain ⟨rfl, -⟩ := storeAdmitted_ok hst
  exact ((BaseReach.applyRegs _ s).trans (.setPc _ _)).trans (.storeBytes _ _)

theorem BaseReach.baseOther {word : Insn} {prof : Profile} {s t : State} (ht : baseOther word prof s = .ok t) :
    BaseReach s t := by
  rcases baseOther_ok ht with he | hf
  · exact .baseElementWise he
  · exact .baseFree hf

/-- `Base.exec` reaches the base ISA's own registers alone, one case per suffix. -/
theorem BaseReach.baseExec {sfx : Suffix} {s t : State} (ht : baseExec sfx s = .ok t) : BaseReach s t := by
  cases sfx with
  | add rt ra rb =>
    cases ht
    exact (BaseReach.setGprField s rt _).trans (.advance _ 4)
  | addi rt ra si =>
    cases ht
    exact (BaseReach.setGprField s rt _).trans (.advance _ 4)
  | b li =>
    cases ht
    exact .setPc s _
  | lwz rt ra d =>
    obtain ⟨v, -, rfl⟩ := baseLwz_ok ht
    exact (BaseReach.setGprField s rt _).trans (.advance _ 4)
  | stw rs ra d =>
    obtain ⟨u, hu, rfl⟩ := baseStw_ok ht
    obtain ⟨-, rfl⟩ := store32_ok hu
    exact (BaseReach.storeBytes s _).trans (.advance _ 4)
  | other word prof => exact .baseOther ht

/-- Settles O59, by the three kinds of unprefixed instruction. -/
theorem unprefixedReachesBaseRegistersOnly : Obligations.UnprefixedReachesBaseRegistersOnly := by
  intro s t h
  have hreach : BaseReach s t := by
    rcases h with ⟨i, hi, hx⟩ | ⟨w, prof, hx⟩ | ⟨p, w, row, hx⟩
    · rcases exec_next hx with ⟨hpair, -⟩ | ⟨-, sfx, hbase⟩
      · exact absurd (hi.symm.trans hpair) Bool.false_ne_true
      · exact .baseExec hbase
    · exact .baseOther (outcomeOf_next.mp hx)
    · exact .baseFree (outcomeOf_next.mp hx)
  exact ⟨hreach.gpr, hreach.fpr, hreach.cr⟩

/-! ### Pairs and steps -/

/-- A pair keeps `VL`, `MSR.LE` and the launch parameters: it passes on, is its unprefixed instruction, or loops over
register files. -/
theorem execSvp64_sameLaunch {c : RmCommon} {x : Slots} {sfx : Suffix} {s t : State}
    (ht : execSvp64 c x sfx s = .next t) : SameLaunch s t := by
  obtain ⟨-, -, ⟨-, rfl⟩ | ⟨-, hact⟩⟩ := execSvp64_next ht
  · exact (BaseReach.advance s 8).toSameLaunch
  · obtain ⟨-, ⟨-, -, hid⟩ | ⟨-, -, hnorm⟩⟩ := execActive_ok hact
    · obtain ⟨u, hu, rfl⟩ := identityExec_ok hid
      exact ((BaseReach.baseExec hu).trans (.setPc u _)).toSameLaunch
    · obtain ⟨-, -, -, -, u, hu, rfl⟩ := execNormal_ok hnorm
      exact (runLoop_regsOnly hu).sameLaunch.trans (BaseReach.advance u 8).toSameLaunch

/-- Settles O58, by the cases of a step. -/
theorem stepKeepsVlByteOrderAndLaunch : Obligations.StepKeepsVlByteOrderAndLaunch := by
  intro s t hstep
  have hsame : SameLaunch s t := by
    obtain ⟨ws, -, ⟨i, -, hi⟩ | ⟨word, prof, -, hw⟩ | ⟨pfx, sfx, row, -, hp⟩⟩ := step_next hstep
    · rcases exec_next hi with ⟨-, c, x, sfx, hpair⟩ | ⟨-, sfx, hbase⟩
      · exact execSvp64_sameLaunch hpair
      · exact (BaseReach.baseExec hbase).toSameLaunch
    · exact (BaseReach.baseOther hw).toSameLaunch
    · exact (BaseReach.baseFree hp).toSameLaunch
  exact ⟨hsame.vl, hsame.le, hsame.launch⟩

end Sys2Proof.Machine

/-! ## The element loops, one step at a time (R119, R151) -/

namespace Sys2Proof.Machine

/-- One element operation of a loop. -/
abbrev LoopCtx.op (l : LoopCtx) (clash : Nat → Bool) (i d j : Nat) (s : State) : Except Refusal State :=
  elementStep clash l.sfx l.srcs l.dsts l.w l.sv i d j s

/-- Which CR fields the sub-elements of iteration `i` of `Loop1P` may not write (R171). -/
abbrev LoopCtx.clash1P (l : LoopCtx) (s0 : State) (i : Nat) : Nat → Nat → Bool := fun j =>
  crClash l.maskMode s0.vl (pending1P (scalarDest l.dsts) l.sv i j)

section
variable {clash : Nat → Nat → Bool} {l : LoopCtx} {i d k j : Nat} {s0 s t : State} {r : Refusal}

theorem subLoop_succ_of_ok (h : l.op (clash j) i d j s = .ok t) :
    subLoop clash l i d (k + 1) j s = subLoop clash l i d k (j + 1) t := by
  rw [LoopCtx.op] at h
  rw [subLoop, h]

theorem subLoop_succ_of_error (h : l.op (clash j) i d j s = .error r) :
    subLoop clash l i d (k + 1) j s = .error r := by
  rw [LoopCtx.op] at h
  rw [subLoop, h]

theorem loop1PFrom_succ_disabled (hm : predMask s0 l.maskMode l.mask i = .ok false) :
    loop1PFrom s0 l (k + 1) i s = loop1PFrom s0 l k (i + 1) s := by
  rw [loop1PFrom, hm]

theorem loop1PFrom_succ_of_error (hm : predMask s0 l.maskMode l.mask i = .ok true)
    (h : subLoop (l.clash1P s0 i) l i i l.sv 0 s = .error r) : loop1PFrom s0 l (k + 1) i s = .error r := by
  simp only [loop1PFrom, hm, h]

theorem loop1PFrom_succ_vector (hm : predMask s0 l.maskMode l.mask i = .ok true)
    (h : subLoop (l.clash1P s0 i) l i i l.sv 0 s = .ok t) (hvec : scalarDest l.dsts = false) :
    loop1PFrom s0 l (k + 1) i s = loop1PFrom s0 l k (i + 1) t := by
  simp only [loop1PFrom, hm, h]
  exact if_neg (Bool.eq_false_iff.mp hvec)

end

end Sys2Proof.Machine

/-! ## The loop of a prefixed `add` (R26, R119, R172) -/

namespace Sys2Proof.Machine

/-! ### Its operands -/

/-- Whether sub-element `j` of iteration `i` of a tagged operand lies in the file (R26). -/
def elFits (o : Bool × Nat) (i sv j w : Nat) : Bool := elInFile o.2 (refIndex o.1 i sv j) w

theorem pastFile_iff {o : Bool × Nat} {i sv j w : Nat} : pastFile o i sv j w ↔ elFits o i sv j w = false := by
  rw [Bool.eq_false_iff, Ne, elFits, elInFile_iff, elAt, pastFile, Nat.add_mul, Nat.one_mul, Nat.not_le,
    Nat.add_assoc]

@[simp] theorem elIndex_gprOperand (r : BitVec 5) (v : BitVec 3) (i sv j : Nat) :
    elIndex (gprOperand r v) i sv j = refIndex (tagged r v).1 i sv j := rfl

theorem writeEl_gprOperand_pastEnd {clash : Nat → Bool} {s : State} {r : BitVec 5} {v : BitVec 3} {e w : Nat} {d : Word}
    (h : elInFile (tagged r v).2 e w = false) : writeEl clash s (gprOperand r v) e w d = .error .elementPastEnd := by
  simp [writeEl, gprOperand, elWrite_pastEnd h]

/-- What the loop of an `add` pair runs. -/
def addCtx (c : RmCommon) (x : Extra1p2s1d) (rt ra rb : BitVec 5) : LoopCtx :=
  { sfx := .add rt ra rb
    srcs := [gprOperand ra x.rsrc1, gprOperand rb x.rsrc2]
    dsts := [gprOperand rt x.rdest]
    w := widthOf c.elwidth
    sv := subLen c.subvl
    maskMode := c.maskMode
    mask := c.mask
    maskSrc := 0#3 }

theorem loopCtx_add (c : RmCommon) (x : Extra1p2s1d) (rt ra rb : BitVec 5) :
    loopCtx c (slots1p2s1d x) (.add rt ra rb) = addCtx c x rt ra rb := rfl

section
variable (c : RmCommon) (x : Extra1p2s1d) (rt ra rb : BitVec 5)

/-- Whether the three elements of operation `(i, j)` lie in the file. -/
def addFits (i j : Nat) : Bool :=
  elFits (tagged ra x.rsrc1) i (subLen c.subvl) j (widthOf c.elwidth) &&
    elFits (tagged rb x.rsrc2) i (subLen c.subvl) j (widthOf c.elwidth) &&
    elFits (tagged rt x.rdest) i (subLen c.subvl) j (widthOf c.elwidth)

/-- All that an element operation of `add` can do: write an element of the destination where its elements lie in the file,
else be refused (R26). -/
theorem op_addCtx_cases (clash : Nat → Bool) (i j : Nat) (s : State) :
    (addFits c x rt ra rb i j = true ∧ ∃ v g,
      elWrite s.gpr (tagged rt x.rdest).2 (refIndex (tagged rt x.rdest).1 i (subLen c.subvl) j) (widthOf c.elwidth) v
        = .ok g ∧
      (addCtx c x rt ra rb).op clash i i j s = .ok (s.setGpr g)) ∨
    (addCtx c x rt ra rb).op clash i i j s = .error .elementPastEnd := by
  simp only [addCtx, elementStep, readEls, readEl_gprOperand, elIndex_gprOperand]
  cases hfa : elFits (tagged ra x.rsrc1) i (subLen c.subvl) j (widthOf c.elwidth) with
  | false => exact .inr (by rw [elRead_pastEnd hfa])
  | true =>
    obtain ⟨a, ha⟩ := exists_elRead s.gpr hfa
    cases hfb : elFits (tagged rb x.rsrc2) i (subLen c.subvl) j (widthOf c.elwidth) with
    | false => exact .inr (by rw [ha, elRead_pastEnd hfb])
    | true =>
      obtain ⟨b, hb⟩ := exists_elRead s.gpr hfb
      cases hft : elFits (tagged rt x.rdest) i (subLen c.subvl) j (widthOf c.elwidth) with
      | false => exact .inr (by simp [ha, hb, elementRaises, writeEls, writeEl_gprOperand_pastEnd hft])
      | true =>
        obtain ⟨g, hg⟩ := exists_elWrite s.gpr (elementOp (.add rt ra rb) (widthOf c.elwidth) [a, b]).1 hft
        refine .inl ⟨by rw [addFits, hfa, hfb, hft]; rfl, _, g, hg, ?_⟩
        simp [ha, hb, elementRaises, writeEls, writeEl_gprOperand hg]

/-! ### Past the end of the file -/

/-- A sub-vector runs where all its elements lie in the file, else it is refused (R26). -/
theorem subLoop_addCtx_cases (clash : Nat → Nat → Bool) (i k j0 : Nat) (s : State) :
    (∃ t, subLoop clash (addCtx c x rt ra rb) i i k j0 s = .ok t ∧
      ∀ j, j0 ≤ j → j < j0 + k → addFits c x rt ra rb i j = true) ∨
    subLoop clash (addCtx c x rt ra rb) i i k j0 s = .error .elementPastEnd := by
  induction k generalizing j0 s with
  | zero => exact .inl ⟨s, rfl, fun j h0 h1 => by omega⟩
  | succ k ih =>
    rcases op_addCtx_cases c x rt ra rb (clash j0) i j0 s with ⟨hfit, v, g, -, hop⟩ | hop
    · rw [subLoop_succ_of_ok hop]
      refine (ih (j0 + 1) (s.setGpr g)).imp_left fun ⟨t, ht, hall⟩ => ⟨t, ht, fun j h0 h1 => ?_⟩
      rcases Nat.eq_or_lt_of_le h0 with rfl | hlt
      · exact hfit
      · exact hall j hlt (by omega)
    · exact .inr (subLoop_succ_of_error hop)

/-- With a vector destination the loop is refused at an enabled element that does not lie in the file, or before it. -/
theorem loop1PFrom_addCtx_pastEnd {s0 : State} {m : Nat → Bool} {i j : Nat} (hvec : (tagged rt x.rdest).1 = true)
    (hmask : ∀ i' ≤ i, predMask s0 c.maskMode c.mask i' = .ok (m i')) (hi : m i = true) (hj : j < subLen c.subvl)
    (hpast : addFits c x rt ra rb i j = false) (k i0 : Nat) (h0 : i0 ≤ i) (hk : i < i0 + k) (s : State) :
    loop1PFrom s0 (addCtx c x rt ra rb) k i0 s = .error .elementPastEnd := by
  induction k generalizing i0 s with
  | zero => omega
  | succ k ih =>
    have hscalar : scalarDest (addCtx c x rt ra rb).dsts = false := by simp [scalarDest, addCtx, gprOperand, hvec]
    have hm := hmask i0 h0
    have hrest (u : State) (hne : i0 ≠ i) : loop1PFrom s0 (addCtx c x rt ra rb) k (i0 + 1) u = .error .elementPastEnd :=
      ih (i0 + 1) (by omega) (by omega) u
    cases hmi : m i0 with
    | false =>
      rw [hmi] at hm
      rw [loop1PFrom_succ_disabled hm]
      exact hrest s (by rintro rfl; simp [hmi] at hi)
    | true =>
      rw [hmi] at hm
      rcases subLoop_addCtx_cases c x rt ra rb ((addCtx c x rt ra rb).clash1P s0 i0) i0 (subLen c.subvl) 0 s with
        ⟨u, hu, hall⟩ | herr
      · rw [loop1PFrom_succ_vector hm hu hscalar]
        refine hrest u ?_
        rintro rfl
        exact Bool.false_ne_true (hpast.symm.trans (hall j (Nat.zero_le j) (by omega)))
      · exact loop1PFrom_succ_of_error hm herr

/-! ### The pair -/

/-- No value of `RM` is reserved for `add`: it has no FPR operand, and an operand for every slot (R95). -/
theorem reserved_add : reserved c (slots1p2s1d x) (suffixProfile (.add rt ra rb)) = false := by
  simp [reserved, reservedBf16, reservedFpSingle, reservedUnused, suffixProfile, slots1p2s1d]

/-- An `add` pair with `VL` > 0: the unprefixed `add` at identity, else `Loop1P` (R114). -/
theorem exec_add_pair {s : State} (hvl : s.vl ≠ 0) (hmode : c.mode = 0#5) (hew : c.elwidth = c.elwidthSrc) :
    exec (.svRm1p2s1d c x (.add rt ra rb)) s =
      outcomeOf (if (c = zeroCommon ∧ x = ⟨0#3, 0#3, 0#3⟩) ∧ s.vl = 1 then identityExec (.add rt ra rb) s
        else (loop1P (addCtx c x rt ra rb) s).map (advance · 8)) := by
  have hact := execActive_normal (c := c) (x := slots1p2s1d x) (sfx := .add rt ra rb) (s := s) rfl rfl rfl rfl rfl
    hmode hew
  rw [rmIsZero_slots1p2s1d, loopCtx_add] at hact
  simp only [Bool.and_eq_true, decide_eq_true_eq] at hact
  have hfmt : (suffixProfile (.add rt ra rb)).rmFormat ≠ none := by simp [suffixProfile]
  simp only [exec, execSvRm1p2s1d, execSvp64, if_neg hfmt, reserved_add, if_neg hvl, hact, Bool.false_eq_true, if_false]

end

/-- Settles O39: the vector destination rules identity out, and the loop is refused at element `(i, j)` or before it. -/
theorem vectorPastTheFileIsRefused : Obligations.VectorPastTheFileIsRefused := by
  intro c x rt ra rb m i j s hmode hew hvec hmask hivl hi hj hpast
  have hfits : addFits c x rt ra rb i j = false := by
    simp only [pastFile_iff] at hpast
    rcases hpast with h | h | h <;> simp [addFits, h]
  have hid : ¬ ((c = zeroCommon ∧ x = ⟨0#3, 0#3, 0#3⟩) ∧ s.vl = 1) := by
    rintro ⟨⟨-, rfl⟩, -⟩
    exact Bool.false_ne_true hvec
  rw [exec_add_pair c x rt ra rb (Nat.ne_zero_of_lt hivl) hmode hew, if_neg hid, loop1P,
    loop1PFrom_addCtx_pastEnd c x rt ra rb hvec hmask hi hj hfits s.vl 0 (Nat.zero_le i) (by omega)]
  rfl

/-! ### Which bytes it changes -/

/-- Two states with the same FPRs and CR fields, and with the same bytes of the integer file but for those of `p`. -/
structure ChangesWithin (p : Nat → Prop) (s t : State) : Prop where
  fpr : t.fpr = s.fpr
  cr : t.cr = s.cr
  gpr : ∀ k, fileByte t.gpr k ≠ fileByte s.gpr k → p k

theorem ChangesWithin.refl (p : Nat → Prop) (s : State) : ChangesWithin p s s := ⟨rfl, rfl, fun _ h => absurd rfl h⟩

theorem ChangesWithin.trans {p : Nat → Prop} {s t u : State} (h : ChangesWithin p s t) (h' : ChangesWithin p t u) :
    ChangesWithin p s u where
  fpr := h'.fpr.trans h.fpr
  cr := h'.cr.trans h.cr
  gpr k hk := by
    by_cases ht : fileByte t.gpr k = fileByte s.gpr k
    · exact h'.gpr k (ht ▸ hk)
    · exact h.gpr k ht

/-- Beside those bytes nothing changes where memory and the launch stay. -/
theorem ChangesWithin.frame {p : Nat → Prop} {s u : State} (h : ChangesWithin p s u) (hr : RegsOnly s u) (a : Word) :
    Frame (fun _ => True) nowhere nowhere nowhere s (u.setPc a) where
  gpr _ hn := absurd trivial hn
  fpr n _ := congrArg (readReg · n) h.fpr
  cr n _ := congrArg (readCr · n) h.cr
  mem b _ := congrArg (Memory.read · b) hr.mem
  stored b := by simp [nowhere, hr.stored]
  vl := hr.vl
  le := hr.le
  launch := hr.launch

/-- Whether byte `k` of the file is one of sub-element `j` of iteration `i` of a tagged operand (R24). -/
def inElement (o : Bool × Nat) (i sv j w k : Nat) : Prop :=
  elAt o.2 (refIndex o.1 i sv j) w ≤ k ∧ k < elAt o.2 (refIndex o.1 i sv j) w + w / 8

/-- Writing an element changes no byte but its own (R25). -/
theorem setGpr_elWrite_changesWithin {p : Nat → Prop} {s : State} {g : RegFile} {n e w : Nat} {v : Word}
    (hw : IsWidth w) (h : elWrite s.gpr n e w v = .ok g) (hp : ∀ k, elAt n e w ≤ k ∧ k < elAt n e w + w / 8 → p k) :
    ChangesWithin p s (s.setGpr g) := by
  refine ⟨rfl, rfl, fun k hk => hp k ?_⟩
  by_contra hout
  exact hk ((fileByte_elWrite hw h k).trans (if_neg hout))

/-- Writing a whole register changes no byte but its eight. -/
theorem setGpr_writeReg_changesWithin {p : Nat → Prop} {s : State} {n : Nat} {v : Word}
    (hp : ∀ k, k / 8 = n → p k) : ChangesWithin p s (s.setGpr (writeReg s.gpr n v)) := by
  refine ⟨rfl, rfl, fun k hk => hp k ?_⟩
  by_contra hout
  have hsame : readReg (writeReg s.gpr n v) (k / 8) = readReg s.gpr (k / 8) := by
    rw [readReg_writeReg, if_neg fun hc => hout hc.1]
  exact hk (congrArg (BitVec.extractLsb' (8 * (k % 8)) 8) hsame)

section
variable {c : RmCommon} {x : Extra1p2s1d} {rt ra rb : BitVec 5} {p : Nat → Prop} {s t : State}

theorem subLoop_addCtx_changesWithin {clash : Nat → Nat → Bool} {i k j0 : Nat}
    (hp : ∀ j < j0 + k, ∀ b, inElement (tagged rt x.rdest) i (subLen c.subvl) j (widthOf c.elwidth) b → p b)
    (h : subLoop clash (addCtx c x rt ra rb) i i k j0 s = .ok t) : ChangesWithin p s t := by
  induction k generalizing j0 s with
  | zero =>
    cases h
    exact .refl p _
  | succ k ih =>
    rcases op_addCtx_cases c x rt ra rb (clash j0) i j0 s with ⟨-, v, g, hg, hop⟩ | hop
    · rw [subLoop_succ_of_ok hop] at h
      have hfirst := setGpr_elWrite_changesWithin (isWidth_widthOf c.elwidth) hg (hp j0 (by omega))
      exact hfirst.trans (ih (fun j hj => hp j (by omega)) h)
    · rw [subLoop_succ_of_error hop] at h
      cases h

theorem loop1PFrom_addCtx_changesWithin {s0 : State} {k i : Nat}
    (hp : ∀ i' < i + k, predMask s0 c.maskMode c.mask i' = .ok true → ∀ j < subLen c.subvl, ∀ b,
      inElement (tagged rt x.rdest) i' (subLen c.subvl) j (widthOf c.elwidth) b → p b)
    (h : loop1PFrom s0 (addCtx c x rt ra rb) k i s = .ok t) : ChangesWithin p s t := by
  induction k generalizing i s with
  | zero =>
    cases h
    exact .refl p _
  | succ k ih =>
    have hrest : ∀ u, loop1PFrom s0 (addCtx c x rt ra rb) k (i + 1) u = .ok t → ChangesWithin p u t := fun u =>
      ih (fun i' hi' => hp i' (by omega))
    rcases loop1PFrom_succ_ok h with ⟨-, hgo⟩ | ⟨hm, u, hu, hend⟩
    · exact hrest s hgo
    · have hsub : ChangesWithin p s u :=
        subLoop_addCtx_changesWithin (fun j hj => hp i (by omega) hm j (Nat.zero_add (subLen c.subvl) ▸ hj)) hu
      rcases hend with ⟨-, rfl⟩ | ⟨-, hgo⟩
      · exact hsub
      · exact hsub.trans (hrest u hgo)

end

/-- Whether byte `k` lies in a destination element of an iteration below `VL` that the mask enables (R172). -/
def inEnabledElement (c : RmCommon) (o : Bool × Nat) (s : State) (k : Nat) : Prop :=
  ∃ i < s.vl, ∃ j < subLen c.subvl, predMask s c.maskMode c.mask i = .ok true ∧
    inElement o i (subLen c.subvl) j (widthOf c.elwidth) k

/-- At identity the one element is the whole register of the field (R117, R202). -/
theorem inEnabledElement_identity (rt : BitVec 5) {s : State} (hvl : s.vl = 1) {k : Nat} (hk : k / 8 = rt.toNat) :
    inEnabledElement zeroCommon (tagged rt 0#3) s k := by
  have hstart : elAt (tagged rt 0#3).2 (refIndex (tagged rt 0#3).1 0 1 0) 64 = 8 * rt.toNat := by
    rw [tagged, extend_zero_toNat]
    simp [elAt, refIndex]
  refine ⟨0, by omega, 0, by decide, rfl, ?_⟩
  show elAt (tagged rt 0#3).2 (refIndex (tagged rt 0#3).1 0 1 0) 64 ≤ k ∧
    k < elAt (tagged rt 0#3).2 (refIndex (tagged rt 0#3).1 0 1 0) 64 + 8
  omega

/-- An `add` pair that completes changes the bytes of enabled destination elements, and `pc`. -/
theorem exec_add_pair_next {c : RmCommon} {x : Extra1p2s1d} {rt ra rb : BitVec 5} {s t : State}
    (h : exec (.svRm1p2s1d c x (.add rt ra rb)) s = .next t) :
    ∃ u a, t = u.setPc a ∧ RegsOnly s u ∧ ChangesWithin (inEnabledElement c (tagged rt x.rdest) s) s u := by
  have h' : execSvp64 c (slots1p2s1d x) (.add rt ra rb) s = .next t := h
  obtain ⟨-, -, ⟨-, rfl⟩ | ⟨-, hact⟩⟩ := execSvp64_next h'
  · exact ⟨s, _, rfl, .refl s, .refl _ s⟩
  · obtain ⟨-, ⟨hz, hvl, hid⟩ | ⟨-, -, hnorm⟩⟩ := execActive_ok hact
    · rw [rmIsZero_slots1p2s1d, decide_eq_true_eq] at hz
      obtain ⟨rfl, rfl⟩ := hz
      obtain ⟨u, hu, rfl⟩ := identityExec_ok hid
      cases hu
      exact ⟨setGprField s rt _, _, rfl, setGprField_regsOnly s rt _,
        setGpr_writeReg_changesWithin fun k hk => inEnabledElement_identity rt hvl hk⟩
    · obtain ⟨-, -, -, -, u, hu, rfl⟩ := execNormal_ok hnorm
      rcases runLoop_ok hu with ⟨-, hloop⟩ | ⟨hfmt, -⟩
      · refine ⟨u, _, rfl, loop1P_regsOnly hloop, loop1PFrom_addCtx_changesWithin ?_ hloop⟩
        exact fun i hi hm j hj b hb => ⟨i, by simpa using hi, j, hj, hm, hb⟩
      · cases hfmt

/-- Settles O40: it changes nothing, writes one whole register at identity, or loops over enabled elements. -/
theorem disabledElementsKeepTheirBytes : Obligations.DisabledElementsKeepTheirBytes := by
  intro c x rt ra rb s t h
  obtain ⟨u, a, rfl, hregs, hbytes⟩ := exec_add_pair_next h
  exact ⟨hbytes.frame hregs a, fun k _ hk => hbytes.gpr k hk⟩

end Sys2Proof.Machine

/-! ## A supplied word over three operands of any file, at `VL` = 1 (R111, R119) -/

namespace Sys2Proof.Machine

/-- The operand a field of the given kind and an EXTRA3 value name (R192). -/
def operandOf (k : RegKind) (r : BitVec 5) (v : BitVec 3) : ExtOperand := extendOperand ⟨.rdest, k, r⟩ (.e3 v)

@[simp] theorem readEl_operandOf_fpr (s : State) (r : BitVec 5) (v : BitVec 3) (e w : Nat) :
    readEl s (operandOf .fpr r v) e w = elRead s.fpr (tagged r v).2 e w := rfl

theorem writeEl_operandOf_fpr {clash : Nat → Bool} {s : State} {r : BitVec 5} {v : BitVec 3} {e w : Nat} {d : Word}
    {g : RegFile} (h : elWrite s.fpr (tagged r v).2 e w d = .ok g) :
    writeEl clash s (operandOf .fpr r v) e w d = .ok (s.setFpr g) := by
  simp only [tagged] at h
  simp [writeEl, operandOf, extendOperand, h]

/-- An element operation of two sources and a destination that raises no exception. -/
theorem elementStep_two_sources {clash : Nat → Bool} {sfx : Suffix} {oa ob ot : ExtOperand} {w sv i d j : Nat}
    {s t : State} {a b : Word} (ha : readEl s oa (elIndex oa i sv j) w = .ok a)
    (hb : readEl s ob (elIndex ob i sv j) w = .ok b) (hraise : elementRaises sfx w [a, b] = false)
    (ht : writeEl clash s ot (elIndex ot d sv j) w (elementOp sfx w [a, b]).1 = .ok t) :
    elementStep clash sfx [oa, ob] [ot] w sv i d j s = .ok t := by
  simp [elementStep, readEls, writeEls, ha, hb, hraise, ht]

/-- Without CR predication no write destroys a predicate (R171). -/
theorem crClash_int (vl : Nat) (pending : Nat → Bool) : crClash false vl pending = fun _ => false := rfl

/-- A supplied RM-1P-2S1D profile of a destination and two sources of the given kinds, that raises no exception. -/
def threeProfile (mn : String) (dw : Nat) (kt ka kb : RegKind) (ft fa fb : BitVec 5) : Profile :=
  normalProfile mn dw .rm1p2s1d [⟨.rdest, kt, ft⟩, ⟨.rsrc1, ka, fa⟩, ⟨.rsrc2, kb, fb⟩] false

/-- A supplied suffix of that profile. -/
def threeSuffix (mn : String) (dw : Nat) (word : Insn) (kt ka kb : RegKind) (ft fa fb : BitVec 5) : Suffix :=
  .other word (threeProfile mn dw kt ka kb ft fa fb)

section
variable (mn : String) (dw : Nat) (word : Insn) (kt ka kb : RegKind) (ft fa fb : BitVec 5)

theorem loopCtx_threeSuffix (c : RmCommon) (x : Extra1p2s1d) :
    loopCtx c (slots1p2s1d x) (threeSuffix mn dw word kt ka kb ft fa fb) =
      { sfx := threeSuffix mn dw word kt ka kb ft fa fb
        srcs := [operandOf ka fa x.rsrc1, operandOf kb fb x.rsrc2]
        dsts := [operandOf kt ft x.rdest]
        w := widthOf c.elwidth
        sv := subLen c.subvl
        maskMode := c.maskMode
        mask := c.mask
        maskSrc := 0#3 } := by
  have himp : implicitDests (threeSuffix mn dw word kt ka kb ft fa fb) (slots1p2s1d x) = [] := by
    simp [implicitDests, threeSuffix, threeProfile, baseImplicitDests, normalProfile]
  simp only [loopCtx, himp]
  rfl

variable {c : RmCommon} {x : Extra1p2s1d} {s t : State} {a b : Word}

/-- Its unprefixed form is the element operation on the base ISA's own whole registers (R117, R141). -/
theorem identityExec_threeSuffix (ha : readEl s (operandOf ka fa 0#3) 0 64 = .ok a)
    (hb : readEl s (operandOf kb fb 0#3) 0 64 = .ok b)
    (ht : writeEl (fun _ => false) s (operandOf kt ft 0#3) 0 64 (Config.elementOp word 64 [a, b]).1 = .ok t) :
    identityExec (threeSuffix mn dw word kt ka kb ft fa fb) s = .ok (t.setPc (s.pc + 8#64)) := by
  have hstep : elementStep (fun _ => false) (threeSuffix mn dw word kt ka kb ft fa fb)
      (sourcesOf (threeProfile mn dw kt ka kb ft fa fb) noSlots)
      (destsOf (threeProfile mn dw kt ka kb ft fa fb) noSlots ++
        baseImplicitDests word (threeProfile mn dw kt ka kb ft fa fb)) 64 1 0 0 0 s = .ok t :=
    elementStep_two_sources (by rwa [elIndex_zero]) (by rwa [elIndex_zero]) rfl (by rwa [elIndex_zero])
  have hbase : baseExec (threeSuffix mn dw word kt ka kb ft fa fb) s =
      baseElementWise word (threeProfile mn dw kt ka kb ft fa fb) s := rfl
  rw [identityExec, hbase, baseElementWise, ← threeSuffix, hstep]
  rfl

/-- Its loop at `VL` = 1 without predication is the one element operation (R119). -/
theorem loop1P_threeSuffix (hvl : s.vl = 1) (hmm : c.maskMode = false) (hm : c.mask = 0#3) (hsv : c.subvl = 0#2)
    (ha : readEl s (operandOf ka fa x.rsrc1) 0 (widthOf c.elwidth) = .ok a)
    (hb : readEl s (operandOf kb fb x.rsrc2) 0 (widthOf c.elwidth) = .ok b)
    (ht : writeEl (fun _ => false) s (operandOf kt ft x.rdest) 0 (widthOf c.elwidth)
      (Config.elementOp word (widthOf c.elwidth) [a, b]).1 = .ok t) :
    loop1P (loopCtx c (slots1p2s1d x) (threeSuffix mn dw word kt ka kb ft fa fb)) s = .ok t := by
  have hmask : predMask s c.maskMode c.mask 0 = .ok true := by rw [hmm, hm]; rfl
  rw [loopCtx_threeSuffix, loop1P_one hvl hmask (congrArg subLen hsv), hmm, crClash_int]
  exact elementStep_two_sources (by rwa [elIndex_zero]) (by rwa [elIndex_zero]) rfl (by rwa [elIndex_zero])

/-- Such a pair at `VL` = 1 writes the one element its operation gives, at identity and in the loop alike (R114, R119). -/
theorem exec_threeSuffix (hvl : s.vl = 1) (hmm : c.maskMode = false) (hm : c.mask = 0#3)
    (hew : c.elwidth = c.elwidthSrc) (hsv : c.subvl = 0#2) (hmode : c.mode = 0#5)
    (hres : reserved c (slots1p2s1d x) (threeProfile mn dw kt ka kb ft fa fb) = false)
    (ha : readEl s (operandOf ka fa x.rsrc1) 0 (widthOf c.elwidth) = .ok a)
    (hb : readEl s (operandOf kb fb x.rsrc2) 0 (widthOf c.elwidth) = .ok b)
    (ht : writeEl (fun _ => false) s (operandOf kt ft x.rdest) 0 (widthOf c.elwidth)
      (Config.elementOp word (widthOf c.elwidth) [a, b]).1 = .ok t) :
    exec (.svRm1p2s1d c x (threeSuffix mn dw word kt ka kb ft fa fb)) s = .next (t.setPc (s.pc + 8#64)) := by
  have hact : execActive c (slots1p2s1d x) (threeSuffix mn dw word kt ka kb ft fa fb) s =
      .ok (t.setPc (s.pc + 8#64)) := by
    rw [execActive_normal rfl rfl rfl rfl rfl hmode hew, rmIsZero_slots1p2s1d]
    by_cases hid : c = zeroCommon ∧ x = ⟨0#3, 0#3, 0#3⟩
    · obtain ⟨rfl, rfl⟩ := hid
      rw [identityExec_threeSuffix mn dw word kt ka kb ft fa fb ha hb ht]
      simp [hvl]
    · rw [loop1P_threeSuffix mn dw word kt ka kb ft fa fb hvl hmm hm hsv ha hb ht, Except.map, advance,
        (writeEl_regsOnly ht).pc]
      simp [hid]
  have hfmt : (suffixProfile (threeSuffix mn dw word kt ka kb ft fa fb)).rmFormat ≠ none := by
    simp [threeSuffix, threeProfile, suffixProfile, normalProfile]
  have hres' : reserved c (slots1p2s1d x) (suffixProfile (threeSuffix mn dw word kt ka kb ft fa fb)) = false := hres
  have hvl0 : s.vl ≠ 0 := by omega
  simp only [exec, execSvRm1p2s1d, execSvp64, if_neg hfmt, hres', if_neg hvl0, hact, Bool.false_eq_true, if_false,
    outcomeOf]

end

/-- Over three FPRs no value of `RM` is reserved but the width of bf16 (R95, R144). -/
theorem reserved_threeFpr (mn : String) (dw : Nat) (ft fa fb : BitVec 5) {c : RmCommon} (x : Extra1p2s1d)
    (hbf : c.elwidth ≠ 3#2) (hew : c.elwidth = c.elwidthSrc) :
    reserved c (slots1p2s1d x) (threeProfile mn dw .fpr .fpr .fpr ft fa fb) = false := by
  have hfield : ∀ r, widthField c r ≠ 3#2 := by
    intro r
    rw [widthField, ← hew, ite_self]
    exact hbf
  simp [reserved, reservedBf16, reservedFpSingle, reservedUnused, threeProfile, normalProfile, slots1p2s1d, hfield]

/-- Settles O46: the one element operation over operands of the FPR file. -/
theorem floatPairWritesTheFprFileAlone : Obligations.FloatPairWritesTheFprFileAlone := by
  intro mn dw word ft fa fb c x s hvl hmm hm hbf hew hsv hmode
  have hin : ∀ r v, elInFile (tagged r v).2 0 (widthOf c.elwidth) = true := fun r v =>
    elInFile_zero (tagged_lt r v) (widthOf_le _)
  obtain ⟨a, ha⟩ := exists_elRead s.fpr (hin fa x.rsrc1)
  obtain ⟨b, hb⟩ := exists_elRead s.fpr (hin fb x.rsrc2)
  obtain ⟨g, hg⟩ := exists_elWrite s.fpr (Config.elementOp word (widthOf c.elwidth) [a, b]).1 (hin ft x.rdest)
  exact ⟨a, b, g, ha, hb, hg, exec_threeSuffix mn dw word .fpr .fpr .fpr ft fa fb hvl hmm hm hew hsv hmode
    (reserved_threeFpr mn dw ft fa fb x hbf hew) ha hb (writeEl_operandOf_fpr hg)⟩

end Sys2Proof.Machine

/-! ## Loads and stores of a word (R51, R56, R58, R224, R225) -/

namespace Sys2Proof.Machine

/-! ### The addresses of an aligned access -/

/-- An aligned word does not wrap around the end of memory. -/
theorem toNat_add_of_aligned {a : Word} (ha : a.toNat % 4 = 0) {k : Nat} (hk : k < 4) :
    (a + BitVec.ofNat 64 k).toNat = a.toNat + k := by
  have hlt := a.isLt
  rw [BitVec.toNat_add, BitVec.toNat_ofNat]
  omega

theorem mem_addrsFrom {a x : Word} {n : Nat} : x ∈ addrsFrom a n ↔ ∃ k < n, a + BitVec.ofNat 64 k = x := by
  simp [addrsFrom]

/-- The addresses of an aligned word are the four from it on. -/
theorem forall_addrsFrom_aligned {a : Word} (ha : a.toNat % 4 = 0) {p : Nat → Prop} :
    (∀ x ∈ addrsFrom a 4, p x.toNat) ↔ ∀ k < 4, p (a.toNat + k) := by
  constructor
  · intro h k hk
    rw [← toNat_add_of_aligned ha hk]
    exact h _ (mem_addrsFrom.mpr ⟨k, hk, rfl⟩)
  · intro h x hx
    obtain ⟨k, hk, rfl⟩ := mem_addrsFrom.mp hx
    rw [toNat_add_of_aligned ha hk]
    exact h k hk

theorem exists_addrsFrom_aligned {a : Word} (ha : a.toNat % 4 = 0) {p : Nat → Prop} :
    (∃ x ∈ addrsFrom a 4, p x.toNat) ↔ ∃ k < 4, p (a.toNat + k) := by
  simpa only [not_forall, not_not, exists_prop] using
    not_congr (forall_addrsFrom_aligned ha (p := fun b => ¬ p b))

/-! ### The check of an access -/

section
variable {s : State} {a : Word}

theorem checkAccess_of_misaligned {n : Nat} (ha : a.toNat % n ≠ 0) :
    checkAccess s a n = .error .misalignedAccess := if_pos ha

theorem checkAccess_of_aligned (ha : a.toNat % 4 = 0) (hadm : ∀ k < 4, s.launch.admits (a.toNat + k) = true) :
    checkAccess s a 4 = .ok () := by
  rw [checkAccess, if_neg (not_not.mpr ha), if_pos]
  exact List.all_eq_true.mpr ((forall_addrsFrom_aligned (p := fun b => s.launch.admits b = true) ha).mpr hadm)

theorem checkAccess_of_not_admitted (ha : a.toNat % 4 = 0) (hno : ∃ k < 4, s.launch.admits (a.toNat + k) = false) :
    checkAccess s a 4 = .error .addressNotAdmitted := by
  obtain ⟨x, hx, hadm⟩ := (exists_addrsFrom_aligned (p := fun b => s.launch.admits b = false) ha).mpr hno
  rw [checkAccess, if_neg (not_not.mpr ha), if_neg]
  exact fun hall => Bool.false_ne_true (hadm.symm.trans (List.all_eq_true.mp hall x hx))

end

/-! ### `lwz` and `stw` after the check -/

section
variable {r ra : BitVec 5} {d : BitVec 16} {s : State}

theorem exec_lwz_refused {e : Refusal} (h : checkAccess s (effAddr s ra d) 4 = .error e) :
    exec (.lwz r ra d) s = .refused e := by
  simp only [exec, execLwz, baseLwz, load32, h, outcomeOf]

theorem exec_stw_refused {e : Refusal} (h : checkAccess s (effAddr s ra d) 4 = .error e) :
    exec (.stw r ra d) s = .refused e := by
  simp only [exec, execStw, baseStw, store32, h, outcomeOf]

theorem exec_lwz_next (h : checkAccess s (effAddr s ra d) 4 = .ok ()) :
    exec (.lwz r ra d) s =
      .next (advance (setGprField s r ((BitVec.ofNat 32 (memRead s (effAddr s ra d) 4)).setWidth 64)) 4) := by
  simp only [exec, execLwz, baseLwz, load32, h, outcomeOf]

theorem exec_stw_next (h : checkAccess s (effAddr s ra d) 4 = .ok ()) :
    exec (.stw r ra d) s =
      .next (advance (storeBytes s (store32Bytes s (effAddr s ra d) ((gprField s r).setWidth 32))) 4) := by
  simp only [exec, execStw, baseStw, store32, h, outcomeOf]

end

/-- Settles O21: the check of the access refuses both. -/
theorem badAccessIsRefused : Obligations.BadAccessIsRefused := by
  intro r ra d s
  refine ⟨fun ha => ?_, fun ha hno => ?_⟩
  · exact ⟨exec_lwz_refused (checkAccess_of_misaligned ha), exec_stw_refused (checkAccess_of_misaligned ha)⟩
  · exact ⟨exec_lwz_refused (checkAccess_of_not_admitted ha hno), exec_stw_refused (checkAccess_of_not_admitted ha hno)⟩

/-! ### The number four bytes form -/

/-- The number the four bytes from an address on form in the byte order of `MSR.LE` (R51). -/
def wordAt (s : State) (a : Nat) : Nat :=
  let byte := fun k => (s.mem.read (a + k)).toNat
  if s.le then byte 0 + 2 ^ 8 * byte 1 + 2 ^ 16 * byte 2 + 2 ^ 24 * byte 3
  else byte 3 + 2 ^ 8 * byte 2 + 2 ^ 16 * byte 1 + 2 ^ 24 * byte 0

theorem natOfBytes_four (b0 b1 b2 b3 : Byte) :
    natOfBytes [b0, b1, b2, b3] = b0.toNat + 2 ^ 8 * b1.toNat + 2 ^ 16 * b2.toNat + 2 ^ 24 * b3.toNat := by
  simp only [natOfBytes]
  omega

theorem wordAt_lt (s : State) (a : Nat) : wordAt s a < 2 ^ 32 := by
  have hbyte : ∀ k, (s.mem.read (a + k)).toNat < 256 := fun k => (s.mem.read (a + k)).isLt
  have h0 := hbyte 0
  have h1 := hbyte 1
  have h2 := hbyte 2
  have h3 := hbyte 3
  simp only [wordAt]
  split <;> omega

/-- An aligned read of four bytes (R51). -/
theorem memRead_aligned {s : State} {a : Word} (ha : a.toNat % 4 = 0) : memRead s a 4 = wordAt s a.toNat := by
  have hbytes : (addrsFrom a 4).map (fun x => s.mem.read x.toNat) =
      (List.range 4).map fun k => s.mem.read (a.toNat + k) := by
    rw [addrsFrom, List.map_map]
    exact List.map_congr_left fun k hk => congrArg s.mem.read (toNat_add_of_aligned ha (List.mem_range.mp hk))
  rw [memRead, hbytes, wordAt]
  cases s.le <;> exact natOfBytes_four _ _ _ _

/-- The low four bytes of a value, stored in the byte order of `MSR.LE`, form its low 32 bits. -/
theorem wordAt_of_bytes {s : State} {a : Nat} {v : Word}
    (h : ∀ k < 4, s.mem.read (a + k) = v.extractLsb' (8 * (if s.le then k else 3 - k)) 8) :
    wordAt s a = v.toNat % 2 ^ 32 := by
  have h0 := congrArg BitVec.toNat (h 0 (by decide))
  have h1 := congrArg BitVec.toNat (h 1 (by decide))
  have h2 := congrArg BitVec.toNat (h 2 (by decide))
  have h3 := congrArg BitVec.toNat (h 3 (by decide))
  simp only [BitVec.extractLsb'_toNat, Nat.shiftRight_eq_div_pow] at h0 h1 h2 h3
  simp only [wordAt]
  cases hle : s.le <;> simp only [hle, if_true, if_false, Bool.false_eq_true] at h0 h1 h2 h3 ⊢ <;> omega

/-! ### `lwz` -/

/-- The next address and a GPR, written by an instruction of one word: its frame. -/
theorem setGprField_advance_frame (s : State) (r : BitVec 5) (v : Word) (n : Nat) :
    Frame (fun k => k = r.toNat) nowhere nowhere nowhere s (advance (setGprField s r v) n) where
  gpr k hk := (readReg_writeReg s.gpr r.toNat v k).trans (if_neg fun h => hk h.1)
  fpr _ _ := rfl
  cr _ _ := rfl
  mem _ _ := rfl
  stored _ := (iff_of_eq (or_false _)).symm
  vl := rfl
  le := rfl
  launch := rfl

theorem readReg_setGprField_same (s : State) (r : BitVec 5) (v : Word) :
    readReg (setGprField s r v).gpr r.toNat = v :=
  (readReg_writeReg s.gpr r.toNat v r.toNat).trans (if_pos ⟨rfl, Nat.lt_trans r.isLt (by decide)⟩)

/-- Settles O18: the access passes its check, and the word read has 32 bits. -/
theorem lwzLoadsTheWord : Obligations.LwzLoadsTheWord := by
  intro rt ra d s ha hadm
  refine ⟨_, exec_lwz_next (checkAccess_of_aligned ha hadm), ?_, rfl, setGprField_advance_frame s rt _ 4⟩
  have hlt := wordAt_lt s (effAddr s ra d).toNat
  rw [advance_gpr, readReg_setGprField_same, BitVec.toNat_setWidth, BitVec.toNat_ofNat, memRead_aligned ha,
    Nat.mod_eq_of_lt hlt, Nat.mod_eq_of_lt (Nat.lt_trans hlt (by decide))]
  rfl

/-! ### `stw` -/

/-- Of bytes stored at different addresses each reads as it was stored. -/
theorem storeBytes_read_stored {s : State} {l : List (Word × Byte)} (hm : s.mem.wf = true)
    (hnodup : (l.map fun p => p.1.toNat).Nodup) {p : Word × Byte} (hp : p ∈ l) :
    (storeBytes s l).mem.read p.1.toNat = p.2 := by
  induction l generalizing s with
  | nil => cases hp
  | cons q l ih =>
    obtain ⟨hq, hl⟩ := List.nodup_cons.mp hnodup
    have hwf : (storeByte s q).mem.wf = true := Memory.write_wf hm q.1.isLt q.2
    rw [storeBytes_cons]
    rcases List.mem_cons.mp hp with rfl | hp
    · have hother : ∀ x ∈ l, x.1.toNat ≠ p.1.toNat := fun x hx he => hq (List.mem_map.mpr ⟨x, hx, he⟩)
      rw [storeBytes_read_other _ l hwf hother, storeByte_mem, Memory.read_write hm, if_pos rfl]
    · exact ih hwf hl hp

/-- What a store of 4 bytes writes where (R51). -/
theorem store32Bytes_eq (s : State) (a : Word) (v : BitVec 32) :
    store32Bytes s a v = (List.range 4).map fun k =>
      (a + BitVec.ofNat 64 k, v.extractLsb' (8 * (if s.le then k else 3 - k)) 8) := by
  rw [store32Bytes, bytesOfNat]
  cases s.le <;> rfl

/-- An aligned store of 4 bytes writes the four bytes from its address on. -/
theorem store32Bytes_addrs {s : State} {a : Word} {v : BitVec 32} (ha : a.toNat % 4 = 0) :
    ((store32Bytes s a v).map fun p => p.1.toNat) = (List.range 4).map fun k => a.toNat + k := by
  rw [store32Bytes_eq, List.map_map]
  exact List.map_congr_left fun k hk => toNat_add_of_aligned ha (List.mem_range.mp hk)

theorem store32Bytes_nodup {s : State} {a : Word} {v : BitVec 32} (ha : a.toNat % 4 = 0) :
    ((store32Bytes s a v).map fun p => p.1.toNat).Nodup := by
  rw [store32Bytes_addrs ha]
  exact List.nodup_range.map fun _ _ h => Nat.add_left_cancel h

theorem mem_store32Bytes_addr {s : State} {a : Word} {v : BitVec 32} (ha : a.toNat % 4 = 0) {b : Nat} :
    (∃ p ∈ store32Bytes s a v, p.1.toNat = b) ↔ a.toNat ≤ b ∧ b < a.toNat + 4 := by
  rw [← List.mem_map, store32Bytes_addrs ha, List.mem_map]
  simp only [List.mem_range]
  constructor
  · rintro ⟨k, hk, rfl⟩
    omega
  · rintro ⟨hlo, hhi⟩
    exact ⟨b - a.toNat, by omega, by omega⟩

/-- The bytes of a value's low half are bytes of the value. -/
theorem extractLsb'_setWidth_32 (v : Word) {m : Nat} (hm : m < 4) :
    (v.setWidth 32).extractLsb' (8 * m) 8 = v.extractLsb' (8 * m) 8 := by
  apply BitVec.eq_of_getLsbD_eq
  intro i hi
  have hlt : 8 * m + i < 32 := by omega
  simp [hi, hlt]

/-- An aligned store of 4 bytes, read back (R51, R225). -/
theorem storeBytes_store32Bytes_read {s : State} {a : Word} {v : Word} (hm : s.mem.wf = true) (ha : a.toNat % 4 = 0)
    {k : Nat} (hk : k < 4) :
    (storeBytes s (store32Bytes s a (v.setWidth 32))).mem.read (a.toNat + k) =
      v.extractLsb' (8 * (if s.le then k else 3 - k)) 8 := by
  have hstored : (a + BitVec.ofNat 64 k, (v.setWidth 32).extractLsb' (8 * (if s.le then k else 3 - k)) 8) ∈
      store32Bytes s a (v.setWidth 32) := by
    rw [store32Bytes_eq]
    exact List.mem_map.mpr ⟨k, List.mem_range.mpr hk, rfl⟩
  have hpos : (if s.le then k else 3 - k) < 4 := by split <;> omega
  rw [← toNat_add_of_aligned ha hk, ← extractLsb'_setWidth_32 v hpos]
  exact storeBytes_read_stored hm (store32Bytes_nodup ha) hstored

/-- The frame of an aligned store of 4 bytes. -/
theorem storeBytes_store32Bytes_frame {s : State} {a : Word} {v : BitVec 32} (hm : s.mem.wf = true)
    (ha : a.toNat % 4 = 0) (n : Nat) :
    Frame nowhere nowhere nowhere (fun b => a.toNat ≤ b ∧ b < a.toNat + 4) s
      (advance (storeBytes s (store32Bytes s a v)) n) := by
  obtain ⟨hgpr, hfpr, hcr, hvl, -, hle, hlaunch⟩ := storeBytes_rest s (store32Bytes s a v)
  refine ⟨fun k _ => congrArg (readReg · k) hgpr, fun k _ => congrArg (readReg · k) hfpr,
    fun k _ => congrArg (readCr · k) hcr, fun b hb => ?_, fun b => ?_, hvl, hle, hlaunch⟩
  · exact storeBytes_read_other s _ hm fun p hp he => hb ((mem_store32Bytes_addr ha).mp ⟨p, hp, he⟩)
  · rw [advance_stored, mem_storeBytes_stored, mem_store32Bytes_addr ha]

/-- Settles O19: the access passes its check, and its four bytes lie at different addresses. -/
theorem stwStoresTheWord : Obligations.StwStoresTheWord := by
  intro rs ra d s hm ha hadm
  refine ⟨_, exec_stw_next (checkAccess_of_aligned ha hadm), fun k hk => storeBytes_store32Bytes_read hm ha hk, ?_,
    storeBytes_store32Bytes_frame hm ha 4⟩
  obtain ⟨-, -, -, -, hpc, -⟩ := storeBytes_rest s (store32Bytes s (effAddr s ra d) ((gprField s rs).setWidth 32))
  rw [advance_pc, hpc]

/-! ### `stw`, then `lwz` -/

/-- Where no GPR changed the effective address did not either. -/
theorem effAddr_of_frame {f c m : Nat → Prop} {s t : State} (h : Frame nowhere f c m s t) (ra : BitVec 5)
    (d : BitVec 16) : effAddr t ra d = effAddr s ra d := by
  rw [effAddr, effAddr, gprOrZero, gprOrZero, gprField, gprField, h.gpr ra.toNat not_false]

/-- A `stw` that answered a next state had an aligned, admitted address. -/
theorem exec_stw_checked {rs ra : BitVec 5} {d : BitVec 16} {s t : State} (h : exec (.stw rs ra d) s = .next t) :
    (effAddr s ra d).toNat % 4 = 0 ∧ ∀ k < 4, s.launch.admits ((effAddr s ra d).toNat + k) = true := by
  obtain ⟨u, hu, -⟩ := baseStw_ok (outcomeOf_next.mp h)
  obtain ⟨ha, hadm⟩ := checkAccess_ok (store32_ok hu).1
  exact ⟨ha, (forall_addrsFrom_aligned (p := fun b => s.launch.admits b = true) ha).mp hadm⟩

/-- Settles O20, from what `stw` and `lwz` each do: the load reads the bytes of the store at the same address. -/
theorem storeThenLoadReturnsTheWord : Obligations.StoreThenLoadReturnsTheWord := by
  intro rs rt ra d s t hm hstw
  obtain ⟨ha, hadm⟩ := exec_stw_checked hstw
  obtain ⟨t', ht', hbytes, -, hframe⟩ := stwStoresTheWord rs ra d s hm ha hadm
  obtain rfl : t = t' := Host.Outcome.next.inj (hstw.symm.trans ht')
  have haddr := effAddr_of_frame hframe ra d
  obtain ⟨u, hu, hload, -⟩ := lwzLoadsTheWord rt ra d t (haddr ▸ ha) (by rwa [haddr, hframe.launch])
  have hword : wordAt t (effAddr s ra d).toNat = (readReg s.gpr rs.toNat).toNat % 2 ^ 32 :=
    wordAt_of_bytes (by rwa [hframe.le])
  refine ⟨u, hu, BitVec.eq_of_toNat_eq ?_⟩
  calc (readReg u.gpr rt.toNat).toNat = wordAt t (effAddr s ra d).toNat := haddr ▸ hload
    _ = (((readReg s.gpr rs.toNat).setWidth 32).setWidth 64).toNat := by
      rw [hword, BitVec.toNat_setWidth, BitVec.toNat_setWidth, Nat.mod_eq_of_lt (a := _ % 2 ^ 32)]
      omega

end Sys2Proof.Machine

/-! ## The fetch (R53, R54, R55, R58, R63) -/

namespace Sys2Proof

/-! ### The words of an instruction -/

/-- A word with one of these two bits set has another primary opcode than 1 (R74). -/
theorem isPrefixWord_eq_false {w : Insn} (h : w.getLsbD 27 = true ∨ w.getLsbD 31 = true) : isPrefixWord w = false := by
  have hbit : ∀ k < 6, (primaryOpcode w).getLsbD k = w.getLsbD (26 + k) := fun k hk => by simp [primaryOpcode, hk]
  rw [isPrefixWord, decide_eq_false_iff_not]
  intro hpo
  rw [hpo] at hbit
  rcases h with h | h
  · exact Bool.false_ne_true ((hbit 1 (by decide)).trans h)
  · exact Bool.false_ne_true ((hbit 5 (by decide)).trans h)

/-- An instruction is an SVP64 word and its suffix word, or one word not of primary opcode 1 (R54, R90). -/
theorem encode_cases (i : Instr) :
    (∃ p w, encode i = [p, w] ∧ isSvp64Prefix p = true) ∨ (∃ w, encode i = [w] ∧ isPrefixWord w = false) := by
  cases i with
  | sv rm w => exact .inl ⟨_, _, rfl, isSvp64Prefix_prefixOfRm _⟩
  | svRm1p3s1d c x sfx => exact .inl ⟨_, _, rfl, isSvp64Prefix_prefixOfRm _⟩
  | svRm1p2s1d c x sfx => exact .inl ⟨_, _, rfl, isSvp64Prefix_prefixOfRm _⟩
  | svRm2p1s1d c x sfx => exact .inl ⟨_, _, rfl, isSvp64Prefix_prefixOfRm _⟩
  | svRm2p2s c x sfx => exact .inl ⟨_, _, rfl, isSvp64Prefix_prefixOfRm _⟩
  | svRm2p2s1d c x sfx => exact .inl ⟨_, _, rfl, isSvp64Prefix_prefixOfRm _⟩
  | svRm2p1s2d c x sfx => exact .inl ⟨_, _, rfl, isSvp64Prefix_prefixOfRm _⟩
  | svRm2p3s c x sfx => exact .inl ⟨_, _, rfl, isSvp64Prefix_prefixOfRm _⟩
  | add rt ra rb => exact .inr ⟨_, rfl, isPrefixWord_eq_false (.inl (by simp [encodeSuffix, place]))⟩
  | addi rt ra si => exact .inr ⟨_, rfl, isPrefixWord_eq_false (.inl (by simp [encodeSuffix, place]))⟩
  | b li => exact .inr ⟨_, rfl, isPrefixWord_eq_false (.inl (by simp [encodeSuffix, place]))⟩
  | lwz rt ra d => exact .inr ⟨_, rfl, isPrefixWord_eq_false (.inr (by simp [encodeSuffix, place]))⟩
  | stw rs ra d => exact .inr ⟨_, rfl, isPrefixWord_eq_false (.inr (by simp [encodeSuffix, place]))⟩

@[simp] theorem length_bytesOfInsn (le : Bool) (w : Insn) : (bytesOfInsn le w).length = 4 := by
  cases le <;> rfl

/-- A word is the number its bytes form (R51, R53). -/
theorem insnOfBytes_bytesOfInsn (le : Bool) (w : Insn) : insnOfBytes le (bytesOfInsn le w) = w := by
  have hbytes : natOfBytes [w.extractLsb' 0 8, w.extractLsb' 8 8, w.extractLsb' 16 8, w.extractLsb' 24 8] = w.toNat := by
    rw [Machine.natOfBytes_four]
    simp only [BitVec.extractLsb'_toNat, Nat.shiftRight_eq_div_pow]
    omega
  have hword : BitVec.ofNat 32 w.toNat = w := by rw [BitVec.ofNat_toNat, BitVec.setWidth_eq]
  cases le <;> exact (congrArg (BitVec.ofNat 32) hbytes).trans hword

end Sys2Proof

namespace Sys2Proof.Machine

/-! ### The fetch of one word -/

section
variable {s : State} {a : Word}

theorem fetch32_of_misaligned (ha : a.toNat % 4 ≠ 0) : fetch32 s a = .error .pcMisaligned := if_pos ha

theorem fetch32_of_not_admitted (ha : a.toNat % 4 = 0) (hno : ∃ x ∈ addrsFrom a 4, s.launch.admits x.toNat = false) :
    fetch32 s a = .error .addressNotAdmitted := by
  rw [fetch32, if_neg (not_not.mpr ha), if_pos]
  simpa using hno

theorem fetch32_of_stored (ha : a.toNat % 4 = 0) (hadm : ∀ x ∈ addrsFrom a 4, s.launch.admits x.toNat = true)
    (hst : ∃ x ∈ addrsFrom a 4, x.toNat ∈ s.stored) : fetch32 s a = .error .storedCodeFetched := by
  rw [fetch32, if_neg (not_not.mpr ha), if_neg (by simpa using hadm), if_pos]
  simpa using hst

/-- Admitted bytes that nothing stored to give the word they are the bytes of (R53). -/
theorem fetch32_of_bytes {w : Insn} (ha : a.toNat % 4 = 0)
    (hok : ∀ x ∈ addrsFrom a 4, s.launch.admits x.toNat = true ∧ x.toNat ∉ s.stored)
    (hbytes : (addrsFrom a 4).map (fun x => s.mem.read x.toNat) = bytesOfInsn s.le w) : fetch32 s a = .ok w := by
  have hword : BitVec.ofNat 32 (memRead s a 4) = w := by
    rw [memRead, hbytes]
    exact insnOfBytes_bytesOfInsn s.le w
  rw [fetch32, if_neg (not_not.mpr ha), if_neg, if_neg, hword]
  · simpa using fun x hx => (hok x hx).2
  · simpa using fun x hx => (hok x hx).1

end

/-! ### The fetch of an instruction -/

/-- An aligned pair lies in two blocks exactly when its first word is the last of one (R55). -/
theorem crosses64_of_aligned {a : Word} (ha : a.toNat % 4 = 0) : crosses64 a = decide (a.toNat % 64 = 60) := by
  have hlt := a.isLt
  rw [crosses64, decide_eq_decide, BitVec.toNat_add, BitVec.toNat_ofNat]
  omega

section
variable {s : State} {w v : Insn}

theorem fetchWords_one (hw : fetch32 s s.pc = .ok w) (htwo : hasTwoWords s.launch.base w = false) :
    fetchWords s = .ok [w] := by
  simp [fetchWords, hw, htwo]

theorem fetchWords_two (hw : fetch32 s s.pc = .ok w) (htwo : hasTwoWords s.launch.base w = true)
    (hblock : s.launch.cross64 = true ∨ s.pc.toNat % 64 ≠ 60) (hv : fetch32 s (s.pc + 4#64) = .ok v) :
    fetchWords s = .ok [w, v] := by
  have hstay : (crosses64 s.pc && !s.launch.cross64) = false := by
    rw [crosses64_of_aligned (fetch32_ok hw).1]
    rcases hblock with h | h <;> simp [h]
  simp [fetchWords, hw, htwo, hstay, hv]

theorem fetchWords_crossing (hw : fetch32 s s.pc = .ok w) (htwo : hasTwoWords s.launch.base w = true)
    (hpc : s.pc.toNat % 64 = 60) (hno : s.launch.cross64 = false) : fetchWords s = .error .pairCrosses64 := by
  have hcross : crosses64 s.pc = true := by rw [crosses64_of_aligned (fetch32_ok hw).1, hpc]; rfl
  simp [fetchWords, hw, htwo, hcross, hno]

end

/-- A run of bytes is its first part and the rest. -/
theorem addrsFrom_add (a : Word) (m n : Nat) :
    addrsFrom a (m + n) = addrsFrom a m ++ addrsFrom (a + BitVec.ofNat 64 m) n := by
  simp only [addrsFrom, List.range_add, List.map_append, List.map_map]
  congr 1
  refine List.map_congr_left fun k _ => ?_
  simp [BitVec.ofNat_add, BitVec.add_assoc]

@[simp] theorem length_addrsFrom (a : Word) (n : Nat) : (addrsFrom a n).length = n := by simp [addrsFrom]

/-- Settles O23: the one word or the two words of an instruction, each fetched from its four bytes. -/
theorem fetchGivesTheWordsAtPc : Obligations.FetchGivesTheWordsAtPc := by
  intro s i hpc hok hbytes hblock
  rcases encode_cases i with ⟨p, w, henc, hp⟩ | ⟨w, henc, hw⟩
  · rw [henc] at hok hbytes hblock ⊢
    have haddrs : addrsFrom s.pc (4 * [p, w].length) = addrsFrom s.pc 4 ++ addrsFrom (s.pc + 4#64) 4 :=
      addrsFrom_add s.pc 4 4
    have hflat : [p, w].flatMap (bytesOfInsn s.le) = bytesOfInsn s.le p ++ bytesOfInsn s.le w := by simp
    rw [haddrs] at hok hbytes
    rw [List.map_append, hflat] at hbytes
    obtain ⟨hbp, hbw⟩ := List.append_inj hbytes (by simp)
    have hfirst := fetch32_of_bytes hpc (fun x hx => hok x (List.mem_append_left _ hx)) hbp
    have hsecond := fetch32_of_bytes (toNat_add_mod_four hpc rfl) (fun x hx => hok x (List.mem_append_right _ hx)) hbw
    exact fetchWords_two hfirst (by simp [hasTwoWords, hp]) (hblock rfl) hsecond
  · rw [henc] at hok hbytes ⊢
    have hsvp : isSvp64Prefix w = false :=
      Bool.eq_false_iff.mpr fun h => Bool.eq_false_iff.mp hw (isPrefixWord_of_isSvp64Prefix h)
    refine fetchWords_one (fetch32_of_bytes hpc hok ?_) (by simp [hasTwoWords, hsvp, hw])
    simpa using hbytes

/-- A refused fetch refuses the step. -/
theorem step_of_fetchWords_error {s : State} {r : Refusal} (h : fetchWords s = .error r) : step s = .refused r := by
  simp [step, h]

theorem step_of_fetch32_error {s : State} {r : Refusal} (h : fetch32 s s.pc = .error r) : step s = .refused r :=
  step_of_fetchWords_error (by simp [fetchWords, h])

/-- Settles O25: the first word is refused, or the pair for the block boundary in it. -/
theorem badFetchIsRefused : Obligations.BadFetchIsRefused := by
  intro s
  refine ⟨fun ha => ?_, fun ha hno => ?_, fun ha hadm hst => ?_, fun w hw htwo hpc hcross => ?_⟩
  · exact step_of_fetch32_error (fetch32_of_misaligned ha)
  · have hno' := (exists_addrsFrom_aligned (p := fun b => s.launch.admits b = false) ha).mpr hno
    exact step_of_fetch32_error (fetch32_of_not_admitted ha hno')
  · have hadm' := (forall_addrsFrom_aligned (p := fun b => s.launch.admits b = true) ha).mpr hadm
    have hst' := (exists_addrsFrom_aligned (p := (· ∈ s.stored)) ha).mpr hst
    exact step_of_fetch32_error (fetch32_of_stored ha hadm' hst')
  · exact step_of_fetchWords_error (fetchWords_crossing hw htwo hpc hcross)

end Sys2Proof.Machine

/-! ## The EXTRA layouts and `RM` (R79 to R89) -/

namespace Sys2Proof

/-! ### EXTRA put together and split again -/

/-- Three fields of 3 bits lie side by side in EXTRA. -/
theorem extract_extra_333 (a b c : BitVec 3) :
    (place 9 6 a ||| place 9 3 b ||| place 9 0 c).extractLsb' 6 3 = a ∧
    (place 9 6 a ||| place 9 3 b ||| place 9 0 c).extractLsb' 3 3 = b ∧
    (place 9 6 a ||| place 9 3 b ||| place 9 0 c).extractLsb' 0 3 = c := by
  refine ⟨?_, ?_, ?_⟩ <;>
  · apply BitVec.eq_of_getLsbD_eq
    intro i hi
    interval_cases i <;> simp [place]

/-- Three fields of 2 bits and one of 3 lie side by side in EXTRA. -/
theorem extract_extra_2223 (a b c : BitVec 2) (m : BitVec 3) :
    (place 9 7 a ||| place 9 5 b ||| place 9 3 c ||| place 9 0 m).extractLsb' 7 2 = a ∧
    (place 9 7 a ||| place 9 5 b ||| place 9 3 c ||| place 9 0 m).extractLsb' 5 2 = b ∧
    (place 9 7 a ||| place 9 5 b ||| place 9 3 c ||| place 9 0 m).extractLsb' 3 2 = c ∧
    (place 9 7 a ||| place 9 5 b ||| place 9 3 c ||| place 9 0 m).extractLsb' 0 3 = m := by
  refine ⟨?_, ?_, ?_, ?_⟩ <;>
  · apply BitVec.eq_of_getLsbD_eq
    intro i hi
    interval_cases i <;> simp [place]

/-- Four fields of 2 bits lie above EXTRA2_MODE. -/
theorem extract_extra_22221 (a b c d : BitVec 2) (m : Bool) :
    (Extra1p3s1d.bits ⟨a, b, c, d, m⟩).extractLsb' 7 2 = a ∧
    (Extra1p3s1d.bits ⟨a, b, c, d, m⟩).extractLsb' 5 2 = b ∧
    (Extra1p3s1d.bits ⟨a, b, c, d, m⟩).extractLsb' 3 2 = c ∧
    (Extra1p3s1d.bits ⟨a, b, c, d, m⟩).extractLsb' 1 2 = d := by
  refine ⟨?_, ?_, ?_, ?_⟩ <;>
  · apply BitVec.eq_of_getLsbD_eq
    intro i hi
    interval_cases i <;> simp [Extra1p3s1d.bits, place]

theorem extra1p3s1dOf_bits (x : Extra1p3s1d) : extra1p3s1dOf x.bits = x := by
  obtain ⟨a, b, c, d, m⟩ := x
  obtain ⟨ha, hb, hc, hd⟩ := extract_extra_22221 a b c d m
  have hm : (Extra1p3s1d.bits ⟨a, b, c, d, m⟩).getLsbD 0 = m := by simp [Extra1p3s1d.bits, place]
  rw [extra1p3s1dOf, ha, hb, hc, hd, hm]

theorem extra1p2s1dOf_bits (x : Extra1p2s1d) : extra1p2s1dOf x.bits = x := by
  obtain ⟨ha, hb, hc⟩ := extract_extra_333 x.rdest x.rsrc1 x.rsrc2
  rw [extra1p2s1dOf, Extra1p2s1d.bits, ha, hb, hc]

theorem extra2p1s1dOf_bits (x : Extra2p1s1d) : extra2p1s1dOf x.bits = x := by
  obtain ⟨ha, hb, hc⟩ := extract_extra_333 x.rdest x.rsrc1 x.maskSrc
  rw [extra2p1s1dOf, Extra2p1s1d.bits, ha, hb, hc]

theorem extra2p2sOf_bits (x : Extra2p2s) : extra2p2sOf x.bits = x := by
  obtain ⟨ha, hb, hc⟩ := extract_extra_333 x.rsrc1 x.rsrc2 x.maskSrc
  rw [extra2p2sOf, Extra2p2s.bits, ha, hb, hc]

theorem extra2p2s1dOf_bits (x : Extra2p2s1d) : extra2p2s1dOf x.bits = x := by
  obtain ⟨ha, hb, hc, hm⟩ := extract_extra_2223 x.rdest x.rsrc1 x.rsrc2 x.maskSrc
  rw [extra2p2s1dOf, Extra2p2s1d.bits, ha, hb, hc, hm]

theorem extra2p1s2dOf_bits (x : Extra2p1s2d) : extra2p1s2dOf x.bits = x := by
  obtain ⟨ha, hb, hc, hm⟩ := extract_extra_2223 x.rsrc1 x.rdest1 x.rdest2 x.maskSrc
  rw [extra2p1s2dOf, Extra2p1s2d.bits, ha, hb, hc, hm]

theorem extra2p3sOf_bits (x : Extra2p3s) : extra2p3sOf x.bits = x := by
  obtain ⟨ha, hb, hc, hm⟩ := extract_extra_2223 x.rsrc1 x.rsrc2 x.rsrc3 x.maskSrc
  rw [extra2p3sOf, Extra2p3s.bits, ha, hb, hc, hm]

/-- `RM` is its common fields and EXTRA (R79 to R81). -/
theorem rmOf_commonOfRm_extraOfRm (rm : BitVec 24) : rmOf (commonOfRm rm) (extraOfRm rm) = rm := by
  apply BitVec.eq_of_getLsbD_eq
  intro i hi
  interval_cases i <;> simp [rmOf, commonOfRm, extraOfRm, place]

end Sys2Proof

/-! ## Pairs: memory and refusals (R65, R94, R114, R117) -/

namespace Sys2Proof.Machine

/-! ### Pairs by their format -/

/-- A pair is an unsplit one, or the pair of a format, common fields, EXTRA and a suffix. -/
theorem isPair_cases {i : Instr} (h : isPair i = true) :
    (∃ rm w, i = .sv rm w) ∨
      ∃ f c e sfx, i = pairOf f c e sfx ∧ encode i = [prefixOfRm (rmOf c e), encodeSuffix sfx] := by
  cases i with
  | sv rm w => exact .inl ⟨rm, w, rfl⟩
  | svRm1p3s1d c x sfx => exact .inr ⟨.rm1p3s1d, c, x.bits, sfx, by rw [pairOf, extra1p3s1dOf_bits], rfl⟩
  | svRm1p2s1d c x sfx => exact .inr ⟨.rm1p2s1d, c, x.bits, sfx, by rw [pairOf, extra1p2s1dOf_bits], rfl⟩
  | svRm2p1s1d c x sfx => exact .inr ⟨.rm2p1s1d, c, x.bits, sfx, by rw [pairOf, extra2p1s1dOf_bits], rfl⟩
  | svRm2p2s c x sfx => exact .inr ⟨.rm2p2s, c, x.bits, sfx, by rw [pairOf, extra2p2sOf_bits], rfl⟩
  | svRm2p2s1d c x sfx => exact .inr ⟨.rm2p2s1d, c, x.bits, sfx, by rw [pairOf, extra2p2s1dOf_bits], rfl⟩
  | svRm2p1s2d c x sfx => exact .inr ⟨.rm2p1s2d, c, x.bits, sfx, by rw [pairOf, extra2p1s2dOf_bits], rfl⟩
  | svRm2p3s c x sfx => exact .inr ⟨.rm2p3s, c, x.bits, sfx, by rw [pairOf, extra2p3sOf_bits], rfl⟩
  | add rt ra rb => cases h
  | addi rt ra si => cases h
  | b li => cases h
  | lwz rt ra d => cases h
  | stw rs ra d => cases h

/-- A pair of a format is the rule of the pair on its slots (R114). -/
theorem exec_pairOf (f : RmFormat) (c : RmCommon) (e : BitVec 9) (sfx : Suffix) (s : State) :
    exec (pairOf f c e sfx) s = execSvp64 c (slotsOfExtra f e) sfx s := by
  cases f <;> rfl

theorem slotsOfRm_eq (f : RmFormat) (rm : BitVec 24) : slotsOfRm f rm = slotsOfExtra f (extraOfRm rm) := by
  cases f <;> rfl

theorem slotsOfExtra_fmt (f : RmFormat) (e : BitVec 9) : (slotsOfExtra f e).fmt = f := by
  cases f <;> rfl

/-! ### Scalar identity (R94, R117) -/

theorem eq_zero_of_extract_333 {e : BitVec 9}
    (h : e.extractLsb' 6 3 = 0#3 ∧ e.extractLsb' 3 3 = 0#3 ∧ e.extractLsb' 0 3 = 0#3) : e = 0#9 := by
  simp only [BitVec.toNat_eq, BitVec.extractLsb'_toNat, Nat.shiftRight_eq_div_pow, BitVec.toNat_ofNat] at h ⊢
  omega

theorem eq_zero_of_extract_2223 {e : BitVec 9}
    (h : e.extractLsb' 7 2 = 0#2 ∧ e.extractLsb' 5 2 = 0#2 ∧ e.extractLsb' 3 2 = 0#2 ∧ e.extractLsb' 0 3 = 0#3) :
    e = 0#9 := by
  simp only [BitVec.toNat_eq, BitVec.extractLsb'_toNat, Nat.shiftRight_eq_div_pow, BitVec.toNat_ofNat] at h ⊢
  omega

theorem eq_zero_of_extract_22221 {e : BitVec 9}
    (h : e.extractLsb' 7 2 = 0#2 ∧ e.extractLsb' 5 2 = 0#2 ∧ e.extractLsb' 3 2 = 0#2 ∧ e.extractLsb' 1 2 = 0#2 ∧
      e.getLsbD 0 = false) : e = 0#9 := by
  simp only [BitVec.toNat_eq, BitVec.extractLsb'_toNat, Nat.shiftRight_eq_div_pow, BitVec.toNat_ofNat,
    BitVec.getLsbD, Nat.testBit_eq_decide_div_mod_eq, decide_eq_false_iff_not] at h ⊢
  omega

/-- EXTRA is zero where all its slots are and MASK_SRC is, whatever the layout (R94). -/
theorem extra_eq_zero {f : RmFormat} {e : BitVec 9} (hslots : slotsAreZero (slotsOfExtra f e) = true)
    (hmask : (slotsOfExtra f e).maskSrc = 0#3) : e = 0#9 := by
  have h := And.intro hslots hmask
  cases f with
  | rm1p3s1d =>
    exact eq_zero_of_extract_22221 (by
      simpa [slotsAreZero, slotsOfExtra, slots1p3s1d, extra1p3s1dOf, ExtraVal.isZero, and_assoc] using h)
  | rm1p2s1d =>
    exact eq_zero_of_extract_333 (by
      simpa [slotsAreZero, slotsOfExtra, slots1p2s1d, extra1p2s1dOf, ExtraVal.isZero, and_assoc] using h)
  | rm2p1s1d =>
    exact eq_zero_of_extract_333 (by
      simpa [slotsAreZero, slotsOfExtra, slots2p1s1d, extra2p1s1dOf, ExtraVal.isZero, and_assoc] using h)
  | rm2p2s =>
    exact eq_zero_of_extract_333 (by
      simpa [slotsAreZero, slotsOfExtra, slots2p2s, extra2p2sOf, ExtraVal.isZero, and_assoc] using h)
  | rm2p2s1d =>
    exact eq_zero_of_extract_2223 (by
      simpa [slotsAreZero, slotsOfExtra, slots2p2s1d, extra2p2s1dOf, ExtraVal.isZero, and_assoc] using h)
  | rm2p1s2d =>
    exact eq_zero_of_extract_2223 (by
      simpa [slotsAreZero, slotsOfExtra, slots2p1s2d, extra2p1s2dOf, ExtraVal.isZero, and_assoc] using h)
  | rm2p3s =>
    exact eq_zero_of_extract_2223 (by
      simpa [slotsAreZero, slotsOfExtra, slots2p3s, extra2p3sOf, ExtraVal.isZero, and_assoc] using h)

/-- The test for an all-zero `RM` passes only where the common fields and EXTRA are zero (R94). -/
theorem eq_zero_of_rmIsZero {f : RmFormat} {c : RmCommon} {e : BitVec 9} (h : rmIsZero c (slotsOfExtra f e) = true) :
    c = zeroCommon ∧ e = 0#9 := by
  obtain ⟨mm, m, ew, ews, sv, md⟩ := c
  simp only [rmIsZero, Bool.and_eq_true, Bool.not_eq_true', decide_eq_true_eq] at h
  obtain ⟨⟨⟨⟨⟨⟨⟨rfl, rfl⟩, rfl⟩, rfl⟩, rfl⟩, rfl⟩, hslots⟩, hmask⟩ := h
  exact ⟨rfl, extra_eq_zero hslots hmask⟩

/-- The first word of a pair that passes that test carries an all-zero `RM`. -/
theorem hasZeroPrefix_of_rmIsZero {i : Instr} {f : RmFormat} {c : RmCommon} {e : BitVec 9} {w : Insn}
    (henc : encode i = [prefixOfRm (rmOf c e), w]) (h : rmIsZero c (slotsOfExtra f e) = true) :
    hasZeroPrefix i = true := by
  obtain ⟨rfl, rfl⟩ := eq_zero_of_rmIsZero h
  rw [hasZeroPrefix, henc]
  rfl

/-- All that a pair can do when it answers a next state: the rule of the pair on the slots of some format, with the
common fields and EXTRA its first word carries. -/
theorem exec_pair_next {i : Instr} {s t : State} (hi : isPair i = true) (h : exec i s = .next t) :
    ∃ f c e sfx w, encode i = [prefixOfRm (rmOf c e), w] ∧ execSvp64 c (slotsOfExtra f e) sfx s = .next t := by
  rcases isPair_cases hi with ⟨rm, w, rfl⟩ | ⟨f, c, e, sfx, rfl, henc⟩
  · obtain ⟨sfx, f, -, -, hx⟩ := execSv_next h
    rw [slotsOfRm_eq] at hx
    exact ⟨f, _, _, sfx, w, by rw [rmOf_commonOfRm_extraOfRm]; rfl, hx⟩
  · exact ⟨f, c, e, sfx, _, henc, exec_pairOf f c e sfx s ▸ h⟩

/-! ### Memory -/

/-- Beyond identity the rule of the pair leaves memory: it passes on, or loops over register files. -/
theorem execSvp64_keeps_memory {c : RmCommon} {x : Slots} {sfx : Suffix} {s t : State}
    (h : execSvp64 c x sfx s = .next t) (hid : ¬ (rmIsZero c x = true ∧ s.vl = 1)) :
    t.mem = s.mem ∧ t.stored = s.stored := by
  obtain ⟨-, -, ⟨-, rfl⟩ | ⟨-, hact⟩⟩ := execSvp64_next h
  · exact ⟨rfl, rfl⟩
  · obtain ⟨-, ⟨hz, hvl, -⟩ | ⟨-, -, hnorm⟩⟩ := execActive_ok hact
    · exact absurd ⟨hz, hvl⟩ hid
    · obtain ⟨-, -, -, -, u, hu, rfl⟩ := execNormal_ok hnorm
      exact ⟨(runLoop_regsOnly hu).mem, (runLoop_regsOnly hu).stored⟩

/-- Settles O60: the one case that reaches memory, identity, has an all-zero `RM`. -/
theorem pairsTouchMemoryOnlyAtIdentity : Obligations.PairsTouchMemoryOnlyAtIdentity := by
  intro i s t hi h hid
  obtain ⟨f, c, e, sfx, w, henc, hx⟩ := exec_pair_next hi h
  exact execSvp64_keeps_memory hx fun hz => hid ⟨hasZeroPrefix_of_rmIsZero henc hz.1, hz.2⟩

/-! ### What a pair is refused for (R114) -/

section
variable {f : RmFormat} {c : RmCommon} {e : BitVec 9} {x : Slots} {sfx : Suffix} {s : State}

/-- While `VL` > 0 a pair without a reserved value is refused for what its active part is refused for. -/
theorem exec_pairOf_refused {r : Refusal} (hf : (suffixProfile sfx).rmFormat ≠ none)
    (hres : reserved c (slotsOfExtra f e) (suffixProfile sfx) = false) (hvl : s.vl ≠ 0)
    (h : execActive c (slotsOfExtra f e) sfx s = .error r) : exec (pairOf f c e sfx) s = .refused r := by
  rw [exec_pairOf, execSvp64, if_neg hf, if_neg (Bool.eq_false_iff.mp hres), if_neg hvl, h, outcomeOf]

theorem execActive_branch (h : (suffixProfile sfx).cls = .branch) : execActive c x sfx s = .error .prefixedBranch :=
  if_pos h

theorem identityTest_eq_false (hid : ¬ (rmIsZero c x = true ∧ s.vl = 1)) :
    (rmIsZero c x && decide (s.vl = 1)) = false := by
  simpa using hid

theorem execActive_atomic (hb : (suffixProfile sfx).cls ≠ .branch) (hid : ¬ (rmIsZero c x = true ∧ s.vl = 1))
    (ha : (suffixProfile sfx).atomic = true) : execActive c x sfx s = .error .atomicSuffix := by
  simp [execActive, hb, identityTest_eq_false hid, ha]

theorem execActive_ldst (hcls : (suffixProfile sfx).cls = .ldst) (hid : ¬ (rmIsZero c x = true ∧ s.vl = 1))
    (ha : (suffixProfile sfx).atomic = false) : execActive c x sfx s = .error .ldstModeNotInSource := by
  simp [execActive, hcls, identityTest_eq_false hid, ha]

theorem execActive_crop (hcls : (suffixProfile sfx).cls = .crop) (hid : ¬ (rmIsZero c x = true ∧ s.vl = 1))
    (ha : (suffixProfile sfx).atomic = false) : execActive c x sfx s = .error .classNotNormal := by
  simp [execActive, hcls, identityTest_eq_false hid, ha]

theorem execActive_eq_execNormal (hcls : (suffixProfile sfx).cls = .normal) (hid : ¬ (rmIsZero c x = true ∧ s.vl = 1))
    (ha : (suffixProfile sfx).atomic = false) : execActive c x sfx s = execNormal c x sfx s := by
  simp [execActive, hcls, identityTest_eq_false hid, ha]

theorem execNormal_mode (hm : c.mode ≠ 0#5) : execNormal c x sfx s = .error .modeNonzero := if_pos hm

theorem execNormal_rc (hm : c.mode = 0#5) (hrc : (suffixProfile sfx).rc = true) :
    execNormal c x sfx s = .error .vectorisedRc1 := by
  rw [execNormal, if_neg (not_not.mpr hm), if_pos hrc]

theorem execNormal_elwidth (hm : c.mode = 0#5) (hrc : (suffixProfile sfx).rc = false)
    (hw : c.elwidth ≠ c.elwidthSrc) : execNormal c x sfx s = .error .elwidthDiffers := by
  rw [execNormal, if_neg (not_not.mpr hm), if_neg (Bool.eq_false_iff.mp hrc), if_pos hw]

/-- Past the tests of MODE, Rc and the widths. -/
theorem execNormal_addi_test (hm : c.mode = 0#5) (hrc : (suffixProfile sfx).rc = false)
    (hw : c.elwidth = c.elwidthSrc) :
    execNormal c x sfx s =
      if isAddiRa0 sfx then .error .addiRa0 else (runLoop (loopCtx c x sfx) x.fmt s).map (advance · 8) := by
  rw [execNormal, if_neg (not_not.mpr hm), if_neg (Bool.eq_false_iff.mp hrc), if_neg (not_not.mpr hw)]
  cases runLoop (loopCtx c x sfx) x.fmt s <;> rfl

theorem isAddiRa0_eq_false (h : ∀ rt si, sfx ≠ .addi rt 0#5 si) : isAddiRa0 sfx = false := by
  cases sfx with
  | addi rt ra si => exact decide_eq_false fun hra => h rt si (by rw [hra])
  | _ => rfl

/-- The twin-predicated formats but RM-2P-1S1D have no loop (R173). -/
theorem runLoop_twinLoopShape (l : LoopCtx) (hf : f = .rm2p2s ∨ f = .rm2p2s1d ∨ f = .rm2p1s2d ∨ f = .rm2p3s) :
    runLoop l f s = .error .twinLoopShape := by
  rcases hf with rfl | rfl | rfl | rfl <;> rfl

end

/-- Settles O36, by the tests of R114 in their order. -/
theorem refusalsOfActivePairsInOrder : Obligations.RefusalsOfActivePairsInOrder := by
  intro f c e sfx s hfmt hres hvl
  have refuse {r} (h : execActive c (slotsOfExtra f e) sfx s = .error r) : exec (pairOf f c e sfx) s = .refused r :=
    exec_pairOf_refused hfmt hres hvl h
  refine ⟨fun hb => refuse (execActive_branch hb), fun hbeyond => ?_⟩
  have hid : ¬ (rmIsZero c (slotsOfExtra f e) = true ∧ s.vl = 1) := fun ⟨hz, h1⟩ =>
    hbeyond ⟨(eq_zero_of_rmIsZero hz).1, (eq_zero_of_rmIsZero hz).2, h1⟩
  refine ⟨fun hb ha => refuse (execActive_atomic hb hid ha), fun ha => ?_⟩
  refine ⟨fun hcls => refuse (execActive_ldst hcls hid ha), fun hcls => refuse (execActive_crop hcls hid ha),
    fun hcls => ?_⟩
  have hnormal := execActive_eq_execNormal hcls hid ha
  refine ⟨fun hm => ?_, fun hm hrc => ?_, fun hm hrc hw => ?_, fun hm hw haddi => ?_, fun hm hrc hw haddi htwin => ?_⟩
  · exact refuse (hnormal.trans (execNormal_mode hm))
  · exact refuse (hnormal.trans (execNormal_rc hm hrc))
  · exact refuse (hnormal.trans (execNormal_elwidth hm hrc hw))
  · obtain ⟨rt, si, rfl⟩ := haddi
    exact refuse (hnormal.trans (execNormal_addi_test hm rfl hw))
  · have hloop := runLoop_twinLoopShape (s := s) (loopCtx c (slotsOfExtra f e) sfx) htwin
    refine refuse (hnormal.trans ?_)
    rw [execNormal_addi_test hm hrc hw, isAddiRa0_eq_false haddi, slotsOfExtra_fmt, hloop]
    rfl

end Sys2Proof.Machine

/-! ## The encoding, both ways (R72 to R91, R221 to R225) -/

namespace Sys2Proof

/-! ### The SVP64 word (R72, R73, R75) -/

/-- The SVP64 prefixes are the words of primary opcode 1 with `P{7}` and `P{9}` set (R73): spelt out in bits, the two
conditions are the same conjunction. -/
theorem isSvp64Prefix_iff (p : Insn) :
    isSvp64Prefix p = true ↔ primaryOpcode p = 1#6 ∧ p.getLsbD 24 = true ∧ p.getLsbD 22 = true := by
  simp only [isSvp64Prefix, primaryOpcode, BitVec.eq_of_getLsbD_eq_iff, Nat.forall_lt_succ_right, decide_eq_true_eq]
  simp
  tauto

/-- `RM{2:23}` is the low end of the word (R75). -/
theorem getLsbD_rmOfPrefix {k : Nat} (hk : k < 22) (p : Insn) : (rmOfPrefix p).getLsbD k = p.getLsbD k := by
  have h23 : ¬ 23 ≤ k := by omega
  have h24 : k < 24 := by omega
  simp [rmOfPrefix, place, hk, h23, h24]

/-- `RM{1}` is `P{8}` (R75). -/
theorem getLsbD_rmOfPrefix_22 (p : Insn) : (rmOfPrefix p).getLsbD 22 = p.getLsbD 23 := by simp [rmOfPrefix, place]

/-- `RM{0}` is `P{6}` (R75). -/
theorem getLsbD_rmOfPrefix_23 (p : Insn) : (rmOfPrefix p).getLsbD 23 = p.getLsbD 25 := by simp [rmOfPrefix, place]

/-- A field below the two bits set apart lies in the SVP64 word where it lies in `RM`. -/
theorem extractLsb'_rmOfPrefix (p : Insn) {lo n : Nat} (h : lo + n ≤ 22) :
    (rmOfPrefix p).extractLsb' lo n = p.extractLsb' lo n := by
  apply BitVec.eq_of_getLsbD_eq
  intro i hi
  simp [hi, getLsbD_rmOfPrefix (show lo + i < 22 by omega)]

/-- An SVP64 word is put together again from its `RM` (R72, R75). -/
theorem prefixOfRm_rmOfPrefix {p : Insn} (h : isSvp64Prefix p = true) : prefixOfRm (rmOfPrefix p) = p := by
  obtain ⟨hpo, h24, h22⟩ := (isSvp64Prefix_iff p).mp h
  simp only [primaryOpcode, BitVec.eq_of_getLsbD_eq_iff, Nat.forall_lt_succ_right] at hpo
  apply BitVec.eq_of_getLsbD_eq
  intro i hi
  interval_cases i <;> simp_all [prefixOfRm, rmOfPrefix, place]

/-- Settles O2: bits 6, 8 and from 10 on of the word, numbered from the other end. -/
theorem prefixWordBitsAreThoseOfTheTable : Obligations.PrefixWordBitsAreThoseOfTheTable := by
  intro p
  refine ⟨isSvp64Prefix_iff p, ?_, ?_, fun k hlo hhi => ?_⟩
  · simpa [BitVec.getMsbD] using getLsbD_rmOfPrefix_23 p
  · simpa [BitVec.getMsbD] using getLsbD_rmOfPrefix_22 p
  · have hsame : 24 - 1 - k = 32 - 1 - (k + 8) := by omega
    rw [BitVec.getMsbD_eq_getLsbD, BitVec.getMsbD_eq_getLsbD, getLsbD_rmOfPrefix (by omega), hsame,
      decide_eq_true (show k < 24 by omega), decide_eq_true (show k + 8 < 32 by omega)]

/-- Settles O3: `rmOfPrefix` and `prefixOfRm` are inverse to each other. -/
theorem prefixWordsAndRmCorrespond : Obligations.PrefixWordsAndRmCorrespond :=
  ⟨fun rm => ⟨isSvp64Prefix_prefixOfRm rm, rmOfPrefix_prefixOfRm rm⟩, fun _ hp => prefixOfRm_rmOfPrefix hp⟩

/-! ### The fields of `RM` and of EXTRA (R79 to R89) -/

/-- EXTRA lies five bits up in `RM`, as in the SVP64 word (R80). -/
theorem extraOfRm_rmOfPrefix (p : Insn) : extraOfRm (rmOfPrefix p) = p.extractLsb' 5 9 :=
  extractLsb'_rmOfPrefix p (by decide)

/-- Settles O4: MASK is the one field that reaches the bits set apart. -/
theorem commonFieldsLieWhereTheTablesSay : Obligations.CommonFieldsLieWhereTheTablesSay := by
  intro p
  have hmask : (rmOfPrefix p).extractLsb' 20 3 = p.extractLsb' 23 1 ++ p.extractLsb' 20 2 := by
    apply BitVec.eq_of_getLsbD_eq
    intro i hi
    rw [BitVec.getLsbD_append]
    interval_cases i <;> simp [rmOfPrefix, place]
  refine ⟨getLsbD_rmOfPrefix_23 p, ?_, extractLsb'_rmOfPrefix p (by decide), extractLsb'_rmOfPrefix p (by decide),
    extractLsb'_rmOfPrefix p (by decide), extraOfRm_rmOfPrefix p, extractLsb'_rmOfPrefix p (by decide)⟩
  have hlow := (p.extractLsb' 20 2).isLt
  rw [commonOfRm, hmask, BitVec.toNat_append, ← Nat.shiftLeft_add_eq_or_of_lt hlow, Nat.shiftLeft_eq, Nat.mul_comm]

/-- A slot within EXTRA lies five bits up in the word. -/
theorem extractLsb'_extra (p : Insn) {lo n : Nat} (h : lo + n ≤ 9) :
    (p.extractLsb' 5 9).extractLsb' lo n = p.extractLsb' (5 + lo) n := by
  apply BitVec.eq_of_getLsbD_eq
  intro i hi
  simp [hi, show lo + i < 9 by omega, Nat.add_assoc]

/-- Settles O5, each slot by its place within EXTRA. -/
theorem extraSlotsLieWhereTheTablesSay : Obligations.ExtraSlotsLieWhereTheTablesSay := by
  intro p
  have hmode : (p.extractLsb' 5 9).getLsbD 0 = p.getLsbD 5 := by simp
  simp only [extraOfRm_rmOfPrefix, extra1p3s1dOf, extra1p2s1dOf, extra2p1s1dOf, extra2p2sOf, extra2p2s1dOf,
    extra2p1s2dOf, extra2p3sOf, hmode]
  simp [extractLsb'_extra]

/-- The fields of `RM` lie side by side (R81). -/
theorem extract_rmOf (c : RmCommon) (e : BitVec 9) :
    (rmOf c e).extractLsb' 20 3 = c.mask ∧ (rmOf c e).extractLsb' 18 2 = c.elwidth ∧
    (rmOf c e).extractLsb' 16 2 = c.elwidthSrc ∧ (rmOf c e).extractLsb' 14 2 = c.subvl ∧
    (rmOf c e).extractLsb' 5 9 = e ∧ (rmOf c e).extractLsb' 0 5 = c.mode := by
  refine ⟨?_, ?_, ?_, ?_, ?_, ?_⟩ <;>
  · apply BitVec.eq_of_getLsbD_eq
    intro i hi
    interval_cases i <;> simp [rmOf, place]

/-- The common fields are read from where they are put. -/
theorem commonOfRm_rmOf (c : RmCommon) (e : BitVec 9) : commonOfRm (rmOf c e) = c := by
  obtain ⟨hmask, hew, hews, hsv, -, hmode⟩ := extract_rmOf c e
  have hmm : (rmOf c e).getLsbD 23 = c.maskMode := by simp [rmOf, place]
  rw [commonOfRm, hmm, hmask, hew, hews, hsv, hmode]

/-- So is EXTRA. -/
theorem extraOfRm_rmOf (c : RmCommon) (e : BitVec 9) : extraOfRm (rmOf c e) = e := by
  obtain ⟨-, -, -, -, hextra, -⟩ := extract_rmOf c e
  exact hextra

/-- EXTRA is its three fields of 3 bits. -/
theorem place_extract_333 (e : BitVec 9) :
    place 9 6 (e.extractLsb' 6 3) ||| place 9 3 (e.extractLsb' 3 3) ||| place 9 0 (e.extractLsb' 0 3) = e := by
  apply BitVec.eq_of_getLsbD_eq
  intro i hi
  interval_cases i <;> simp [place]

/-- EXTRA is its three fields of 2 bits and one of 3. -/
theorem place_extract_2223 (e : BitVec 9) :
    place 9 7 (e.extractLsb' 7 2) ||| place 9 5 (e.extractLsb' 5 2) ||| place 9 3 (e.extractLsb' 3 2) |||
      place 9 0 (e.extractLsb' 0 3) = e := by
  apply BitVec.eq_of_getLsbD_eq
  intro i hi
  interval_cases i <;> simp [place]

/-- EXTRA is its four fields of 2 bits and EXTRA2_MODE. -/
theorem place_extract_22221 (e : BitVec 9) :
    place 9 7 (e.extractLsb' 7 2) ||| place 9 5 (e.extractLsb' 5 2) ||| place 9 3 (e.extractLsb' 3 2) |||
      place 9 1 (e.extractLsb' 1 2) ||| place 9 0 (BitVec.ofBool (e.getLsbD 0)) = e := by
  apply BitVec.eq_of_getLsbD_eq
  intro i hi
  interval_cases i <;> simp [place]

/-- The words of the pair of a format: its first word carries the common fields and EXTRA as they are (R72, R81). -/
theorem encode_pairOf (f : RmFormat) (c : RmCommon) (e : BitVec 9) (sfx : Suffix) :
    encode (Machine.pairOf f c e sfx) = [prefixOfRm (rmOf c e), encodeSuffix sfx] := by
  cases f with
  | rm1p3s1d =>
    rw [Machine.pairOf, encode, extra1p3s1dOf, Extra1p3s1d.bits, place_extract_22221]
  | rm1p2s1d => rw [Machine.pairOf, encode, extra1p2s1dOf, Extra1p2s1d.bits, place_extract_333]
  | rm2p1s1d => rw [Machine.pairOf, encode, extra2p1s1dOf, Extra2p1s1d.bits, place_extract_333]
  | rm2p2s => rw [Machine.pairOf, encode, extra2p2sOf, Extra2p2s.bits, place_extract_333]
  | rm2p2s1d => rw [Machine.pairOf, encode, extra2p2s1dOf, Extra2p2s1d.bits, place_extract_2223]
  | rm2p1s2d => rw [Machine.pairOf, encode, extra2p1s2dOf, Extra2p1s2d.bits, place_extract_2223]
  | rm2p3s => rw [Machine.pairOf, encode, extra2p3sOf, Extra2p3s.bits, place_extract_2223]

/-! ### The words of the test subset (R221 to R225) -/

/-- A word of three register fields above eleven fixed bits, as `add` is (R221). -/
def xoForm (po : BitVec 6) (rt ra rb : BitVec 5) (xo : BitVec 11) : Insn :=
  place 32 26 po ||| place 32 21 rt ||| place 32 16 ra ||| place 32 11 rb ||| place 32 0 xo

/-- A word of two register fields above an immediate, as `addi`, `lwz` and `stw` are (R222, R224, R225). -/
def dForm (po : BitVec 6) (rt ra : BitVec 5) (d : BitVec 16) : Insn :=
  place 32 26 po ||| place 32 21 rt ||| place 32 16 ra ||| place 32 0 d

/-- A word of one field above two fixed bits, as `b` is (R223). -/
def iForm (po : BitVec 6) (li : BitVec 24) (low : BitVec 2) : Insn :=
  place 32 26 po ||| place 32 2 li ||| place 32 0 low

theorem xoForm_fields (po : BitVec 6) (rt ra rb : BitVec 5) (xo : BitVec 11) :
    primaryOpcode (xoForm po rt ra rb xo) = po ∧ (xoForm po rt ra rb xo).extractLsb' 21 5 = rt ∧
    (xoForm po rt ra rb xo).extractLsb' 16 5 = ra ∧ (xoForm po rt ra rb xo).extractLsb' 11 5 = rb ∧
    (xoForm po rt ra rb xo).extractLsb' 0 11 = xo := by
  refine ⟨?_, ?_, ?_, ?_, ?_⟩ <;>
  · apply BitVec.eq_of_getLsbD_eq
    intro i hi
    interval_cases i <;> simp [primaryOpcode, xoForm, place]

theorem dForm_fields (po : BitVec 6) (rt ra : BitVec 5) (d : BitVec 16) :
    primaryOpcode (dForm po rt ra d) = po ∧ (dForm po rt ra d).extractLsb' 21 5 = rt ∧
    (dForm po rt ra d).extractLsb' 16 5 = ra ∧ (dForm po rt ra d).extractLsb' 0 16 = d := by
  refine ⟨?_, ?_, ?_, ?_⟩ <;>
  · apply BitVec.eq_of_getLsbD_eq
    intro i hi
    interval_cases i <;> simp [primaryOpcode, dForm, place]

theorem iForm_fields (po : BitVec 6) (li : BitVec 24) (low : BitVec 2) :
    primaryOpcode (iForm po li low) = po ∧ (iForm po li low).extractLsb' 2 24 = li ∧
    (iForm po li low).extractLsb' 0 2 = low := by
  refine ⟨?_, ?_, ?_⟩ <;>
  · apply BitVec.eq_of_getLsbD_eq
    intro i hi
    interval_cases i <;> simp [primaryOpcode, iForm, place]

/-- Any word is an XO-form word of its own fields. -/
theorem xoForm_eta (w : Insn) :
    xoForm (primaryOpcode w) (w.extractLsb' 21 5) (w.extractLsb' 16 5) (w.extractLsb' 11 5) (w.extractLsb' 0 11) =
      w := by
  apply BitVec.eq_of_getLsbD_eq
  intro i hi
  interval_cases i <;> simp [primaryOpcode, xoForm, place]

/-- Any word is a D-form word of its own fields. -/
theorem dForm_eta (w : Insn) :
    dForm (primaryOpcode w) (w.extractLsb' 21 5) (w.extractLsb' 16 5) (w.extractLsb' 0 16) = w := by
  apply BitVec.eq_of_getLsbD_eq
  intro i hi
  interval_cases i <;> simp [primaryOpcode, dForm, place]

/-- Any word is an I-form word of its own fields. -/
theorem iForm_eta (w : Insn) : iForm (primaryOpcode w) (w.extractLsb' 2 24) (w.extractLsb' 0 2) = w := by
  apply BitVec.eq_of_getLsbD_eq
  intro i hi
  interval_cases i <;> simp [primaryOpcode, iForm, place]

/-- The decoder's mask for `add` picks out the primary opcode and the low eleven bits. -/
theorem and_xoMask_eq_iff (w : Insn) :
    w &&& 0xFC0007FF#32 = 0x7C000214#32 ↔ primaryOpcode w = 31#6 ∧ w.extractLsb' 0 11 = 0x214#11 := by
  simp only [primaryOpcode, BitVec.eq_of_getLsbD_eq_iff, Nat.forall_lt_succ_right]
  simp
  tauto

/-- Its mask for `b` picks out the primary opcode and the two low bits. -/
theorem and_iMask_eq_iff (w : Insn) :
    w &&& 0xFC000003#32 = 0x48000000#32 ↔ primaryOpcode w = 18#6 ∧ w.extractLsb' 0 2 = 0#2 := by
  simp only [primaryOpcode, BitVec.eq_of_getLsbD_eq_iff, Nat.forall_lt_succ_right]
  simp
  tauto

/-- Its mask for the D-form words picks out the primary opcode. -/
theorem and_dMask_eq_iff (w : Insn) (po : BitVec 6) :
    w &&& 0xFC000000#32 = place 32 26 po ↔ primaryOpcode w = po := by
  simp only [primaryOpcode, place, BitVec.eq_of_getLsbD_eq_iff, Nat.forall_lt_succ_right]
  simp

/-- Whether a suffix is one of the five words of the test subset. -/
def Suffix.inSubset : Suffix → Bool
  | .other _ _ => false
  | _ => true

theorem encodeSuffix_add (rt ra rb : BitVec 5) : encodeSuffix (.add rt ra rb) = xoForm 31#6 rt ra rb 0x214#11 := rfl
theorem encodeSuffix_addi (rt ra : BitVec 5) (si : BitVec 16) :
    encodeSuffix (.addi rt ra si) = dForm 14#6 rt ra si := rfl
theorem encodeSuffix_b (li : BitVec 24) : encodeSuffix (.b li) = iForm 18#6 li 0#2 := by
  simp [encodeSuffix, iForm, place]
theorem encodeSuffix_lwz (rt ra : BitVec 5) (d : BitVec 16) : encodeSuffix (.lwz rt ra d) = dForm 32#6 rt ra d := rfl
theorem encodeSuffix_stw (rs ra : BitVec 5) (d : BitVec 16) : encodeSuffix (.stw rs ra d) = dForm 36#6 rs ra d := rfl

/-- The test subset by its primary opcodes and fixed low bits (R221 to R225). -/
theorem decodeSubset_eq (w : Insn) :
    decodeSubset w =
      if primaryOpcode w = 31#6 ∧ w.extractLsb' 0 11 = 0x214#11 then
        some (.add (w.extractLsb' 21 5) (w.extractLsb' 16 5) (w.extractLsb' 11 5))
      else if primaryOpcode w = 14#6 then some (.addi (w.extractLsb' 21 5) (w.extractLsb' 16 5) (w.extractLsb' 0 16))
      else if primaryOpcode w = 18#6 ∧ w.extractLsb' 0 2 = 0#2 then some (.b (w.extractLsb' 2 24))
      else if primaryOpcode w = 32#6 then some (.lwz (w.extractLsb' 21 5) (w.extractLsb' 16 5) (w.extractLsb' 0 16))
      else if primaryOpcode w = 36#6 then some (.stw (w.extractLsb' 21 5) (w.extractLsb' 16 5) (w.extractLsb' 0 16))
      else none := by
  have haddi : w &&& 0xFC000000#32 = 0x38000000#32 ↔ primaryOpcode w = 14#6 := and_dMask_eq_iff w 14#6
  have hlwz : w &&& 0xFC000000#32 = 0x80000000#32 ↔ primaryOpcode w = 32#6 := and_dMask_eq_iff w 32#6
  have hstw : w &&& 0xFC000000#32 = 0x90000000#32 ↔ primaryOpcode w = 36#6 := and_dMask_eq_iff w 36#6
  simp only [decodeSubset, and_xoMask_eq_iff, and_iMask_eq_iff, haddi, hlwz, hstw]

/-- The words of the test subset are decoded as what they encode. -/
theorem decodeSubset_encodeSuffix {sfx : Suffix} (h : sfx.inSubset = true) :
    decodeSubset (encodeSuffix sfx) = some sfx := by
  cases sfx with
  | add rt ra rb =>
    obtain ⟨hpo, hrt, hra, hrb, hxo⟩ := xoForm_fields 31#6 rt ra rb 0x214#11
    simp [encodeSuffix_add, decodeSubset_eq, hpo, hrt, hra, hrb, hxo]
  | addi rt ra si =>
    obtain ⟨hpo, hrt, hra, hsi⟩ := dForm_fields 14#6 rt ra si
    simp [encodeSuffix_addi, decodeSubset_eq, hpo, hrt, hra, hsi]
  | b li =>
    obtain ⟨hpo, hli, hlow⟩ := iForm_fields 18#6 li 0#2
    simp [encodeSuffix_b, decodeSubset_eq, hpo, hli, hlow]
  | lwz rt ra d =>
    obtain ⟨hpo, hrt, hra, hd⟩ := dForm_fields 32#6 rt ra d
    simp [encodeSuffix_lwz, decodeSubset_eq, hpo, hrt, hra, hd]
  | stw rs ra d =>
    obtain ⟨hpo, hrs, hra, hd⟩ := dForm_fields 36#6 rs ra d
    simp [encodeSuffix_stw, decodeSubset_eq, hpo, hrs, hra, hd]
  | other w prof => cases h

/-- What the test subset decodes is one of its five words, and the word is its encoding: no bit is ignored. -/
theorem decodeSubset_some {w : Insn} {sfx : Suffix} (h : decodeSubset w = some sfx) :
    sfx.inSubset = true ∧ encodeSuffix sfx = w := by
  rw [decodeSubset_eq] at h
  split at h
  · next hadd =>
    cases h
    refine ⟨rfl, ?_⟩
    rw [encodeSuffix_add, ← hadd.1, ← hadd.2, xoForm_eta]
  · split at h
    · next hpo =>
      cases h
      refine ⟨rfl, ?_⟩
      rw [encodeSuffix_addi, ← hpo, dForm_eta]
    · split at h
      · next hb =>
        cases h
        refine ⟨rfl, ?_⟩
        rw [encodeSuffix_b, ← hb.1, ← hb.2, iForm_eta]
      · split at h
        · next hpo =>
          cases h
          refine ⟨rfl, ?_⟩
          rw [encodeSuffix_lwz, ← hpo, dForm_eta]
        · split at h
          · next hpo =>
            cases h
            refine ⟨rfl, ?_⟩
            rw [encodeSuffix_stw, ← hpo, dForm_eta]
          · cases h

/-- None of the five words is of primary opcode 1 (R74). -/
theorem isPrefixWord_encodeSuffix {sfx : Suffix} (h : sfx.inSubset = true) :
    isPrefixWord (encodeSuffix sfx) = false := by
  refine decide_eq_false ?_
  cases sfx with
  | add rt ra rb => rw [encodeSuffix_add, (xoForm_fields ..).1]; decide
  | addi rt ra si => rw [encodeSuffix_addi, (dForm_fields ..).1]; decide
  | b li => rw [encodeSuffix_b, (iForm_fields ..).1]; decide
  | lwz rt ra d => rw [encodeSuffix_lwz, (dForm_fields ..).1]; decide
  | stw rs ra d => rw [encodeSuffix_stw, (dForm_fields ..).1]; decide
  | other w prof => cases h

/-! ### The suffix decoder over any `Base` (R111) -/

section
variable {base : BaseTable} {w : Insn} {sfx : Suffix}

/-- The reader's rows come first, then the test subset where the reader keeps it (D22). -/
theorem decodeSuffix_eq_some_iff :
    decodeSuffix base w = some sfx ↔
      (∃ prof, baseLookup base.rows w = some prof ∧ sfx = .other w prof) ∨
        (base.leavesToSubset w = true ∧ decodeSubset w = some sfx) := by
  unfold decodeSuffix BaseTable.leavesToSubset
  cases hrow : baseLookup base.rows w with
  | some prof => simp [eq_comm]
  | none => cases base.testSubset <;> simp

/-- A word of the reader's `Base` is one its rows cover. -/
theorem baseLookup_of_decodeSuffix {word : Insn} {prof : Profile} (h : decodeSuffix base w = some (.other word prof)) :
    baseLookup base.rows w = some prof := by
  rcases decodeSuffix_eq_some_iff.mp h with ⟨prof', hrow, heq⟩ | ⟨-, hsub⟩
  · cases heq
    exact hrow
  · cases (decodeSubset_some hsub).1

/-- A word is the encoding of the suffix it is decoded as. -/
theorem encodeSuffix_of_decodeSuffix (h : decodeSuffix base w = some sfx) : encodeSuffix sfx = w := by
  rcases decodeSuffix_eq_some_iff.mp h with ⟨prof, -, rfl⟩ | ⟨-, hsub⟩
  · rfl
  · exact (decodeSubset_some hsub).2

/-- A well-formed suffix is a word of the reader's `Base`, or one of the five words left to the test subset. -/
theorem Suffix.wellFormed_cases (h : sfx.wellFormed base = true) :
    (∃ word prof, sfx = .other word prof ∧ isPrefixWord word = false ∧ baseLookup base.rows word = some prof) ∨
      (sfx.inSubset = true ∧ base.leavesToSubset (encodeSuffix sfx) = true) := by
  cases sfx with
  | other word prof =>
    simp only [Suffix.wellFormed, Bool.and_eq_true, Bool.not_eq_true', decide_eq_true_eq] at h
    obtain ⟨⟨hp, hrow⟩, -⟩ := h
    exact .inl ⟨word, prof, rfl, hp, hrow⟩
  | add rt ra rb => exact .inr ⟨rfl, h⟩
  | addi rt ra si => exact .inr ⟨rfl, h⟩
  | b li => exact .inr ⟨rfl, h⟩
  | lwz rt ra d => exact .inr ⟨rfl, h⟩
  | stw rs ra d => exact .inr ⟨rfl, h⟩

/-- A well-formed suffix is decoded from its own word, which is not of primary opcode 1. -/
theorem decodeSuffix_encodeSuffix (h : sfx.wellFormed base = true) :
    isPrefixWord (encodeSuffix sfx) = false ∧ decodeSuffix base (encodeSuffix sfx) = some sfx := by
  rcases Suffix.wellFormed_cases h with ⟨word, prof, rfl, hp, hrow⟩ | ⟨hsub, hleft⟩
  · exact ⟨hp, decodeSuffix_eq_some_iff.mpr (.inl ⟨prof, hrow, rfl⟩)⟩
  · exact ⟨isPrefixWord_encodeSuffix hsub,
      decodeSuffix_eq_some_iff.mpr (.inr ⟨hleft, decodeSubset_encodeSuffix hsub⟩)⟩

/-! ### Pairs split by their format (R77, R91) -/

/-- A suffix word has no RM format, or is decoded as a suffix of one (R78, R91, R118). -/
theorem unsplit_or_format (base : BaseTable) (w : Insn) :
    unsplit base w = true ∨
      ∃ sfx f, isPrefixWord w = false ∧ decodeSuffix base w = some sfx ∧ (suffixProfile sfx).rmFormat = some f := by
  unfold unsplit
  cases hp : isPrefixWord w with
  | true => exact .inl rfl
  | false =>
    cases hd : decodeSuffix base w with
    | none => exact .inl rfl
    | some sfx =>
      cases hf : (suffixProfile sfx).rmFormat with
      | none => exact .inl (by simp [hf])
      | some f => exact .inr ⟨sfx, f, rfl, rfl, hf⟩

/-- The three ways of having no RM format. -/
theorem unsplit_iff :
    unsplit base w = true ↔ isPrefixWord w = true ∨ decodeSuffix base w = none ∨
      ∃ sfx, decodeSuffix base w = some sfx ∧ (suffixProfile sfx).rmFormat = none := by
  unfold unsplit
  cases decodeSuffix base w <;> simp

/-- A pair whose suffix has no RM format stays unsplit (R91). -/
theorem decodePair_unsplit (rm : BitVec 24) (h : unsplit base w = true) : decodePair base rm w = .sv rm w := by
  cases hp : isPrefixWord w with
  | true => simp [decodePair, hp]
  | false =>
    rcases unsplit_iff.mp h with hp' | hd | ⟨sfx, hd, hf⟩
    · exact absurd (hp.symm.trans hp') Bool.false_ne_true
    · simp [decodePair, hp, hd]
    · simp [decodePair, hp, hd, hf]

/-- Splitting a pair loses no bit of its words. -/
theorem encode_decodePair (base : BaseTable) (rm : BitVec 24) (w : Insn) :
    encode (decodePair base rm w) = [prefixOfRm rm, w] := by
  rcases unsplit_or_format base w with h | ⟨sfx, f, hp, hd, hf⟩
  · rw [decodePair_unsplit rm h, encode]
  · rw [decodePair_eq_pairOf rm hp hd hf, encode_pairOf, rmOf_commonOfRm_extraOfRm, encodeSuffix_of_decodeSuffix hd]

/-- The pair of a format with a well-formed suffix of that format is what the decoder splits its words into. -/
theorem decodePair_rmOf {f : RmFormat} (c : RmCommon) (e : BitVec 9) (h : sfx.fits base f = true) :
    decodePair base (rmOf c e) (encodeSuffix sfx) = Machine.pairOf f c e sfx := by
  simp only [Suffix.fits, Bool.and_eq_true, decide_eq_true_eq] at h
  obtain ⟨hwf, hf⟩ := h
  obtain ⟨hp, hd⟩ := decodeSuffix_encodeSuffix hwf
  rw [decodePair_eq_pairOf (rmOf c e) hp hd hf, commonOfRm_rmOf, extraOfRm_rmOf]

end

/-! ### Decode and encode -/

/-- A pair of a format is well-formed where its suffix is of that format. -/
theorem wellFormed_pairOf (base : BaseTable) (f : RmFormat) (c : RmCommon) (e : BitVec 9) (sfx : Suffix) :
    (Machine.pairOf f c e sfx).wellFormed base = sfx.fits base f := by
  cases f <;> rfl

/-- An unprefixed instruction is the suffix of the same name, standing alone (R6, R113). -/
theorem unprefixed_cases (base : BaseTable) {i : Instr} (h : Machine.isPair i = false) :
    ∃ sfx, decodedOfSuffix sfx = .instr i ∧ encode i = [encodeSuffix sfx] ∧
      i.wellFormed base = sfx.wellFormed base := by
  cases i with
  | add rt ra rb => exact ⟨.add rt ra rb, rfl, rfl, rfl⟩
  | addi rt ra si => exact ⟨.addi rt ra si, rfl, rfl, rfl⟩
  | b li => exact ⟨.b li, rfl, rfl, rfl⟩
  | lwz rt ra d => exact ⟨.lwz rt ra d, rfl, rfl, rfl⟩
  | stw rs ra d => exact ⟨.stw rs ra d, rfl, rfl, rfl⟩
  | _ => cases h

/-- Settles O6, for an unsplit pair, the pair of a format, and an unprefixed instruction. -/
theorem decodeOfEncodeIsTheInstruction : Obligations.DecodeOfEncodeIsTheInstruction := by
  intro base i hwf
  cases hpair : Machine.isPair i with
  | true =>
    rcases Machine.isPair_cases hpair with ⟨rm, w, rfl⟩ | ⟨f, c, e, sfx, rfl, henc⟩
    · rw [encode, decode_prefixOfRm, decodePair_unsplit rm hwf]
    · rw [wellFormed_pairOf] at hwf
      rw [henc, decode_prefixOfRm, decodePair_rmOf c e hwf]
  | false =>
    obtain ⟨sfx, hdec, henc, heq⟩ := unprefixed_cases base hpair
    obtain ⟨hp, hd⟩ := decodeSuffix_encodeSuffix (heq ▸ hwf)
    rw [henc, decode_unprefixed [] hp hd, hdec]

/-- All that the decoder answers an instruction for: an SVP64 word and its suffix word, or the word of a
suffix alone. -/
theorem decode_instr_cases {base : BaseTable} {ws : List Insn} {i : Instr} (h : decode base ws = .instr i) :
    (∃ p w rest, ws = p :: w :: rest ∧ isSvp64Prefix p = true ∧ i = decodePair base (rmOfPrefix p) w) ∨
      ∃ w rest sfx, ws = w :: rest ∧ decodeSuffix base w = some sfx ∧ decodedOfSuffix sfx = .instr i := by
  unfold decode at h
  split at h
  · cases h
  · next w rest =>
    split at h
    · next hp =>
      split at h
      · cases h
      · next v rest' =>
        cases h
        exact .inl ⟨w, v, rest', rfl, hp, rfl⟩
    · split at h
      · split at h
        · split at h <;> cases h
        · split at h <;> cases h
      · split at h
        · cases h
        · next sfx hd => exact .inr ⟨w, rest, sfx, rfl, hd, h⟩

/-- An instruction that stands for a suffix alone has that suffix's word (R6, R113). -/
theorem encode_of_decodedOfSuffix {sfx : Suffix} {i : Instr} (h : decodedOfSuffix sfx = .instr i) :
    encode i = [encodeSuffix sfx] := by
  cases sfx <;> cases h <;> rfl

/-- Settles O7: the SVP64 word is that of its `RM`, and the suffix word that of its suffix. -/
theorem encodeOfDecodeIsTheWords : Obligations.EncodeOfDecodeIsTheWords := by
  intro base ws i h
  rcases decode_instr_cases h with ⟨p, w, rest, rfl, hp, rfl⟩ | ⟨w, rest, sfx, rfl, hd, hi⟩
  · exact ⟨rest, by rw [encode_decodePair, prefixOfRm_rmOfPrefix hp]; rfl⟩
  · exact ⟨rest, by rw [encode_of_decodedOfSuffix hi, encodeSuffix_of_decodeSuffix hd]; rfl⟩

end Sys2Proof

/-! ## Traps at decode time, and steps on any word (R74, R78, R95, R114, R220) -/

namespace Sys2Proof.Machine

/-! ### A reserved value traps (R95) -/

section
variable {f : RmFormat} {c : RmCommon} {e : BitVec 9} {x : Slots} {sfx : Suffix} {s : State}
  {prof : Profile} {o : Operand}

/-- A reserved value traps before `VL` or anything else of the state is looked at (R114). -/
theorem execSvp64_reserved (h : reserved c x (suffixProfile sfx) = true) :
    execSvp64 c x sfx s = .fault (.illegalInstruction s.pc) := by
  rw [execSvp64, if_pos h, raiseIllegal, ite_self]

theorem exec_pairOf_reserved (h : reserved c (slotsOfExtra f e) (suffixProfile sfx) = true) :
    exec (pairOf f c e sfx) s = .fault (.illegalInstruction s.pc) := by
  rw [exec_pairOf, execSvp64_reserved h]

theorem reserved_eq_true_iff :
    reserved c x prof = true ↔
      reservedBf16 c prof = true ∨ reservedFpSingle c prof = true ∨ reservedUnused x prof = true := by
  simp [reserved, or_assoc]

/-- ELWIDTH governs a destination (R143). -/
theorem widthField_dest {r : Role} (h : r = .rdest ∨ r = .rdest2) : widthField c r = c.elwidth := by
  rcases h with rfl | rfl <;> rfl

/-- ELWIDTH_SRC governs a source (R143). -/
theorem widthField_src {r : Role} (h : r = .rsrc1 ∨ r = .rsrc2 ∨ r = .rsrc3) : widthField c r = c.elwidthSrc := by
  rcases h with rfl | rfl | rfl <;> rfl

theorem reservedBf16_of_operand (ho : o ∈ prof.operands) (hk : o.kind = .fpr) (hw : widthField c o.role = 3#2) :
    reservedBf16 c prof = true :=
  List.any_eq_true.mpr ⟨o, ho, by simp [hk, hw]⟩

theorem reservedFpSingle_of_operand (hs : prof.fpSingle = true) (ho : o ∈ prof.operands) (hk : o.kind = .fpr)
    (hw : widthField c o.role = 2#2 ∨ widthField c o.role = 3#2) : reservedFpSingle c prof = true := by
  have hhalf : 2 ≤ (widthField c o.role).toNat := by rcases hw with h | h <;> simp [h]
  rw [reservedFpSingle, hs, Bool.true_and]
  exact List.any_eq_true.mpr ⟨o, ho, by simp [hk, hhalf]⟩

theorem reservedUnused_of_slot {r : Role} {v : ExtraVal} (hv : (r, v) ∈ x.entries) (hnz : v.isZero = false)
    (hno : ∀ o ∈ prof.operands, o.role ≠ r) : reservedUnused x prof = true := by
  have hany : (prof.operands.any fun o => decide (o.role = r)) = false := by simpa using hno
  rw [reservedUnused, Bool.or_eq_true]
  exact .inr (List.any_eq_true.mpr ⟨(r, v), hv, by simp [hnz, hany]⟩)

theorem reservedUnused_of_extra2Mode (hx : x.extra2Mode = true) (hno : prof.usesExtra2Mode = false) :
    reservedUnused x prof = true := by
  simp [reservedUnused, hx, hno]

/-- A slot that does not read as zero is one the format has (R94). -/
theorem mem_of_slotOf_ne_zero {l : List (Role × ExtraVal)} {r : Role} (h : (slotOf l r).isZero = false) :
    (r, slotOf l r) ∈ l := by
  induction l with
  | nil => cases h
  | cons p rest ih =>
    rw [slotOf] at h ⊢
    split at h
    · next heq => simp [← heq]
    · next hne =>
      rw [if_neg hne]
      exact List.mem_cons_of_mem _ (ih h)

end

/-- Settles O32, by row a of R95. -/
theorem bf16WidthTraps : Obligations.Bf16WidthTraps := by
  intro f c e sfx s o ho hk hw
  have hfield : widthField c o.role = 3#2 := by
    rcases hw with ⟨hd, hw⟩ | ⟨hs, hw⟩
    · rw [widthField_dest hd, hw]
    · rw [widthField_src hs, hw]
  exact exec_pairOf_reserved (reserved_eq_true_iff.mpr (.inl (reservedBf16_of_operand ho hk hfield)))

/-- Settles O33, by row b of R95. -/
theorem fpSingleAtHalfWidthTraps : Obligations.FpSingleAtHalfWidthTraps := by
  intro f c e sfx s o hsingle ho hk hw
  have hfield : widthField c o.role = 2#2 ∨ widthField c o.role = 3#2 := by
    rcases hw with ⟨hd, hw⟩ | ⟨hs, hw⟩
    · rwa [widthField_dest hd]
    · rwa [widthField_src hs]
  exact exec_pairOf_reserved (reserved_eq_true_iff.mpr (.inr (.inl (reservedFpSingle_of_operand hsingle ho hk hfield))))

/-- Settles O34, by row c of R95. -/
theorem unusedSlotMustBeZero : Obligations.UnusedSlotMustBeZero := by
  refine ⟨fun f c e sfx s r _ hnz hno => ?_, fun c x sfx s hx hno => ?_⟩
  · have hunused := reservedUnused_of_slot (mem_of_slotOf_ne_zero hnz) hnz hno
    exact exec_pairOf_reserved (reserved_eq_true_iff.mpr (.inr (.inr hunused)))
  · have hunused := reservedUnused_of_extra2Mode (x := slots1p3s1d x) hx hno
    exact execSvp64_reserved (reserved_eq_true_iff.mpr (.inr (.inr hunused)))

/-! ### Unsplit pairs (R77, R78, R114, R118) -/

section
variable {rm : BitVec 24} {w : Insn} {s : State} {sfx : Suffix}

theorem exec_sv_prefixWord (hp : isPrefixWord w = true) : exec (.sv rm w) s = .refused .suffixIsPrefix := if_pos hp

theorem exec_sv_illegal (hp : isPrefixWord w = false) (hd : decodeSuffix s.launch.base w = none) :
    exec (.sv rm w) s = .fault (.illegalInstruction s.pc) := by
  rw [exec, execSv, if_neg (Bool.eq_false_iff.mp hp), hd, raiseIllegal]

theorem exec_sv_unVectoriseable (hp : isPrefixWord w = false) (hd : decodeSuffix s.launch.base w = some sfx)
    (hf : (suffixProfile sfx).rmFormat = none) : exec (.sv rm w) s = .fault (.illegalInstruction s.pc) := by
  simp [exec, execSv, hp, hd, hf, raiseIllegal]

/-- Where the suffix has an RM format, the unsplit row is the rule of the pair of that format (R91, R114). -/
theorem exec_sv_of_format {f : RmFormat} (hp : isPrefixWord w = false) (hd : decodeSuffix s.launch.base w = some sfx)
    (hf : (suffixProfile sfx).rmFormat = some f) :
    exec (.sv rm w) s = execSvp64 (commonOfRm rm) (slotsOfRm f rm) sfx s := by
  simp [exec, execSv, hp, hd, hf]

end

/-- A word the reader's `Base` calls by a name LS009 states to have no RM format has none (R92). -/
theorem rmFormat_eq_none_of_stated {base : BaseTable} {w word : Insn} {prof : Profile}
    (hd : decodeSuffix base w = some (.other word prof)) (hname : statedFormats.lookup prof.mnemonic = some none) :
    prof.rmFormat = none := by
  rw [← baseLookup_format (baseLookup_of_decodeSuffix hd), formatOf, hname, Option.getD_some]

/-- Settles O30: the three ways of having no RM format, and the names LS009 states to be of the third. -/
theorem suffixWithoutFormatNeverRuns : Obligations.SuffixWithoutFormatNeverRuns := by
  intro rm w s
  refine ⟨exec_sv_prefixWord, exec_sv_illegal, fun sfx => exec_sv_unVectoriseable, fun prof hp hd hname => ?_⟩
  have hstated : statedFormats.lookup prof.mnemonic = some none := by
    rcases hname with h | h | h <;> rw [h] <;> decide
  exact exec_sv_unVectoriseable hp hd (rmFormat_eq_none_of_stated hd hstated)

/-- Settles O31: a pair stays unsplit, or both rows are the rule of the pair on the same slots. -/
theorem unsplitPairIsTheSplitPair : Obligations.UnsplitPairIsTheSplitPair := by
  intro rm w s
  rcases unsplit_or_format s.launch.base w with h | ⟨sfx, f, hp, hd, hf⟩
  · rw [decodePair_unsplit rm h]
  · rw [decodePair_eq_pairOf rm hp hd hf, exec_pairOf, ← slotsOfRm_eq, exec_sv_of_format hp hd hf]

/-! ### Steps (R74, R110, R220) -/

/-- A step is what follows from the decoder's answer on the fetched words. -/
theorem step_of_fetchWords {s : State} {ws : List Insn} (h : fetchWords s = .ok ws) :
    step s = execDecoded (decode s.launch.base ws) s := by
  simp [step, h]

/-- Settles O22. -/
theorem stepRunsTheDecodedInstruction : Obligations.StepRunsTheDecodedInstruction := by
  intro s ws i hws hi
  rw [step_of_fetchWords hws, hi, execDecoded]

section
variable {base : BaseTable} {w v : Insn}

/-- A word of primary opcode 1, no SVP64 word, of which `Base` has no instruction is rejected alone (R74, V79). -/
theorem decode_v31_uncovered (hsvp : isSvp64Prefix w = false) (hp : isPrefixWord w = true)
    (hcov : base.coversPrefix w = false) : decode base [w] = .v31Prefix w := by
  simp [decode, hsvp, hp, hcov]

/-- So is one of which `Base` has none with the second word. -/
theorem decode_v31_none (hsvp : isSvp64Prefix w = false) (hp : isPrefixWord w = true)
    (hrow : prefixedLookup base.prefixed w v = none) : decode base [w, v] = .v31Prefix w := by
  simp [decode, hsvp, hp, hrow]

/-- A v3.1 prefixed instruction of `Base` is handed to it (R74). -/
theorem decode_v31_some {row : BasePrefixedRow} (hsvp : isSvp64Prefix w = false) (hp : isPrefixWord w = true)
    (hrow : prefixedLookup base.prefixed w v = some row) : decode base [w, v] = .basePrefixed w v row := by
  simp [decode, hsvp, hp, hrow]

/-- A word not of primary opcode 1 that is no instruction of `Base` is illegal (R220). -/
theorem decode_illegal (hsvp : isSvp64Prefix w = false) (hp : isPrefixWord w = false)
    (hd : decodeSuffix base w = none) : decode base [w] = .illegal w := by
  simp [decode, hsvp, hp, hd]

end

/-- Settles O24: one word is fetched, or the two of a v3.1 prefixed instruction, and the decoder's answer followed. -/
theorem stepOnOtherWords : Obligations.StepOnOtherWords := by
  intro s w hw hsvp
  have one (h : (isPrefixWord w && s.launch.base.coversPrefix w) = false) : fetchWords s = .ok [w] :=
    fetchWords_one hw (by simp [hasTwoWords, hsvp, h])
  refine ⟨fun hp hcov => ?_, fun hp hcov hblock v hv => ?_, fun hp hd => ?_, fun prof hp hd => ?_⟩
  · rw [step_of_fetchWords (one (by simp [hcov])), decode_v31_uncovered hsvp hp hcov, execDecoded]
  · have two : fetchWords s = .ok [w, v] := fetchWords_two hw (by simp [hasTwoWords, hp, hcov]) hblock hv
    refine ⟨fun hrow => ?_, fun row hrow => ?_⟩
    · rw [step_of_fetchWords two, decode_v31_none hsvp hp hrow, execDecoded]
    · rw [step_of_fetchWords two, decode_v31_some hsvp hp hrow, execDecoded]
  · rw [step_of_fetchWords (one (by simp [hp])), decode_illegal hsvp hp hd, execDecoded, raiseIllegal]
  · rw [step_of_fetchWords (one (by simp [hp])), decode_unprefixed [] hp hd, decodedOfSuffix, execDecoded]

/-! ### A word written out for each row of the opcode table -/

/-- Words decode to the well-formed instruction they are the encoding of. -/
theorem decode_of_encode_eq {base : BaseTable} {ws : List Insn} {i : Instr} (hwf : i.wellFormed base = true)
    (henc : encode i = ws) : decode base ws = .instr i :=
  henc ▸ decodeOfEncodeIsTheInstruction base i hwf

/-- Settles O1: each of the thirteen lists of words is the encoding of its well-formed instruction. -/
theorem wordsOfEachFamilyDecode : Obligations.WordsOfEachFamilyDecode := by
  refine ⟨?_, ?_, ?_, ?_, ?_, ?_, ?_, ?_, ?_, ?_, ?_, ?_, ?_⟩ <;>
    exact decode_of_encode_eq (by decide) (by decide)

end Sys2Proof.Machine

/-! ## `VL` = 0 (R116) -/

namespace Sys2Proof.Machine

/-! ### A pair at `VL` = 0 -/

/-- At `VL` = 0 the rule of the pair goes on to the next address, once no value is reserved (R114, R116). -/
theorem execSvp64_vlZero {c : RmCommon} {x : Slots} {sfx : Suffix} {s : State}
    (hf : (suffixProfile sfx).rmFormat ≠ none) (hres : reserved c x (suffixProfile sfx) = false) (hvl : s.vl = 0) :
    execSvp64 c x sfx s = .next (advance s 8) := by
  rw [execSvp64, if_neg hf, if_neg (Bool.eq_false_iff.mp hres), if_pos hvl]

/-! ### No unprefixed instruction looks at `VL` -/

/-- A store does the same at every `VL`. -/
theorem storeBytes_withVl (s : State) (v : Nat) (l : List (Word × Byte)) :
    storeBytes { s with vl := v } l = { storeBytes s l with vl := v } := by
  induction l generalizing s with
  | nil => rfl
  | cons p l ih => exact ih (storeByte s p)

/-- The unprefixed instructions of the opcode table do the same at every `VL`. -/
theorem exec_unprefixed_withVl {i : Instr} {s t : State} (hi : isPair i = false) (h : exec i s = .next t) (v : Nat) :
    exec i { s with vl := v } = .next { t with vl := v } := by
  cases i with
  | add rt ra rb => cases h; rfl
  | addi rt ra si => cases h; rfl
  | b li => cases h; rfl
  | lwz rt ra d =>
    obtain ⟨w, hw, rfl⟩ := baseLwz_ok (outcomeOf_next.mp h)
    have hcheck : checkAccess { s with vl := v } (effAddr s ra d) 4 = .ok () := (load32_ok hw).1
    rw [(load32_ok hw).2]
    exact exec_lwz_next hcheck
  | stw rs ra d =>
    obtain ⟨u, hu, rfl⟩ := baseStw_ok (outcomeOf_next.mp h)
    obtain ⟨hc, rfl⟩ := store32_ok hu
    have hcheck : checkAccess { s with vl := v } (effAddr s ra d) 4 = .ok () := hc
    refine (exec_stw_next hcheck).trans ?_
    rw [storeBytes_withVl]
    rfl
  | _ => cases hi

/-- Settles O26: the pair at `VL` = 0, split and unsplit, and the unprefixed instructions at every `VL`. -/
theorem vlZeroMakesEveryPairANop : Obligations.VlZeroMakesEveryPairANop := by
  refine ⟨fun s f c e sfx hvl hf hres => ?_, fun s rm w sfx f hvl hp hd hf hres => ?_,
    fun s t i v hi h => exec_unprefixed_withVl hi h v⟩
  · rw [exec_pairOf]
    exact execSvp64_vlZero hf hres hvl
  · rw [exec_sv_of_format hp hd hf]
    exact execSvp64_vlZero (hf ▸ Option.some_ne_none f) hres hvl

end Sys2Proof.Machine

/-! ## Scalar identity (R94, R117) -/

namespace Sys2Proof.Machine

/-! ### An all-zero `RM` passes the tests before the identity -/

/-- The unprefixed execution of a suffix is `Base.exec` of it (R110). -/
theorem execSuffix_eq (sfx : Suffix) (s : State) : execSuffix sfx s = outcomeOf (baseExec sfx s) := by
  cases sfx <;> rfl

theorem outcomeOf_identityExec (sfx : Suffix) (s : State) :
    outcomeOf (identityExec sfx s) = outcomeAt (s.pc + 8#64) (execSuffix sfx s) := by
  rw [execSuffix_eq, identityExec]
  cases baseExec sfx s <;> rfl

/-- Slots that are all zero extend no operand, so none of them is reserved (R95 row c). -/
theorem reservedUnused_of_zero {x : Slots} (hx : slotsAreZero x = true) (prof : Profile) :
    reservedUnused x prof = false := by
  simp only [slotsAreZero, Bool.and_eq_true, Bool.not_eq_true', List.all_eq_true] at hx
  obtain ⟨hentries, hmode⟩ := hx
  rw [reservedUnused, hmode, Bool.false_and, Bool.false_or, List.any_eq_false]
  intro p hp
  simp [hentries p hp]

/-- No suffix reserves an all-zero `RM` (R94, R95). -/
theorem reserved_zero {x : Slots} (hx : slotsAreZero x = true) (prof : Profile) :
    reserved zeroCommon x prof = false := by
  have hwidth : ∀ r, widthField zeroCommon r = 0#2 := fun r => ite_self _
  simp [reserved, reservedBf16, reservedFpSingle, hwidth, reservedUnused_of_zero hx]

/-- An all-zero EXTRA has zero slots in every format. -/
theorem slotsAreZero_extra_zero (f : RmFormat) : slotsAreZero (slotsOfExtra f 0#9) = true := by
  cases f <;> rfl

theorem rmIsZero_zero (f : RmFormat) : rmIsZero zeroCommon (slotsOfExtra f 0#9) = true := by
  cases f <;> rfl

/-- Under an all-zero `RM` at `VL` = 1 the rule of the pair is the unprefixed instruction with `pc + 8` (R114, R117). -/
theorem execSvp64_identity {f g : RmFormat} {sfx : Suffix} {s : State} (hvl : s.vl = 1)
    (hg : (suffixProfile sfx).rmFormat = some g) (hb : (suffixProfile sfx).cls ≠ .branch) :
    execSvp64 zeroCommon (slotsOfExtra f 0#9) sfx s = outcomeAt (s.pc + 8#64) (execSuffix sfx s) := by
  have hfmt : (suffixProfile sfx).rmFormat ≠ none := hg ▸ Option.some_ne_none g
  have hvl0 : s.vl ≠ 0 := by omega
  have hact : execActive zeroCommon (slotsOfExtra f 0#9) sfx s = identityExec sfx s := by
    rw [execActive, if_neg hb, if_pos (by simp [rmIsZero_zero, hvl])]
  rw [execSvp64, if_neg hfmt, if_neg (Bool.eq_false_iff.mp (reserved_zero (slotsAreZero_extra_zero f) _)), if_neg hvl0,
    hact, outcomeOf_identityExec]

/-- Settles O27: split or unsplit, the pair has the same slots, all zero. -/
theorem identityPairActsAsItsSuffix : Obligations.IdentityPairActsAsItsSuffix := by
  intro f sfx s hvl hf hb
  refine ⟨?_, fun w hp hd => ?_⟩
  · rw [exec_pairOf, execSvp64_identity hvl hf hb]
  · rw [exec_sv_of_format hp hd hf, slotsOfRm_eq]
    exact execSvp64_identity hvl hf hb

/-! ### Loads and stores at identity -/

/-- A frame says nothing of `pc`. -/
theorem Frame.setPc {g f c m : Nat → Prop} {s t : State} (h : Frame g f c m s t) (a : Word) :
    Frame g f c m s (t.setPc a) :=
  ⟨h.gpr, h.fpr, h.cr, h.mem, h.stored, h.vl, h.le, h.launch⟩

/-- Settles O28: the unprefixed `stw` of `stwStoresTheWord`, with `pc + 8`. -/
theorem identityStoreStoresTheWord : Obligations.IdentityStoreStoresTheWord := by
  intro rs ra d s hvl hm ha hadm
  obtain ⟨t, ht, hbytes, -, hframe⟩ := stwStoresTheWord rs ra d s hm ha hadm
  have hsuffix : execSuffix (.stw rs ra d) s = .next t := ht
  refine ⟨t.setPc (s.pc + 8#64), ?_, hbytes, rfl, hframe.setPc _⟩
  have hid := (identityPairActsAsItsSuffix .rm2p2s (.stw rs ra d) s hvl rfl (by simp [suffixProfile])).1
  rwa [hsuffix] at hid

/-- What bytes become in memory depends on memory alone. -/
theorem storeBytes_mem_congr {s t : State} (h : s.mem = t.mem) (l : List (Word × Byte)) :
    (storeBytes s l).mem = (storeBytes t l).mem := by
  induction l generalizing s t with
  | nil => exact h
  | cons p l ih => exact ih (congrArg (Memory.write · p.1.toNat p.2) h)

/-- Where every address is admitted, supplied words that raise no exception have the effect `Base` gives them
(R58, R111). -/
theorem baseFree_of_admitted {words : List Insn} {branch : Bool} {s : State}
    (hadm : ∀ a < 2 ^ 64, s.launch.admits a = true) :
    baseFree words false branch s =
      .ok (storeBytes ((applyRegs (suppliedEffect words s) s).setPc (suppliedNext words branch s))
        (suppliedEffect words s).mem) := by
  have hword : ∀ a : Word, s.launch.admits a.toNat = true := fun a => hadm a.toNat a.isLt
  have hreads : (Config.baseReads words (baseView s)).all (fun a => s.launch.admits a.toNat) = true :=
    List.all_eq_true.mpr fun a _ => hword a
  have hstores : (suppliedEffect words s).mem.all (fun p => s.launch.admits p.1.toNat) = true :=
    List.all_eq_true.mpr fun p _ => hword p.1
  rw [baseFree, hreads, storeAdmitted]
  exact if_pos hstores

/-- The frame of the free effect of supplied words (R21, R117). -/
theorem storeBytes_applyRegs_frame {s : State} (hm : s.mem.wf = true) (e : Config.BaseEffect) (a : Word) :
    Frame (fun n => n < 32) (fun n => n < 32) (fun n => n < 8) (fun b => ∃ p ∈ e.mem, p.1.toNat = b) s
      (storeBytes ((applyRegs e s).setPc a) e.mem) := by
  have hreach : BaseReach s (storeBytes ((applyRegs e s).setPc a) e.mem) :=
    ((BaseReach.applyRegs e s).trans (.setPc _ a)).trans (.storeBytes _ e.mem)
  exact {
    gpr := fun n hn => hreach.gpr n (by omega)
    fpr := fun n hn => hreach.fpr n (by omega)
    cr := fun n hn => hreach.cr n (by omega)
    mem := fun b hb => storeBytes_read_other ((applyRegs e s).setPc a) e.mem hm fun p hp he => hb ⟨p, hp, he⟩
    stored := fun b => mem_storeBytes_stored
    vl := hreach.vl
    le := hreach.le
    launch := hreach.launch }

/-- Settles O29: a word of these classes is not element-wise, so at identity it has its free effect. -/
theorem identityOfSuppliedWordReachesBaseRegistersOnly :
    Obligations.IdentityOfSuppliedWordReachesBaseRegistersOnly := by
  intro f word prof s hvl hm hadm hf hcls hraise
  have hb : prof.cls ≠ .branch := by rcases hcls with h | h <;> simp [h]
  have hwise : isElementWise prof = false := by rcases hcls with h | h <;> simp [isElementWise, h]
  have hsuffix : execSuffix (.other word prof) s =
      .next (storeBytes ((applyRegs (suppliedEffect [word] s) s).setPc (suppliedNext [word] false s))
        (suppliedEffect [word] s).mem) := by
    rw [execSuffix, execBaseWord, baseOther, hwise, hraise, decide_eq_false hb]
    exact congrArg outcomeOf (baseFree_of_admitted hadm)
  have hid := (identityPairActsAsItsSuffix f (.other word prof) s hvl hf hb).1
  rw [hsuffix] at hid
  obtain ⟨hgpr, hfpr, hcr, -⟩ := storeBytes_rest
    ((applyRegs (suppliedEffect [word] s) s).setPc (suppliedNext [word] false s)) (suppliedEffect [word] s).mem
  have hmem := storeBytes_mem_congr (t := s)
    (s := (applyRegs (suppliedEffect [word] s) s).setPc (suppliedNext [word] false s)) rfl (suppliedEffect [word] s).mem
  exact ⟨_, hid, rfl, hgpr, hfpr, hcr, hmem, (storeBytes_applyRegs_frame hm _ _).setPc _⟩

end Sys2Proof.Machine

/-! ## The loop of a 1P pair (R114, R119) -/

namespace Sys2Proof.Machine

/-- What R114 asks of a pair of a 1P format before its loop. -/
structure RunsLoop1P (c : RmCommon) (x : Slots) (sfx : Suffix) : Prop where
  fmt : (suffixProfile sfx).rmFormat ≠ none
  res : reserved c x (suffixProfile sfx) = false
  cls : (suffixProfile sfx).cls = .normal
  atomic : (suffixProfile sfx).atomic = false
  rc : (suffixProfile sfx).rc = false
  addi : isAddiRa0 sfx = false
  single : isTwin x.fmt = false
  mode : c.mode = 0#5
  width : c.elwidth = c.elwidthSrc

section
variable {c : RmCommon} {x : Slots} {sfx : Suffix} {s t : State}

/-- Beyond identity such a pair is its loop (R114). -/
theorem RunsLoop1P.execSvp64_loop (h : RunsLoop1P c x sfx) (hvl : s.vl ≠ 0)
    (hid : ¬ (rmIsZero c x = true ∧ s.vl = 1)) :
    execSvp64 c x sfx s = outcomeOf ((loop1P (loopCtx c x sfx) s).map (advance · 8)) := by
  rw [execSvp64, if_neg h.fmt, if_neg (Bool.eq_false_iff.mp h.res), if_neg hvl,
    execActive_normal h.cls h.atomic h.rc h.addi h.single h.mode h.width, identityTest_eq_false hid]
  rfl

/-- An all-zero `RM` has the common fields and the slots of one (R94). -/
theorem zero_of_rmIsZero (h : rmIsZero c x = true) : c = zeroCommon ∧ slotsAreZero x = true := by
  obtain ⟨mm, m, ew, ews, sv, md⟩ := c
  simp only [rmIsZero, Bool.and_eq_true, Bool.not_eq_true', decide_eq_true_eq] at h
  obtain ⟨⟨⟨⟨⟨⟨⟨rfl, rfl⟩, rfl⟩, rfl⟩, rfl⟩, rfl⟩, hslots⟩, -⟩ := h
  exact ⟨rfl, hslots⟩

/-! ### No element enabled (R164, R172) -/

theorem loop1PFrom_disabled {l : LoopCtx} {s0 : State} {k i : Nat}
    (h : ∀ i' < i + k, predMask s0 l.maskMode l.mask i' = .ok false) : loop1PFrom s0 l k i s = .ok s := by
  induction k generalizing i with
  | zero => rfl
  | succ k ih =>
    rw [loop1PFrom_succ_disabled (h i (by omega))]
    exact ih fun i' hi' => h i' (by omega)

/-- Settles O41: identity has no predicate, so a pair with element 0 disabled is its loop, which passes over every
element. -/
theorem noEnabledElementChangesOnlyPc : Obligations.NoEnabledElementChangesOnlyPc := by
  intro f c e sfx s hf hfmt hres hcls hrc hat haddi hmode hew hvl hmask
  have hruns : RunsLoop1P c (slotsOfExtra f e) sfx :=
    { fmt := hfmt, res := hres, cls := hcls, atomic := hat, rc := hrc, addi := isAddiRa0_eq_false haddi
      single := by rw [slotsOfExtra_fmt]; rcases hf with rfl | rfl <;> rfl
      mode := hmode, width := hew }
  have hid : ¬ (rmIsZero c (slotsOfExtra f e) = true ∧ s.vl = 1) := by
    rintro ⟨hz, -⟩
    obtain ⟨rfl, -⟩ := zero_of_rmIsZero hz
    cases hmask 0 (by omega)
  have hloop : loop1P (loopCtx c (slotsOfExtra f e) sfx) s = .ok s :=
    loop1PFrom_disabled fun i hi => hmask i (by omega)
  rw [exec_pairOf, hruns.execSvp64_loop hvl hid, hloop]
  rfl

end

/-! ### A supplied word: its loop and its identity agree (R117, R141) -/

/-- A slot of zero extends an operand as no slot does, be it EXTRA2 or EXTRA3 (R202, R204, R209, R210). -/
theorem extendOperand_of_isZero (o : Operand) {v : ExtraVal} (hv : v.isZero = true) :
    extendOperand o v = extendOperand o (.e3 0#3) := by
  cases v with
  | e3 v => rw [of_decide_eq_true hv]
  | e2 v =>
    rw [of_decide_eq_true hv]
    cases hk : o.kind <;> simp [extendOperand, hk, extend, extendCr, extendCrBit]

theorem slotOf_isZero {l : List (Role × ExtraVal)} (h : ∀ p ∈ l, p.2.isZero = true) (r : Role) :
    (slotOf l r).isZero = true := by
  by_contra hne
  exact hne (h _ (mem_of_slotOf_ne_zero (by simpa using hne)))

/-- Zero slots extend the operands of a suffix to what they are unprefixed (R117). -/
theorem operandsIn_of_zero {x : Slots} (hx : slotsAreZero x = true) (roles : List Role) (prof : Profile) :
    operandsIn roles prof x = operandsIn roles prof noSlots := by
  simp only [slotsAreZero, Bool.and_eq_true, List.all_eq_true] at hx
  refine List.filterMap_congr fun r _ => ?_
  simp only [extendOperand_of_isZero _ (slotOf_isZero hx.1 r)]
  rfl

section
variable {c : RmCommon} {x : Slots} {word : Insn} {prof : Profile} {s t : State}

/-- Where the loop of a supplied word completes under an all-zero `RM`, the unprefixed word does the same. -/
theorem identityExec_of_loop1P (hz : rmIsZero c x = true) (hvl : s.vl = 1) (hwise : isElementWise prof = true)
    (hrc : prof.rc = false) (h : loop1P (loopCtx c x (.other word prof)) s = .ok t) :
    identityExec (.other word prof) s = .ok (t.setPc (s.pc + 8#64)) := by
  obtain ⟨rfl, hx⟩ := zero_of_rmIsZero hz
  have hctx : loopCtx zeroCommon x (.other word prof) =
      { sfx := .other word prof
        srcs := sourcesOf prof noSlots
        dsts := destsOf prof noSlots ++ baseImplicitDests word prof
        w := 64
        sv := 1
        maskMode := false
        mask := 0#3
        maskSrc := x.maskSrc } := by
    simp only [loopCtx, suffixProfile, sourcesOf, destsOf, operandsIn_of_zero hx, implicitDests, hx, if_true]
    rfl
  rw [hctx, loop1P_one hvl rfl rfl, crClash_int] at h
  rw [identityExec, baseExec, baseOther, if_pos hwise, baseElementWise, h]
  simp only [recordRc, hrc]
  rfl

/-- A pair of a supplied word whose loop completes has that effect, at identity too, and goes on at `pc + 8`. -/
theorem RunsLoop1P.execSvp64_next (h : RunsLoop1P c x (.other word prof)) (hvl : s.vl ≠ 0)
    (hl : loop1P (loopCtx c x (.other word prof)) s = .ok t) :
    execSvp64 c x (.other word prof) s = .next (t.setPc (s.pc + 8#64)) := by
  by_cases hid : rmIsZero c x = true ∧ s.vl = 1
  · have hwise : isElementWise prof = true := by
      rw [isElementWise, Bool.and_eq_true, decide_eq_true_eq]
      exact ⟨h.cls, Option.isSome_iff_ne_none.mpr h.fmt⟩
    rw [execSvp64, if_neg h.fmt, if_neg (Bool.eq_false_iff.mp h.res), if_neg hvl,
      execActive_normal h.cls h.atomic h.rc h.addi h.single h.mode h.width, if_pos (by simpa using hid),
      identityExec_of_loop1P hid.1 hid.2 hwise h.rc hl]
    rfl
  · rw [h.execSvp64_loop hvl hid, hl, ← (loop1P_regsOnly hl).pc]
    rfl

end

/-! ### Four GPRs (R181, R204) -/

/-- The operand a GPR field and an EXTRA value of either width name (R206). -/
def gprOf (r : BitVec 5) (v : ExtraVal) : ExtOperand := extendOperand ⟨.rdest, .gpr, r⟩ v

/-- A supplied RM-1P-3S1D suffix of a destination and three source GPRs, that raises no exception. -/
def fourGprSuffix (mn : String) (dw : Nat) (word : Insn) (ft fa fb fc : BitVec 5) : Suffix :=
  .other word (normalProfile mn dw .rm1p3s1d
    [⟨.rdest, .gpr, ft⟩, ⟨.rsrc1, .gpr, fa⟩, ⟨.rsrc2, .gpr, fb⟩, ⟨.rsrc3, .gpr, fc⟩] false)

section
variable (mn : String) (dw : Nat) (word : Insn) (ft fa fb fc : BitVec 5)

theorem loopCtx_fourGprSuffix (c : RmCommon) (x : Extra1p3s1d) :
    loopCtx c (slots1p3s1d x) (fourGprSuffix mn dw word ft fa fb fc) =
      { sfx := fourGprSuffix mn dw word ft fa fb fc
        srcs := [gprOf fa (.e2 x.rsrc1), gprOf fb (.e2 x.rsrc2), gprOf fc (.e2 x.rsrc3)]
        dsts := [gprOf ft (.e2 x.rdest)]
        w := widthOf c.elwidth
        sv := subLen c.subvl
        maskMode := c.maskMode
        mask := c.mask
        maskSrc := 0#3 } := by
  have himp : implicitDests (fourGprSuffix mn dw word ft fa fb fc) (slots1p3s1d x) = [] := by
    simp [implicitDests, fourGprSuffix, baseImplicitDests, normalProfile]
  simp only [loopCtx, himp]
  rfl

/-- Such a pair without EXTRA2_MODE has an operand for every slot, none of them an FPR (R95). -/
theorem runsLoop1P_fourGprSuffix {c : RmCommon} {x : Extra1p3s1d} (hx : x.extra2Mode = false) (hmode : c.mode = 0#5)
    (hew : c.elwidth = c.elwidthSrc) : RunsLoop1P c (slots1p3s1d x) (fourGprSuffix mn dw word ft fa fb fc) where
  fmt := by simp [fourGprSuffix, suffixProfile, normalProfile]
  res := by
    simp [reserved, reservedBf16, reservedFpSingle, reservedUnused, fourGprSuffix, suffixProfile, normalProfile,
      slots1p3s1d, hx]
  cls := rfl
  atomic := rfl
  rc := rfl
  addi := rfl
  single := rfl
  mode := hmode
  width := hew

end

/-- Settles O45: one element operation over elements 0, which lie in the file. -/
theorem fourOperandPairRunsItsElementOperation : Obligations.FourOperandPairRunsItsElementOperation := by
  intro mn dw word ft fa fb fc c x s hvl hmm hm hew hsv hmode hx
  have hin : ∀ r v, elInFile (extend r v).2.toNat 0 (widthOf c.elwidth) = true := fun r v =>
    elInFile_zero (extend r v).2.isLt (widthOf_le _)
  obtain ⟨a, ha⟩ := exists_elRead s.gpr (hin fa (.e2 x.rsrc1))
  obtain ⟨b, hb⟩ := exists_elRead s.gpr (hin fb (.e2 x.rsrc2))
  obtain ⟨d, hd⟩ := exists_elRead s.gpr (hin fc (.e2 x.rsrc3))
  obtain ⟨g, hg⟩ := exists_elWrite s.gpr (Config.elementOp word (widthOf c.elwidth) [a, b, d]).1 (hin ft (.e2 x.rdest))
  have hmask : predMask s c.maskMode c.mask 0 = .ok true := by rw [hmm, hm]; rfl
  have hloop : loop1P (loopCtx c (slots1p3s1d x) (fourGprSuffix mn dw word ft fa fb fc)) s = .ok (s.setGpr g) := by
    rw [loopCtx_fourGprSuffix, loop1P_one hvl hmask (congrArg subLen hsv)]
    simp [elementStep, readEls, writeEls, readEl, writeEl, gprOf, extendOperand, fourGprSuffix, elementRaises,
      normalProfile, elementOp, ha, hb, hd, hg]
  have hvl0 : s.vl ≠ 0 := by omega
  exact ⟨a, b, d, g, ha, hb, hd, hg,
    (runsLoop1P_fourGprSuffix mn dw word ft fa fb fc hx hmode hew).execSvp64_next hvl0 hloop⟩

end Sys2Proof.Machine

/-! ## CR operands (R209, R211) -/

namespace Sys2Proof.Machine

/-- Without an FPR operand no value of `RM` is reserved: every slot has its operand (R95). -/
theorem reserved_threeProfile (mn : String) (dw : Nat) {kt ka kb : RegKind} (ft fa fb : BitVec 5) (c : RmCommon)
    (x : Extra1p2s1d) (ht : kt ≠ .fpr) (ha : ka ≠ .fpr) (hb : kb ≠ .fpr) :
    reserved c (slots1p2s1d x) (threeProfile mn dw kt ka kb ft fa fb) = false := by
  simp [reserved, reservedBf16, reservedFpSingle, reservedUnused, threeProfile, normalProfile, slots1p2s1d, ht, ha, hb]

/-! ### One bit of a CR field -/

/-- Setting a bit of a CR field sets that bit alone (R29). -/
theorem getMsbD_setCrFieldBit (f : BitVec 4) {b k : Nat} (v : Bool) (hb : b < 4) (hk : k < 4) :
    (setCrFieldBit f b v).getMsbD k = if k = b then v else f.getMsbD k := by
  have hmask : ∀ b < 4, ∀ k < 4, (8#4 >>> b).getMsbD k = decide (k = b) := by decide
  rw [setCrFieldBit]
  cases v <;> by_cases hkb : k = b <;> simp [hmask b hb k hk, hb, hk, hkb]

/-- The CR field of a CR-bit field and an EXTRA3 value (R211). -/
def crBitField (b : BitVec 5) (v : BitVec 3) : Nat := (extendCrBit b (.e3 v)).2.1.toNat

theorem crBitField_lt (b : BitVec 5) (v : BitVec 3) : crBitField b v < 128 := (extendCrBit b (.e3 v)).2.1.isLt

/-- The bit of that field it names, whatever EXTRA is (R210). -/
def crBitNumber (b : BitVec 5) : Nat := (b.extractLsb' 0 2).toNat

theorem crBitNumber_lt (b : BitVec 5) : crBitNumber b < 4 := (b.extractLsb' 0 2).isLt

section
variable (s : State) (b : BitVec 5) (v : BitVec 3) (w : Nat)

theorem readEl_operandOf_crBit :
    readEl s (operandOf .crBit b v) 0 w =
      .ok ((BitVec.ofBool ((readCr s.cr (crBitField b v)).getMsbD (crBitNumber b))).setWidth 64) :=
  if_pos (crBitField_lt b v)

theorem writeEl_operandOf_crBit (d : Word) :
    writeEl (fun _ => false) s (operandOf .crBit b v) 0 w d =
      .ok (s.setCr (writeCr s.cr (crBitField b v)
        (setCrFieldBit (readCr s.cr (crBitField b v)) (crBitNumber b) (d.getLsbD 0)))) :=
  if_pos (crBitField_lt b v)

end

theorem toNat_setWidth_ofBool (v : Bool) : ((BitVec.ofBool v).setWidth 64).toNat = v.toNat := by
  cases v <;> rfl

theorem readCr_writeCr_same (f : CrFile) {n : Nat} (hn : n < 128) (v : BitVec 4) : readCr (writeCr f n v) n = v :=
  (readCr_writeCr f n v n).trans (if_pos ⟨rfl, hn⟩)

/-- A CR field written: the frame. -/
theorem setCr_writeCr_frame (s : State) (n : Nat) (v : BitVec 4) :
    Frame nowhere nowhere (fun k => k = n) nowhere s (s.setCr (writeCr s.cr n v)) where
  gpr _ _ := rfl
  fpr _ _ := rfl
  cr k hk := (readCr_writeCr s.cr n v k).trans (if_neg fun h => hk h.1)
  mem _ _ := rfl
  stored _ := (iff_of_eq (or_false _)).symm
  vl := rfl
  le := rfl
  launch := rfl

/-- Settles O49: the one element operation over three CR-bit operands. -/
theorem crBitPairWritesOneBitAlone : Obligations.CrBitPairWritesOneBitAlone := by
  intro mn dw word bt ba bb c x s hvl hmm hm hew hsv hmode
  refine ⟨_, _, _, toNat_setWidth_ofBool _, toNat_setWidth_ofBool _,
    exec_threeSuffix mn dw word .crBit .crBit .crBit bt ba bb hvl hmm hm hew hsv hmode
      (reserved_threeProfile mn dw bt ba bb c x (by decide) (by decide) (by decide))
      (readEl_operandOf_crBit s ba x.rsrc1 _) (readEl_operandOf_crBit s bb x.rsrc2 _)
      (writeEl_operandOf_crBit s bt x.rdest _ _), ?_, fun k hk hne => ?_, rfl,
    (setCr_writeCr_frame s (crBitField bt x.rdest) _).setPc _⟩
  · refine (congrArg (BitVec.getMsbD · _) (readCr_writeCr_same s.cr (crBitField_lt bt x.rdest) _)).trans ?_
    exact (getMsbD_setCrFieldBit _ _ (crBitNumber_lt bt) (crBitNumber_lt bt)).trans (if_pos rfl)
  · refine (congrArg (BitVec.getMsbD · k) (readCr_writeCr_same s.cr (crBitField_lt bt x.rdest) _)).trans ?_
    exact (getMsbD_setCrFieldBit _ _ (crBitNumber_lt bt) hk).trans (if_neg hne)

end Sys2Proof.Machine

/-! ## A CR predicate overwritten inside the loop (R171, R174, R272) -/

namespace Sys2Proof.Machine

/-! ### A loop that writes a CR operand -/

/-- What the loop of a pair that writes one CR operand asks at `vl` iterations: sources that can all be read, an element
operation that never raises, and a CR-field or CR-bit destination. -/
structure WritesCr (l : LoopCtx) (o : ExtOperand) (vl : Nat) : Prop where
  reads : ∀ (s : State), ∀ i < vl, ∀ j < l.sv, ∃ vs, readEls s i l.sv j l.w l.srcs = .ok vs
  raises : ∀ vs, elementRaises l.sfx l.w vs = false
  dsts : l.dsts = [o]
  kind : o.kind = .crField ∨ o.kind = .crBit

/-- The CR field that sub-element `j` of iteration `i` of a CR operand lies in (R211, D21). -/
def crFieldAt (o : ExtOperand) (i sv j : Nat) : Nat := o.num + elIndex o i sv j

/-- A write of a CR operand is refused where it clashes, else it completes (R171). -/
theorem writeEl_cr_cases (clash : Nat → Bool) (s : State) {o : ExtOperand} {e : Nat} (w : Nat) (v : Word)
    (hk : o.kind = .crField ∨ o.kind = .crBit) (hn : o.num + e < 128) :
    (clash (o.num + e) = true ∧ writeEl clash s o e w v = .error .crPredicateOverwritten) ∨
      (clash (o.num + e) = false ∧ ∃ t, writeEl clash s o e w v = .ok t) := by
  have hn' : o.num + e < Config.nreg := hn
  rcases hk with hk | hk <;> cases hc : clash (o.num + e) <;> simp [writeEl, hk, writeCrGuarded, hn', hc]

section
variable {l : LoopCtx} {o : ExtOperand} {vl i j : Nat}

/-- An element operation of such a loop is refused where its write clashes, else it completes. -/
theorem WritesCr.op_cases (h : WritesCr l o vl) (hi : i < vl) (hj : j < l.sv) (hn : crFieldAt o i l.sv j < 128)
    (clash : Nat → Bool) (s : State) :
    (clash (crFieldAt o i l.sv j) = true ∧ l.op clash i i j s = .error .crPredicateOverwritten) ∨
      (clash (crFieldAt o i l.sv j) = false ∧ ∃ t, l.op clash i i j s = .ok t) := by
  obtain ⟨vs, hvs⟩ := h.reads s i hi j hj
  rw [LoopCtx.op, elementStep, hvs, h.dsts]
  simp only [h.raises, Bool.false_eq_true, if_false, writeEls]
  rcases writeEl_cr_cases clash s l.w (elementOp l.sfx l.w vs).1 h.kind hn with ⟨hc, hw⟩ | ⟨hc, t, hw⟩
  · exact .inl ⟨hc, by rw [hw]⟩
  · exact .inr ⟨hc, t, by rw [hw]⟩

/-- A sub-vector whose writes stay in the file completes, or is refused for a clash. -/
theorem WritesCr.subLoop_cases (h : WritesCr l o vl) (hi : i < vl) (clash : Nat → Nat → Bool) (k j0 : Nat)
    (hk : j0 + k ≤ l.sv) (hn : ∀ j' < j0 + k, crFieldAt o i l.sv j' < 128) (s : State) :
    (∃ t, subLoop clash l i i k j0 s = .ok t) ∨ subLoop clash l i i k j0 s = .error .crPredicateOverwritten := by
  induction k generalizing j0 s with
  | zero => exact .inl ⟨s, rfl⟩
  | succ k ih =>
    rcases h.op_cases hi (by omega) (hn j0 (by omega)) (clash j0) s with ⟨-, hop⟩ | ⟨-, t, hop⟩
    · exact .inr (subLoop_succ_of_error hop)
    · rw [subLoop_succ_of_ok hop]
      exact ih (j0 + 1) (by omega) (fun j' hj' => hn j' (by omega)) t

/-- A sub-vector with a clashing write at `j` is refused there or before. -/
theorem WritesCr.subLoop_clash (h : WritesCr l o vl) (hi : i < vl) {clash : Nat → Nat → Bool} (hj : j < l.sv)
    (hn : ∀ j' ≤ j, crFieldAt o i l.sv j' < 128) (hc : clash j (crFieldAt o i l.sv j) = true) (k j0 : Nat) (h0 : j0 ≤ j)
    (hk : j < j0 + k) (s : State) : subLoop clash l i i k j0 s = .error .crPredicateOverwritten := by
  induction k generalizing j0 s with
  | zero => omega
  | succ k ih =>
    rcases h.op_cases hi (by omega) (hn j0 h0) (clash j0) s with ⟨-, hop⟩ | ⟨hno, t, hop⟩
    · exact subLoop_succ_of_error hop
    · rw [subLoop_succ_of_ok hop]
      refine ih (j0 + 1) (Nat.lt_of_le_of_ne h0 ?_) (by omega) t
      rintro rfl
      exact Bool.false_ne_true (hno.symm.trans hc)

theorem WritesCr.scalarDest (h : WritesCr l o vl) : scalarDest l.dsts = !o.isVec := by
  rw [h.dsts, Machine.scalarDest]

/-- The fields a CR operand writes up to operation `(i, j)` are none beyond that operation's. -/
theorem crFieldAt_le_of_le (o : ExtOperand) (i : Nat) {sv j j' : Nat} (h : j' ≤ j) :
    crFieldAt o i sv j' ≤ crFieldAt o i sv j :=
  Nat.add_le_add_left (Nat.add_le_add_left h _) _

theorem crFieldAt_le_of_lt {o : ExtOperand} (hv : o.isVec = true) {n i sv j j' : Nat} (hni : n < i) (hj' : j' < sv) :
    crFieldAt o n sv j' ≤ crFieldAt o i sv j := by
  have hstep : (n + 1) * sv ≤ i * sv := Nat.mul_le_mul_right sv hni
  rw [Nat.add_mul, Nat.one_mul] at hstep
  simp only [crFieldAt, elIndex, hv, if_true]
  omega

/-- The loop is refused at an enabled operation `(i, j)` whose write clashes, or before it. -/
theorem WritesCr.loop1PFrom_clash {s0 : State} {m : Nat → Bool} (h : WritesCr l o vl) (hi : i < vl) (hj : j < l.sv)
    (hmask : ∀ n ≤ i, predMask s0 l.maskMode l.mask n = .ok (m n)) (hmi : m i = true)
    (hvec : o.isVec = true ∨ ∀ n < i, m n = false) (hn : crFieldAt o i l.sv j < 128)
    (hc : l.clash1P s0 i j (crFieldAt o i l.sv j) = true) (k i0 : Nat) (h0 : i0 ≤ i) (hk : i < i0 + k) (s : State) :
    loop1PFrom s0 l k i0 s = .error .crPredicateOverwritten := by
  induction k generalizing i0 s with
  | zero => omega
  | succ k ih =>
    have hm := hmask i0 h0
    rcases Nat.eq_or_lt_of_le h0 with rfl | hlt
    · rw [hmi] at hm
      exact loop1PFrom_succ_of_error hm (h.subLoop_clash hi hj
        (fun j' hj' => Nat.lt_of_le_of_lt (crFieldAt_le_of_le o i0 hj') hn) hc l.sv 0 (Nat.zero_le j) (by omega) s)
    · cases hmi0 : m i0 with
      | false =>
        rw [hmi0] at hm
        rw [loop1PFrom_succ_disabled hm]
        exact ih (i0 + 1) hlt (by omega) s
      | true =>
        rw [hmi0] at hm
        have hv : o.isVec = true := hvec.resolve_right fun hall => by simp [hall i0 hlt] at hmi0
        rcases h.subLoop_cases (hlt.trans hi) (l.clash1P s0 i0) l.sv 0 (by omega)
          (fun j' hj' => Nat.lt_of_le_of_lt (crFieldAt_le_of_lt hv hlt (by omega)) hn) s with ⟨t, ht⟩ | herr
        · rw [loop1PFrom_succ_vector hm ht (by simp [h.scalarDest, hv])]
          exact ih (i0 + 1) hlt (by omega) t
        · exact loop1PFrom_succ_of_error hm herr

end

/-! ### A CR destination and two GPR sources -/

/-- Every element an operand that fits can reach lies in the file (R26). -/
theorem elFits_of_operandFits {o : Bool × Nat} {vl sv w i j : Nat} (h : operandFits o vl sv w) (hi : i < vl)
    (hj : j < sv) : elFits o i sv j w = true := by
  have hrow : refIndex o.1 i sv j + 1 ≤ (if o.1 = true then vl else 1) * sv := by
    have hlast : (if o.1 = true then i else 0) + 1 ≤ if o.1 = true then vl else 1 := by split <;> omega
    have hmul := Nat.mul_le_mul_right sv hlast
    rw [Nat.add_mul, Nat.one_mul] at hmul
    rw [refIndex]
    omega
  have hbytes := Nat.mul_le_mul_right (w / 8) hrow
  rw [Nat.add_mul, Nat.one_mul] at hbytes
  rw [operandFits] at h
  rw [elFits, elInFile_iff, elAt]
  omega

@[simp] theorem readEl_operandOf_gpr (s : State) (r : BitVec 5) (v : BitVec 3) (e w : Nat) :
    readEl s (operandOf .gpr r v) e w = elRead s.gpr (tagged r v).2 e w := rfl

@[simp] theorem elIndex_operandOf_gpr (r : BitVec 5) (v : BitVec 3) (i sv j : Nat) :
    elIndex (operandOf .gpr r v) i sv j = refIndex (tagged r v).1 i sv j := rfl

theorem operandOf_kind (k : RegKind) (r : BitVec 5) (v : BitVec 3) : (operandOf k r v).kind = k := by
  cases k <;> rfl

section
variable (mn : String) (dw : Nat) (word : Insn) {dk : RegKind} (bt fa fb : BitVec 5) {c : RmCommon} {x : Extra1p2s1d}

theorem writesCr_threeSuffix {vl : Nat} (hdk : dk = .crField ∨ dk = .crBit)
    (ha : operandFits (tagged fa x.rsrc1) vl (subLen c.subvl) (widthOf c.elwidth))
    (hb : operandFits (tagged fb x.rsrc2) vl (subLen c.subvl) (widthOf c.elwidth)) :
    WritesCr (loopCtx c (slots1p2s1d x) (threeSuffix mn dw word dk .gpr .gpr bt fa fb)) (operandOf dk bt x.rdest) vl := by
  rw [loopCtx_threeSuffix]
  refine ⟨fun s i hi j hj => ?_, fun vs => rfl, rfl, by rwa [operandOf_kind]⟩
  obtain ⟨a, ha⟩ := exists_elRead s.gpr (elFits_of_operandFits ha hi hj)
  obtain ⟨b, hb⟩ := exists_elRead s.gpr (elFits_of_operandFits hb hi hj)
  exact ⟨[a, b], by simp [readEls, ha, hb]⟩

theorem runsLoop1P_threeSuffix (hdk : dk ≠ .fpr) (hmode : c.mode = 0#5) (hew : c.elwidth = c.elwidthSrc) :
    RunsLoop1P c (slots1p2s1d x) (threeSuffix mn dw word dk .gpr .gpr bt fa fb) where
  fmt := by simp [threeSuffix, threeProfile, suffixProfile, normalProfile]
  res := reserved_threeProfile mn dw bt fa fb c x hdk (by decide) (by decide)
  cls := rfl
  atomic := rfl
  rc := rfl
  addi := rfl
  single := rfl
  mode := hmode
  width := hew

end

/-- A write of the field that governs a later element of a vector destination, or a later sub-element of its own
sub-vector, clashes (R171, R174). -/
theorem crClash_pending1P {vl sv i j i' : Nat} {isVec : Bool} (hi' : i' < vl)
    (h : (i < i' ∧ isVec = true) ∨ (i' = i ∧ j + 1 < sv)) :
    crClash true vl (pending1P (!isVec) sv i j) (32 + i') = true := by
  simp only [crClash, Config.crPredOffs, Nat.add_sub_cancel_left, hi', Nat.le_add_right, decide_true, Bool.and_true,
    Bool.true_and, pending1P, Bool.not_not]
  rcases h with ⟨hlt, hv⟩ | ⟨rfl, hj⟩
  · simp [hlt, hv]
  · simp [hj]

/-- Settles O51: the pair is its loop, since identity is unpredicated, and the loop is refused at operation `(i, j)` or
before it. -/
theorem overwritingAPredicateIsRefused : Obligations.OverwritingAPredicateIsRefused := by
  intro mn dw word dk bt fa fb c x m i j i' s hdk hmm hew hmode ha hb hmask hi hmi hj hvec hfield hfile hi' hlater
  have hwrites := writesCr_threeSuffix mn dw word bt fa fb hdk ha hb
  have hat : crFieldAt (operandOf dk bt x.rdest) i (subLen c.subvl) j = 32 + i' := hfield
  have hclash : (loopCtx c (slots1p2s1d x) (threeSuffix mn dw word dk .gpr .gpr bt fa fb)).clash1P s i j
      (crFieldAt (operandOf dk bt x.rdest) i (subLen c.subvl) j) = true := by
    rw [hat, LoopCtx.clash1P, hwrites.scalarDest, loopCtx_threeSuffix]
    simp only [hmm]
    exact crClash_pending1P hi' hlater
  have hloop : loop1P (loopCtx c (slots1p2s1d x) (threeSuffix mn dw word dk .gpr .gpr bt fa fb)) s =
      .error .crPredicateOverwritten := by
    refine hwrites.loop1PFrom_clash hi hj (fun n hn => ?_) hmi hvec (hat ▸ hfile) hclash s.vl 0 (Nat.zero_le i) (by omega) s
    rw [← hmask n hn, ← hmm]
    rfl
  have hid : ¬ (rmIsZero c (slots1p2s1d x) = true ∧ s.vl = 1) := by
    rintro ⟨hz, -⟩
    obtain ⟨rfl, -⟩ := zero_of_rmIsZero hz
    cases hmm
  have hfpr : dk ≠ .fpr := by rcases hdk with rfl | rfl <;> decide
  refine ((runsLoop1P_threeSuffix mn dw word bt fa fb hfpr hmode hew).execSvp64_loop (by omega) hid).trans ?_
  rw [hloop]
  rfl

end Sys2Proof.Machine

/-! ## The loop of a prefixed `add` is LS009's (R119, R121, R127, R151) -/

namespace Sys2Proof.Machine

/-! ### Values of elements -/

/-- `trunc_w` is the value modulo `2 ^ w` (R12). -/
theorem toNat_truncW {w : Nat} (hw : w ≤ 64) (v : Word) : (truncW w v).toNat = v.toNat % 2 ^ w := by
  refine Nat.eq_of_testBit_eq fun i => ?_
  rw [Nat.testBit_mod_two_pow, BitVec.testBit_toNat, BitVec.testBit_toNat, getLsbD_truncW hw]

/-- The element operation of `add` wraps at the element width (R127, R221). -/
theorem toNat_elementOp_add (rt ra rb : BitVec 5) {w : Nat} (hw : w ≤ 64) (a b : Word) :
    (elementOp (.add rt ra rb) w [a, b]).1.toNat = (a.toNat + b.toNat) % 2 ^ w := by
  simp only [elementOp]
  rw [toNat_truncW hw, BitVec.toNat_add, Nat.mod_mod_of_dvd _ (Nat.pow_dvd_pow 2 hw)]

/-- An element that lies in the file reads as the number its bytes form (R24). -/
theorem exists_elRead_bytes {n e w : Nat} (f : RegFile) (hw : IsWidth w) (h : elInFile n e w = true) :
    ∃ v, elRead f n e w = .ok v ∧ v.toNat = refElem (fileByte f) n e w :=
  elementReadIsItsBytes f n e w hw (elInFile_iff.mp h)

/-! ### A whole register as an element -/

theorem truncW_64 (v : Word) : truncW 64 v = v :=
  BitVec.eq_of_toNat_eq (by rw [toNat_truncW (Nat.le_refl 64), Nat.mod_eq_of_lt v.isLt])

theorem elRead_whole (f : RegFile) {n : Nat} (hn : n < 128) : elRead f n 0 64 = .ok (readReg f n) := by
  rw [elRead, if_pos (elInFile_zero hn (Nat.le_refl 64)), truncW_64]
  simp [elReg, elBit]

theorem elWrite_whole (f : RegFile) {n : Nat} (hn : n < 128) (v : Word) : elWrite f n 0 64 v = .ok (writeReg f n v) := by
  have hinsert : ∀ old : Word, insertBits old 0 64 v = v := fun old =>
    BitVec.eq_of_getLsbD_eq fun i hi =>
      (getLsbD_insertBits (Nat.le_refl 64) old v hi).trans (if_pos ⟨Nat.zero_le i, by omega⟩)
  rw [elWrite, if_pos (elInFile_zero hn (Nat.le_refl 64))]
  simp [elReg, elBit, hinsert]

/-! ### The loop over bytes -/

theorem loop1PFrom_succ_scalar {l : LoopCtx} {s0 s t : State} {i k : Nat}
    (hm : predMask s0 l.maskMode l.mask i = .ok true) (h : subLoop (l.clash1P s0 i) l i i l.sv 0 s = .ok t)
    (hd : scalarDest l.dsts = true) : loop1PFrom s0 l (k + 1) i s = .ok t := by
  simp only [loop1PFrom, hm, h]
  exact if_pos hd

section
variable (c : RmCommon) (x : Extra1p2s1d) (rt ra rb : BitVec 5)

theorem scalarDest_addCtx : scalarDest (addCtx c x rt ra rb).dsts = !(tagged rt x.rdest).1 := rfl

/-- An element operation of `add` whose elements lie in the file writes the bytes of the sum (R119, R221). -/
theorem op_addCtx_bytes {i j : Nat} (hfits : addFits c x rt ra rb i j = true) (clash : Nat → Bool) (s : State) :
    ∃ g, (addCtx c x rt ra rb).op clash i i j s = .ok (s.setGpr g) ∧
      fileByte g = refWrite (fileByte s.gpr) (tagged rt x.rdest).2
        (refIndex (tagged rt x.rdest).1 i (subLen c.subvl) j) (widthOf c.elwidth)
        ((refElem (fileByte s.gpr) (tagged ra x.rsrc1).2 (refIndex (tagged ra x.rsrc1).1 i (subLen c.subvl) j)
            (widthOf c.elwidth) +
          refElem (fileByte s.gpr) (tagged rb x.rsrc2).2 (refIndex (tagged rb x.rsrc2).1 i (subLen c.subvl) j)
            (widthOf c.elwidth)) % 2 ^ widthOf c.elwidth) := by
  simp only [addFits, Bool.and_eq_true, elFits] at hfits
  obtain ⟨⟨hfa, hfb⟩, hft⟩ := hfits
  have hw := isWidth_widthOf c.elwidth
  obtain ⟨a, ha, hav⟩ := exists_elRead_bytes s.gpr hw hfa
  obtain ⟨b, hb, hbv⟩ := exists_elRead_bytes s.gpr hw hfb
  obtain ⟨g, hg⟩ := exists_elWrite s.gpr (elementOp (.add rt ra rb) (widthOf c.elwidth) [a, b]).1 hft
  refine ⟨g, elementStep_two_sources ha hb rfl (writeEl_gprOperand hg), funext fun k => ?_⟩
  rw [fileByte_elWrite hw hg k, toNat_elementOp_add rt ra rb hw.le, hav, hbv]

/-- A sub-vector whose elements lie in the file completes; its sub-elements continue those done before it (R151). -/
theorem subLoop_addCtx_bytes (clash : Nat → Nat → Bool) (i : Nat) (f : Nat → Byte) (k j0 : Nat)
    (hfits : ∀ j < j0 + k, addFits c x rt ra rb i j = true) (s : State)
    (hs : fileByte s.gpr = refAddSub (widthOf c.elwidth) (subLen c.subvl) (tagged rt x.rdest) (tagged ra x.rsrc1)
      (tagged rb x.rsrc2) i j0 f) :
    ∃ t, subLoop clash (addCtx c x rt ra rb) i i k j0 s = .ok t ∧
      fileByte t.gpr = refAddSub (widthOf c.elwidth) (subLen c.subvl) (tagged rt x.rdest) (tagged ra x.rsrc1)
        (tagged rb x.rsrc2) i (j0 + k) f := by
  induction k generalizing j0 s with
  | zero => exact ⟨s, rfl, hs⟩
  | succ k ih =>
    obtain ⟨g, hop, hg⟩ := op_addCtx_bytes c x rt ra rb (hfits j0 (by omega)) (clash j0) s
    rw [subLoop_succ_of_ok hop, ← Nat.add_assoc, Nat.add_right_comm]
    refine ih (j0 + 1) (fun j hj => hfits j (by omega)) (s.setGpr g) ?_
    rw [State.setGpr_gpr, hg, hs, refAddSub]

/-- `Loop1P` of an `add` whose elements lie in the file completes, with the bytes of R119's loop; the mask need be defined
only as far as the loop goes. -/
theorem loop1PFrom_addCtx_bytes {s0 : State} {m : Nat → Bool} (k i : Nat)
    (hmask : ∀ i' < i + k, ((tagged rt x.rdest).1 = true ∨ ∀ n < i', m n = false) →
      predMask s0 c.maskMode c.mask i' = .ok (m i'))
    (hbefore : (tagged rt x.rdest).1 = true ∨ ∀ n < i, m n = false)
    (hfits : ∀ i' < i + k, ∀ j < subLen c.subvl, addFits c x rt ra rb i' j = true) (s : State) :
    ∃ t, loop1PFrom s0 (addCtx c x rt ra rb) k i s = .ok t ∧
      fileByte t.gpr = refAddLoop m (widthOf c.elwidth) (subLen c.subvl) (tagged rt x.rdest) (tagged ra x.rsrc1)
        (tagged rb x.rsrc2) k i (fileByte s.gpr) := by
  induction k generalizing i s with
  | zero => exact ⟨s, rfl, rfl⟩
  | succ k ih =>
    have hm := hmask i (by omega) hbefore
    have hrest := ih (i + 1) (fun i' hi' => hmask i' (by omega))
    cases hmi : m i with
    | false =>
      rw [hmi] at hm
      rw [loop1PFrom_succ_disabled hm, refAddLoop, hmi]
      refine hrest (hbefore.imp_right fun hall n hn => ?_) (fun i' hi' => hfits i' (by omega)) s
      rcases Nat.lt_succ_iff_lt_or_eq.mp hn with hlt | rfl
      · exact hall n hlt
      · exact hmi
    | true =>
      rw [hmi] at hm
      obtain ⟨u, hu, hub⟩ := subLoop_addCtx_bytes c x rt ra rb ((addCtx c x rt ra rb).clash1P s0 i) i (fileByte s.gpr)
        (subLen c.subvl) 0 (fun j hj => hfits i (by omega) j (by omega)) s rfl
      rw [Nat.zero_add] at hub
      rw [refAddLoop, hmi, if_pos rfl, ← hub]
      cases hv : (tagged rt x.rdest).1 with
      | true =>
        rw [loop1PFrom_succ_vector hm hu (by rw [scalarDest_addCtx, hv]; rfl)]
        exact hrest (.inl hv) (fun i' hi' => hfits i' (by omega)) u
      | false => exact ⟨u, loop1PFrom_succ_scalar hm hu (by rw [scalarDest_addCtx, hv]; rfl), rfl⟩

/-! ### The pair -/

theorem addFits_of_operandFits {vl i j : Nat}
    (ht : operandFits (tagged rt x.rdest) vl (subLen c.subvl) (widthOf c.elwidth))
    (ha : operandFits (tagged ra x.rsrc1) vl (subLen c.subvl) (widthOf c.elwidth))
    (hb : operandFits (tagged rb x.rsrc2) vl (subLen c.subvl) (widthOf c.elwidth)) (hi : i < vl)
    (hj : j < subLen c.subvl) : addFits c x rt ra rb i j = true := by
  rw [addFits, elFits_of_operandFits ha hi hj, elFits_of_operandFits hb hi hj, elFits_of_operandFits ht hi hj]
  rfl

/-- The loop of an `add` under an all-zero `RM` at `VL` = 1 is the unprefixed `add` on whole registers (R117, R141). -/
theorem loop1P_addCtx_identity {s : State} (hvl : s.vl = 1) :
    loop1P (addCtx zeroCommon ⟨0#3, 0#3, 0#3⟩ rt ra rb) s = .ok (setGprField s rt (gprField s ra + gprField s rb)) := by
  have hreg : ∀ r : BitVec 5, (tagged r 0#3).2 = r.toNat := extend_zero_toNat
  have hlt : ∀ r : BitVec 5, r.toNat < 128 := fun r => Nat.lt_trans r.isLt (by decide)
  have hread : ∀ r : BitVec 5, elRead s.gpr (tagged r 0#3).2 0 64 = .ok (gprField s r) := fun r => by
    rw [hreg, elRead_whole s.gpr (hlt r), gprField]
  have hwrite : ∀ v, elWrite s.gpr (tagged rt 0#3).2 0 64 v = .ok (writeReg s.gpr rt.toNat v) := fun v => by
    rw [hreg, elWrite_whole s.gpr (hlt rt)]
  have hstep := elementStep_threeGpr (clash := fun _ => false) (sfx := .add rt ra rb) (sv := 1) (x := ⟨0#3, 0#3, 0#3⟩)
    (hread ra) (hread rb) (hwrite _)
  refine (loop1P_one hvl rfl rfl).trans (hstep.trans ?_)
  simp only [elementRaises, elementOp, truncW_64, Bool.false_eq_true, if_false, setGprField]

/-- An `add` pair whose loop completes has that effect, at identity too, and goes on at `pc + 8`. -/
theorem exec_add_pair_of_loop1P {s t : State} (hvl : s.vl ≠ 0) (hmode : c.mode = 0#5) (hew : c.elwidth = c.elwidthSrc)
    (h : loop1P (addCtx c x rt ra rb) s = .ok t) :
    exec (.svRm1p2s1d c x (.add rt ra rb)) s = .next (t.setPc (s.pc + 8#64)) := by
  rw [exec_add_pair c x rt ra rb hvl hmode hew]
  by_cases hid : (c = zeroCommon ∧ x = ⟨0#3, 0#3, 0#3⟩) ∧ s.vl = 1
  · rw [if_pos hid]
    obtain ⟨⟨rfl, rfl⟩, hone⟩ := hid
    rw [loop1P_addCtx_identity rt ra rb hone, Except.ok.injEq] at h
    rw [← h]
    rfl
  · rw [if_neg hid, h, ← (loop1P_regsOnly h).pc]
    rfl

/-- Unsplit, the pair is the split one (R77, R91). -/
theorem exec_sv_add {s : State} (h : s.launch.base.leavesToSubset (encodeSuffix (.add rt ra rb)) = true) :
    exec (.sv (rmOf c x.bits) (encodeSuffix (.add rt ra rb))) s = exec (.svRm1p2s1d c x (.add rt ra rb)) s := by
  have hfits : (Suffix.add rt ra rb).fits s.launch.base .rm1p2s1d = true := by
    have hwf : (Suffix.add rt ra rb).wellFormed s.launch.base = true := h
    rw [Suffix.fits, hwf]
    rfl
  rw [unsplitPairIsTheSplitPair, decodePair_rmOf c x.bits hfits, pairOf, extra1p2s1dOf_bits]

end

/-- Settles O38: the loop over the register file is the loop over its bytes. -/
theorem prefixedAddIsLoop1P : Obligations.PrefixedAddIsLoop1P := by
  intro c x rt ra rb m s hvl hmode hew hmask ht ha hb
  obtain ⟨u, hloop, hbytes⟩ := loop1PFrom_addCtx_bytes c x rt ra rb (s0 := s) (m := m) s.vl 0
    (fun i hi => hmask i (by omega)) (.inr fun n hn => absurd hn (Nat.not_lt_zero n))
    (fun i hi j hj => addFits_of_operandFits c x rt ra rb ht ha hb (by omega) hj) s
  have hpair := exec_add_pair_of_loop1P c x rt ra rb hvl hmode hew hloop
  have hchanges : ChangesWithin (fun _ => True) s u :=
    loop1PFrom_addCtx_changesWithin (fun _ _ _ _ _ _ _ => trivial) hloop
  exact ⟨_, hpair, fun hleft => (exec_sv_add c x rt ra rb hleft).trans hpair, fun k _ => congrFun hbytes k, rfl,
    hchanges.frame (loop1PFrom_regsOnly hloop) _⟩

/-! ### The vector-looped `add` -/

/-- An EXTRA3 value with its upper bit set names a vector (R202). -/
theorem tagged_vector (r : BitVec 5) (l : BitVec 2) : tagged r (1#1 ++ l) = (true, 4 * r.toNat + l.toNat) := by
  have hbit : (1#1 ++ l).getLsbD 2 = true := BitVec.getLsbD_append.trans rfl
  have hlow : (1#1 ++ l).extractLsb' 0 2 = l := BitVec.extractLsb'_append_eq_right
  have hnum : (r ++ l).toNat = 4 * r.toNat + l.toNat := by
    rw [BitVec.toNat_append, ← Nat.shiftLeft_add_eq_or_of_lt l.isLt, Nat.shiftLeft_eq, Nat.mul_comm]
  simp only [tagged, extend, hbit, if_true, hlow, hnum]

/-- With every operand a vector, no predication and no sub-vectors R119's loop is LS009's own (R127). -/
theorem refAddLoop_vector (w rt ra rb : Nat) (f : Nat → Byte) (k i : Nat) :
    refAddLoop (fun _ => true) w 1 (true, rt) (true, ra) (true, rb) k i (refVectorAdd w rt ra rb i f) =
      refVectorAdd w rt ra rb (i + k) f := by
  induction k generalizing i with
  | zero => rfl
  | succ k ih =>
    have hrow : refAddSub w 1 (true, rt) (true, ra) (true, rb) i 1 (refVectorAdd w rt ra rb i f) =
        refVectorAdd w rt ra rb (i + 1) f := by
      simp only [refAddSub, refVectorAdd, refIndex, if_true, Nat.mul_one, Nat.add_zero]
    rw [refAddLoop, if_pos rfl, hrow, ← Nat.add_assoc, Nat.add_right_comm]
    exact ih (i + 1)

/-- Settles O37: at `VL` = 0 neither does anything, else it is `Loop1P` with every operand a vector. -/
theorem vectorAddIsTheLoopOfTheSource : Obligations.VectorAddIsTheLoopOfTheSource := by
  intro rt ra rb lt la lb ew s ht ha hb
  by_cases hvl : s.vl = 0
  · refine ⟨advance s 8, execSvp64_vlZero (by simp [suffixProfile]) (reserved_add _ _ rt ra rb) hvl, fun k _ => ?_, rfl,
      (ChangesWithin.refl (fun _ => True) s).frame (.refl s) _⟩
    rw [hvl]
    rfl
  · have hfits : ∀ n, 8 * n + s.vl * (widthOf ew / 8) ≤ 1024 → operandFits (true, n) s.vl (subLen 0#2) (widthOf ew) := by
      intro n hn
      simpa [operandFits, subLen] using hn
    obtain ⟨t, hpair, -, hbytes, hpc, hframe⟩ := prefixedAddIsLoop1P
      { zeroCommon with elwidth := ew, elwidthSrc := ew } ⟨1#1 ++ lt, 1#1 ++ la, 1#1 ++ lb⟩ rt ra rb (fun _ => true) s
      hvl rfl rfl (fun _ _ _ => rfl) (tagged_vector rt lt ▸ hfits _ ht) (tagged_vector ra la ▸ hfits _ ha)
      (tagged_vector rb lb ▸ hfits _ hb)
    refine ⟨t, hpair, fun k hk => (hbytes k hk).trans ?_, hpc, hframe⟩
    rw [tagged_vector, tagged_vector, tagged_vector]
    have hloop := refAddLoop_vector (widthOf ew) (4 * rt.toNat + lt.toNat) (4 * ra.toNat + la.toNat)
      (4 * rb.toNat + lb.toNat) (fileByte s.gpr) s.vl 0
    rw [Nat.zero_add] at hloop
    exact congrFun hloop k

end Sys2Proof.Machine

/-! ## Element widths and sub-vector lengths (R140, R142, R150) -/

namespace Sys2Proof.Machine

/-- Settles O55: each value of the two fields, evaluated. -/
theorem widthsAndSubVectorLengths : Obligations.WidthsAndSubVectorLengths := by
  unfold Obligations.WidthsAndSubVectorLengths
  decide

end Sys2Proof.Machine

/-! ## A CR-field destination (R146, R209, R211) -/

namespace Sys2Proof.Machine

/-- A CR-field operand's element 0 is the field it names, written at every width (R146, R211). -/
theorem writeEl_operandOf_crField (s : State) (bf : BitVec 3) (v : BitVec 3) (w : Nat) (d : Word) :
    writeEl (fun _ => false) s (operandOf .crField (bf.setWidth 5) v) 0 w d =
      .ok (s.setCr (writeCr s.cr (extendCr bf (.e3 v)).2.toNat (d.setWidth 4))) := by
  have hfield : ∀ bf : BitVec 3, (bf.setWidth 5).extractLsb' 0 3 = bf := by decide
  simp only [operandOf, extendOperand, hfield]
  exact if_pos (extendCr bf (.e3 v)).2.isLt

/-- Settles O47: the one element operation over two GPR sources, written to a CR field. -/
theorem crFieldPairWritesOneFieldAlone : Obligations.CrFieldPairWritesOneFieldAlone := by
  intro mn dw word bf fa fb c x s hvl hmm hm hew hsv hmode
  have hin : ∀ r v, elInFile (tagged r v).2 0 (widthOf c.elwidth) = true := fun r v =>
    elInFile_zero (tagged_lt r v) (widthOf_le _)
  obtain ⟨a, ha⟩ := exists_elRead s.gpr (hin fa x.rsrc1)
  obtain ⟨b, hb⟩ := exists_elRead s.gpr (hin fb x.rsrc2)
  exact ⟨a, b, ha, hb, exec_threeSuffix mn dw word .crField .gpr .gpr (bf.setWidth 5) fa fb hvl hmm hm hew hsv hmode
    (reserved_threeProfile mn dw _ fa fb c x (by decide) (by decide) (by decide)) ha hb
    (writeEl_operandOf_crField s bf x.rdest _ _)⟩

end Sys2Proof.Machine

/-! ## The loop of a prefixed `addi` is twin predication's (R151, R161, R168, R173, R222) -/

namespace Sys2Proof.Machine

/-! ### The steps of `Loop2P` -/

section
variable {m : Nat → Bool} {vl i : Nat}

theorem refSkip_of_enabled (hi : i < vl) (hm : m i = true) : refSkip m vl i = i := by
  have hfind : (List.range vl).find? (fun n => decide (i ≤ n) && m n) = some i := by
    rw [List.find?_range_eq_some]
    refine ⟨by simp [hm], by simpa using hi, fun j hj => ?_⟩
    simp [Nat.not_le.mpr hj]
  rw [refSkip, hfind, Option.getD_some]

theorem refSkip_of_disabled (hm : m i = false) : refSkip m vl i = refSkip m vl (i + 1) := by
  have htest : ∀ n, (decide (i ≤ n) && m n) = (decide (i + 1 ≤ n) && m n) := fun n => by
    by_cases hn : n = i
    · simp [hn, hm]
    · have hiff : i ≤ n ↔ i + 1 ≤ n := by omega
      simp only [hiff]
  simp only [refSkip, htest]

theorem refSkip_end : refSkip m vl vl = vl := by
  have hfind : (List.range vl).find? (fun n => decide (vl ≤ n) && m n) = none := by
    rw [List.find?_range_eq_none]
    intro n hn
    simp [Nat.not_le.mpr hn]
  rw [refSkip, hfind, Option.getD_none]

/-- Skipping over the elements a defined mask disables finds the first it enables (R173). -/
theorem skipMasked_eq_refSkip {mask : Nat → Except Refusal Bool} (hmask : ∀ n < vl, mask n = .ok (m n)) (k : Nat)
    (hk : i + k = vl) : skipMasked mask k i = .ok (refSkip m vl i) := by
  induction k generalizing i with
  | zero => rw [skipMasked, ← hk, Nat.add_zero, refSkip_end]
  | succ k ih =>
    have hi : i < vl := by omega
    cases hm : m i with
    | true => rw [skipMasked, hmask i hi, hm, refSkip_of_enabled hi hm]
    | false =>
      rw [skipMasked, hmask i hi, hm, refSkip_of_disabled hm]
      exact ih (by omega)

end

/-- The step a side of `Loop2P` stands at, under a mask that is defined (R173). -/
def refStep (isVec : Bool) (m : Nat → Bool) (vl i : Nat) : Nat := if isVec then refSkip m vl i else i

theorem nextStep_eq_refStep {mask : Nat → Except Refusal Bool} {m : Nat → Bool} {vl i : Nat}
    (hmask : ∀ n < vl, mask n = .ok (m n)) (hi : i ≤ vl) (isVec : Bool) :
    nextStep isVec mask vl i = .ok (refStep isVec m vl i) := by
  cases isVec with
  | true => exact skipMasked_eq_refSkip hmask (vl - i) (by omega)
  | false => rfl

/-- Whether `Loop2P` ends at source step `i` and destination step `d`: a side has run out, or is a scalar whose one
element is disabled (R173). -/
def Stops2P (ms md : Nat → Bool) (srcVec dstVec : Bool) (vl i d : Nat) : Prop :=
  (vl ≤ i ∨ vl ≤ d) ∨ (srcVec || ms 0) = false ∨ (dstVec || md 0) = false

/-- Both masks of a twin-predicated loop are defined below `VL`, which is not 0. -/
structure TwinMasks (s0 : State) (l : LoopCtx) (ms md : Nat → Bool) : Prop where
  vl : s0.vl ≠ 0
  src : ∀ i < s0.vl, predMask s0 l.maskMode l.maskSrc i = .ok (ms i)
  dst : ∀ i < s0.vl, predMask s0 l.maskMode l.mask i = .ok (md i)

/-- Which CR fields the sub-elements of an operation of `Loop2P` may not write (R171). -/
abbrev LoopCtx.clash2P (l : LoopCtx) (s0 : State) (src dst : ExtOperand) (i d : Nat) : Nat → Nat → Bool := fun j =>
  crClash l.maskMode s0.vl (pending2P src.isVec dst.isVec s0.vl l.sv i d j)

theorem scalarEnabled_eq {mask : Nat → Except Refusal Bool} {m : Nat → Bool} (hmask : mask 0 = .ok (m 0))
    (isVec : Bool) : scalarEnabled isVec mask = .ok (isVec || m 0) := by
  cases isVec <;> simp [scalarEnabled, hmask]

section
variable {s0 s t : State} {l : LoopCtx} {src dst : ExtOperand} {ms md : Nat → Bool} {k i d i1 d1 : Nat}

/-- Where it stops, the loop leaves the state as it is (R173). -/
theorem TwinMasks.loop2PFrom_stop (h : TwinMasks s0 l ms md) (hi : i ≤ s0.vl) (hd : d ≤ s0.vl)
    (hi1 : refStep src.isVec ms s0.vl i = i1) (hd1 : refStep dst.isVec md s0.vl d = d1)
    (hstop : Stops2P ms md src.isVec dst.isVec s0.vl i1 d1) : loop2PFrom s0 l src dst (k + 1) i d s = .ok s := by
  have hpos : 0 < s0.vl := Nat.pos_of_ne_zero h.vl
  simp only [loop2PFrom, nextStep_eq_refStep h.src hi, nextStep_eq_refStep h.dst hd, hi1, hd1,
    scalarEnabled_eq (h.src 0 hpos), scalarEnabled_eq (h.dst 0 hpos)]
  rcases hstop with hout | hsrc | hdst
  · rw [if_pos hout]
  · simp only [hsrc, ite_self]
  · rw [hdst]
    cases src.isVec || ms 0 <;> exact ite_self _

/-- Else it runs one sub-vector, and a vector destination lets it go on past both steps (R173). -/
theorem TwinMasks.loop2PFrom_go (h : TwinMasks s0 l ms md) (hi : i ≤ s0.vl) (hd : d ≤ s0.vl)
    (hi1 : refStep src.isVec ms s0.vl i = i1) (hd1 : refStep dst.isVec md s0.vl d = d1)
    (hgo : ¬ Stops2P ms md src.isVec dst.isVec s0.vl i1 d1)
    (ht : subLoop (l.clash2P s0 src dst i1 d1) l i1 d1 l.sv 0 s = .ok t) :
    loop2PFrom s0 l src dst (k + 1) i d s =
      if dst.isVec then loop2PFrom s0 l src dst k (if src.isVec then i1 + 1 else i1) (d1 + 1) t else .ok t := by
  have hpos : 0 < s0.vl := Nat.pos_of_ne_zero h.vl
  obtain ⟨hin, hon⟩ := not_or.mp hgo
  rw [not_or, Bool.not_eq_false, Bool.not_eq_false] at hon
  obtain ⟨hsrc, hdst⟩ := hon
  simp only [loop2PFrom, nextStep_eq_refStep h.src hi, nextStep_eq_refStep h.dst hd, hi1, hd1, if_neg hin,
    scalarEnabled_eq (h.src 0 hpos), scalarEnabled_eq (h.dst 0 hpos), hsrc, hdst, ht]

end

section
variable {ms md : Nat → Bool} {w sv si vl k i d i1 d1 : Nat} {rt ra : Bool × Nat} {f : Nat → Byte}

theorem refTwinLoop_stop (hi1 : refStep ra.1 ms vl i = i1) (hd1 : refStep rt.1 md vl d = d1)
    (hstop : Stops2P ms md ra.1 rt.1 vl i1 d1) : refTwinLoop ms md w sv rt ra si vl (k + 1) i d f = f := by
  subst hi1 hd1
  rw [Stops2P, Bool.or_eq_false_iff, Bool.or_eq_false_iff] at hstop
  by_cases hout : vl ≤ refStep ra.1 ms vl i ∨ vl ≤ refStep rt.1 md vl d
  · exact if_pos hout
  · exact (if_neg hout).trans (if_pos (hstop.resolve_left hout))

theorem refTwinLoop_go (hi1 : refStep ra.1 ms vl i = i1) (hd1 : refStep rt.1 md vl d = d1)
    (hgo : ¬ Stops2P ms md ra.1 rt.1 vl i1 d1) :
    refTwinLoop ms md w sv rt ra si vl (k + 1) i d f =
      if rt.1 then refTwinLoop ms md w sv rt ra si vl k (if ra.1 then i1 + 1 else i1) (d1 + 1)
        (refTwinSub w sv rt ra si i1 d1 sv f)
      else refTwinSub w sv rt ra si i1 d1 sv f := by
  subst hi1 hd1
  rw [Stops2P, not_or, Bool.or_eq_false_iff, Bool.or_eq_false_iff] at hgo
  exact (if_neg hgo.1).trans (if_neg hgo.2)

end

/-! ### The loop of a prefixed `addi` over bytes -/

/-- The element operation of `addi` wraps at the element width (R222). -/
theorem toNat_elementOp_addi (rt ra : BitVec 5) (si : BitVec 16) {w : Nat} (hw : w ≤ 64) (a : Word) :
    (elementOp (.addi rt ra si) w [a]).1.toNat = (a.toNat + (si.signExtend 64).toNat) % 2 ^ w := by
  simp only [elementOp]
  rw [toNat_truncW hw, BitVec.toNat_add, Nat.mod_mod_of_dvd _ (Nat.pow_dvd_pow 2 hw)]

/-- An element operation of one source and a destination that raises no exception. -/
theorem elementStep_one_source {clash : Nat → Bool} {sfx : Suffix} {oa ot : ExtOperand} {w sv i d j : Nat}
    {s t : State} {a : Word} (ha : readEl s oa (elIndex oa i sv j) w = .ok a)
    (hraise : elementRaises sfx w [a] = false)
    (ht : writeEl clash s ot (elIndex ot d sv j) w (elementOp sfx w [a]).1 = .ok t) :
    elementStep clash sfx [oa] [ot] w sv i d j s = .ok t := by
  simp [elementStep, readEls, writeEls, ha, hraise, ht]

/-- Element 0 of the scalar of a field with a zero slot is the whole register of the field (R202). -/
theorem elRead_tagged_zero (s : State) (r : BitVec 5) : elRead s.gpr (tagged r 0#3).2 0 64 = .ok (gprField s r) := by
  rw [elRead_whole s.gpr (tagged_lt r 0#3), tagged, extend_zero_toNat, gprField]

theorem elWrite_tagged_zero (f : RegFile) (r : BitVec 5) (v : Word) :
    elWrite f (tagged r 0#3).2 0 64 v = .ok (writeReg f r.toNat v) := by
  rw [elWrite_whole f (tagged_lt r 0#3), tagged, extend_zero_toNat]

/-- What the loop of an `addi` pair runs. -/
def addiCtx (c : RmCommon) (x : Extra2p1s1d) (rt ra : BitVec 5) (si : BitVec 16) : LoopCtx :=
  { sfx := .addi rt ra si
    srcs := [gprOperand ra x.rsrc1]
    dsts := [gprOperand rt x.rdest]
    w := widthOf c.elwidth
    sv := subLen c.subvl
    maskMode := c.maskMode
    mask := c.mask
    maskSrc := x.maskSrc }

theorem loopCtx_addi (c : RmCommon) (x : Extra2p1s1d) (rt ra : BitVec 5) (si : BitVec 16) :
    loopCtx c (slots2p1s1d x) (.addi rt ra si) = addiCtx c x rt ra si := rfl

section
variable (c : RmCommon) (x : Extra2p1s1d) (rt ra : BitVec 5) (si : BitVec 16)

/-- `Loop2P` of an `addi` pair (R173). -/
abbrev addiLoop (s : State) : Except Refusal State :=
  loop2P (addiCtx c x rt ra si) (gprOperand ra x.rsrc1) (gprOperand rt x.rdest) s

/-- An element operation of `addi` whose elements lie in the file writes the bytes of the sum (R173, R222). -/
theorem op_addiCtx_bytes {i d j : Nat}
    (hfa : elFits (tagged ra x.rsrc1) i (subLen c.subvl) j (widthOf c.elwidth) = true)
    (hft : elFits (tagged rt x.rdest) d (subLen c.subvl) j (widthOf c.elwidth) = true) (clash : Nat → Bool) (s : State) :
    ∃ g, (addiCtx c x rt ra si).op clash i d j s = .ok (s.setGpr g) ∧
      fileByte g = refWrite (fileByte s.gpr) (tagged rt x.rdest).2
        (refIndex (tagged rt x.rdest).1 d (subLen c.subvl) j) (widthOf c.elwidth)
        ((refElem (fileByte s.gpr) (tagged ra x.rsrc1).2 (refIndex (tagged ra x.rsrc1).1 i (subLen c.subvl) j)
            (widthOf c.elwidth) + (si.signExtend 64).toNat) % 2 ^ widthOf c.elwidth) := by
  have hw := isWidth_widthOf c.elwidth
  obtain ⟨a, ha, hav⟩ := exists_elRead_bytes s.gpr hw hfa
  obtain ⟨g, hg⟩ := exists_elWrite s.gpr (elementOp (.addi rt ra si) (widthOf c.elwidth) [a]).1 hft
  refine ⟨g, elementStep_one_source ha rfl (writeEl_gprOperand hg), funext fun k => ?_⟩
  rw [fileByte_elWrite hw hg k, toNat_elementOp_addi rt ra si hw.le, hav]

/-- A sub-vector whose elements lie in the file completes; its sub-elements continue those done before it (R151). -/
theorem subLoop_addiCtx_bytes (clash : Nat → Nat → Bool) (i d : Nat) (f : Nat → Byte) (k j0 : Nat)
    (ha : ∀ j < j0 + k, elFits (tagged ra x.rsrc1) i (subLen c.subvl) j (widthOf c.elwidth) = true)
    (ht : ∀ j < j0 + k, elFits (tagged rt x.rdest) d (subLen c.subvl) j (widthOf c.elwidth) = true) (s : State)
    (hs : fileByte s.gpr = refTwinSub (widthOf c.elwidth) (subLen c.subvl) (tagged rt x.rdest) (tagged ra x.rsrc1)
      (si.signExtend 64).toNat i d j0 f) :
    ∃ g, subLoop clash (addiCtx c x rt ra si) i d k j0 s = .ok (s.setGpr g) ∧
      fileByte g = refTwinSub (widthOf c.elwidth) (subLen c.subvl) (tagged rt x.rdest) (tagged ra x.rsrc1)
        (si.signExtend 64).toNat i d (j0 + k) f := by
  induction k generalizing j0 s with
  | zero => exact ⟨s.gpr, rfl, hs⟩
  | succ k ih =>
    obtain ⟨g, hop, hg⟩ := op_addiCtx_bytes c x rt ra si (ha j0 (by omega)) (ht j0 (by omega)) (clash j0) s
    rw [subLoop_succ_of_ok hop, ← Nat.add_assoc, Nat.add_right_comm]
    refine ih (j0 + 1) (fun j hj => ha j (by omega)) (fun j hj => ht j (by omega)) (s.setGpr g) ?_
    rw [State.setGpr_gpr, hg, hs, refTwinSub]

/-- `Loop2P` of an `addi` whose operands lie in the file completes under two defined masks: it sets the integer file, to
the bytes of R173's loop. -/
theorem loop2PFrom_addiCtx_bytes {s0 : State} {ms md : Nat → Bool} (hmasks : TwinMasks s0 (addiCtx c x rt ra si) ms md)
    (ht : operandFits (tagged rt x.rdest) s0.vl (subLen c.subvl) (widthOf c.elwidth))
    (ha : operandFits (tagged ra x.rsrc1) s0.vl (subLen c.subvl) (widthOf c.elwidth)) (k i d : Nat) (hi : i ≤ s0.vl)
    (hd : d ≤ s0.vl) (s : State) :
    ∃ g, loop2PFrom s0 (addiCtx c x rt ra si) (gprOperand ra x.rsrc1) (gprOperand rt x.rdest) k i d s =
        .ok (s.setGpr g) ∧
      fileByte g = refTwinLoop ms md (widthOf c.elwidth) (subLen c.subvl) (tagged rt x.rdest) (tagged ra x.rsrc1)
        (si.signExtend 64).toNat s0.vl k i d (fileByte s.gpr) := by
  induction k generalizing i d s with
  | zero => exact ⟨s.gpr, rfl, rfl⟩
  | succ k ih =>
    obtain ⟨i1, hi1⟩ : ∃ i1, refStep (tagged ra x.rsrc1).1 ms s0.vl i = i1 := ⟨_, rfl⟩
    obtain ⟨d1, hd1⟩ : ∃ d1, refStep (tagged rt x.rdest).1 md s0.vl d = d1 := ⟨_, rfl⟩
    by_cases hstop : Stops2P ms md (tagged ra x.rsrc1).1 (tagged rt x.rdest).1 s0.vl i1 d1
    · exact ⟨s.gpr, hmasks.loop2PFrom_stop hi hd hi1 hd1 hstop, by rw [refTwinLoop_stop hi1 hd1 hstop]⟩
    · have hlt : i1 < s0.vl ∧ d1 < s0.vl := by
        rw [Stops2P, not_or, not_or, Nat.not_le, Nat.not_le] at hstop
        exact hstop.1
      obtain ⟨g, hsub, hg⟩ := subLoop_addiCtx_bytes c x rt ra si
        ((addiCtx c x rt ra si).clash2P s0 (gprOperand ra x.rsrc1) (gprOperand rt x.rdest) i1 d1) i1 d1
        (fileByte s.gpr) (subLen c.subvl) 0 (fun j hj => elFits_of_operandFits ha hlt.1 (by omega))
        (fun j hj => elFits_of_operandFits ht hlt.2 (by omega)) s rfl
      rw [Nat.zero_add] at hg
      rw [hmasks.loop2PFrom_go hi hd hi1 hd1 hstop hsub, refTwinLoop_go hi1 hd1 hstop, ← hg]
      cases hv : (tagged rt x.rdest).1 with
      | false => exact ⟨g, if_neg (by simp [gprOperand, hv]), rfl⟩
      | true =>
        obtain ⟨g', hloop, hg'⟩ := ih (if (tagged ra x.rsrc1).1 then i1 + 1 else i1) (d1 + 1) (by split <;> omega)
          (by omega) (s.setGpr g)
        exact ⟨g', (if_pos hv).trans hloop, hg'⟩

/-! ### The pair -/

/-- No value of `RM` is reserved for `addi`: it has no FPR operand, and an operand for every slot (R95). -/
theorem reserved_addi : reserved c (slots2p1s1d x) (suffixProfile (.addi rt ra si)) = false := by
  simp [reserved, reservedBf16, reservedFpSingle, reservedUnused, suffixProfile, slots2p1s1d]

/-- `RM` is all zeros exactly when its common fields, its two slots and MASK_SRC are (R94). -/
theorem rmIsZero_slots2p1s1d : rmIsZero c (slots2p1s1d x) = decide (c = zeroCommon ∧ x = ⟨0#3, 0#3, 0#3⟩) := by
  obtain ⟨mm, m, ew, ews, sv, md⟩ := c
  obtain ⟨d, a, m2⟩ := x
  rw [Bool.eq_iff_iff]
  simp only [rmIsZero, Bool.and_eq_true, decide_eq_true_eq]
  simp [slotsAreZero, slots2p1s1d, ExtraVal.isZero, zeroCommon, and_assoc]

/-- The tests of R114 from MODE on let an `addi` of field RA not 0 through to its loop (R222). -/
theorem execNormal_addi {s : State} (hra : ra ≠ 0#5) (hmode : c.mode = 0#5) (hew : c.elwidth = c.elwidthSrc) :
    execNormal c (slots2p1s1d x) (.addi rt ra si) s = (addiLoop c x rt ra si s).map (advance · 8) := by
  have hrc : (suffixProfile (.addi rt ra si)).rc = false := rfl
  have hadd : isAddiRa0 (.addi rt ra si) = false := decide_eq_false hra
  have hrun : runLoop (addiCtx c x rt ra si) (slots2p1s1d x).fmt s = addiLoop c x rt ra si s := rfl
  simp only [execNormal, hmode, hrc, hew, hadd, loopCtx_addi, hrun, ne_eq, not_true_eq_false, Bool.false_eq_true,
    if_false]
  cases addiLoop c x rt ra si s <;> rfl

/-- An `addi` pair with `VL` > 0 and field RA not 0: the unprefixed `addi` at identity, else `Loop2P` (R114). -/
theorem exec_addi_pair {s : State} (hvl : s.vl ≠ 0) (hra : ra ≠ 0#5) (hmode : c.mode = 0#5)
    (hew : c.elwidth = c.elwidthSrc) :
    exec (.svRm2p1s1d c x (.addi rt ra si)) s =
      outcomeOf (if (c = zeroCommon ∧ x = ⟨0#3, 0#3, 0#3⟩) ∧ s.vl = 1 then identityExec (.addi rt ra si) s
        else (addiLoop c x rt ra si s).map (advance · 8)) := by
  have hact : execActive c (slots2p1s1d x) (.addi rt ra si) s =
      if rmIsZero c (slots2p1s1d x) && decide (s.vl = 1) then identityExec (.addi rt ra si) s
      else execNormal c (slots2p1s1d x) (.addi rt ra si) s := rfl
  simp only [rmIsZero_slots2p1s1d, execNormal_addi c x rt ra si hra hmode hew, Bool.and_eq_true,
    decide_eq_true_eq] at hact
  have hfmt : (suffixProfile (.addi rt ra si)).rmFormat ≠ none := by simp [suffixProfile]
  simp only [exec, execSvRm2p1s1d, execSvp64, if_neg hfmt, reserved_addi, if_neg hvl, hact, Bool.false_eq_true, if_false]

/-- `Loop2P` of an `addi` under an all-zero `RM` at `VL` = 1 is the unprefixed `addi` on whole registers (R117, R141). -/
theorem addiLoop_identity {s : State} (hvl : s.vl = 1) :
    addiLoop zeroCommon ⟨0#3, 0#3, 0#3⟩ rt ra si s = .ok (setGprField s rt (gprField s ra + si.signExtend 64)) := by
  have hmasks : TwinMasks s (addiCtx zeroCommon ⟨0#3, 0#3, 0#3⟩ rt ra si) (fun _ => true) (fun _ => true) :=
    ⟨by omega, fun _ _ => rfl, fun _ _ => rfl⟩
  have hgo : ¬ Stops2P (fun _ => true) (fun _ => true) false false s.vl 0 0 := by simp [Stops2P, hvl]
  have hval : (elementOp (.addi rt ra si) 64 [gprField s ra]).1 = gprField s ra + si.signExtend 64 := truncW_64 _
  have hstep : (addiCtx zeroCommon ⟨0#3, 0#3, 0#3⟩ rt ra si).op (fun _ => false) 0 0 0 s =
      .ok (setGprField s rt (gprField s ra + si.signExtend 64)) := by
    rw [← hval]
    exact elementStep_one_source (elRead_tagged_zero s ra) rfl (writeEl_gprOperand (elWrite_tagged_zero s.gpr rt _))
  rw [addiLoop, loop2P, hvl]
  exact hmasks.loop2PFrom_go (Nat.zero_le _) (Nat.zero_le _) rfl rfl hgo ((subLoop_one _ _ 0 0 0 s).trans hstep)

/-- An `addi` pair whose loop completes has that effect, at identity too, and goes on at `pc + 8`. -/
theorem exec_addi_pair_of_loop2P {s t : State} (hvl : s.vl ≠ 0) (hra : ra ≠ 0#5) (hmode : c.mode = 0#5)
    (hew : c.elwidth = c.elwidthSrc) (h : addiLoop c x rt ra si s = .ok t) :
    exec (.svRm2p1s1d c x (.addi rt ra si)) s = .next (t.setPc (s.pc + 8#64)) := by
  rw [exec_addi_pair c x rt ra si hvl hra hmode hew]
  by_cases hid : (c = zeroCommon ∧ x = ⟨0#3, 0#3, 0#3⟩) ∧ s.vl = 1
  · rw [if_pos hid]
    obtain ⟨⟨rfl, rfl⟩, hone⟩ := hid
    rw [addiLoop_identity rt ra si hone, Except.ok.injEq] at h
    rw [← h, identityExec, baseExec, baseAddi, gprOrZero, if_neg hra]
    rfl
  · rw [if_neg hid, h, ← (loop2P_regsOnly h).pc]
    rfl

end

/-- Unsplit, a pair of a well-formed suffix is the pair of the suffix's format (R77, R91). -/
theorem exec_sv_rmOf {f : RmFormat} {sfx : Suffix} {s : State} (c : RmCommon) (e : BitVec 9)
    (h : sfx.fits s.launch.base f = true) :
    exec (.sv (rmOf c e) (encodeSuffix sfx)) s = exec (pairOf f c e sfx) s := by
  rw [unsplitPairIsTheSplitPair, decodePair_rmOf c e h]

theorem exec_sv_addi (c : RmCommon) (x : Extra2p1s1d) (rt ra : BitVec 5) (si : BitVec 16) {s : State}
    (h : s.launch.base.leavesToSubset (encodeSuffix (.addi rt ra si)) = true) :
    exec (.sv (rmOf c x.bits) (encodeSuffix (.addi rt ra si))) s = exec (.svRm2p1s1d c x (.addi rt ra si)) s := by
  have hfits : (Suffix.addi rt ra si).fits s.launch.base .rm2p1s1d = true :=
    Bool.and_eq_true_iff.mpr ⟨h, rfl⟩
  rw [exec_sv_rmOf c x.bits hfits, pairOf, extra2p1s1dOf_bits]

/-- A state with another integer file: the frame. -/
theorem setGpr_frame (s : State) (g : RegFile) : Frame (fun _ => True) nowhere nowhere nowhere s (s.setGpr g) where
  gpr _ hn := absurd trivial hn
  fpr _ _ := rfl
  cr _ _ := rfl
  mem _ _ := rfl
  stored _ := (iff_of_eq (or_false _)).symm
  vl := rfl
  le := rfl
  launch := rfl

/-- Settles O42: each operation of the loop over the register file is that of the loop over its bytes. -/
theorem prefixedAddiIsLoop2P : Obligations.PrefixedAddiIsLoop2P := by
  intro c x rt ra si ms md s hvl hra hmode hew hmask ht ha
  have hmasks : TwinMasks s (addiCtx c x rt ra si) ms md := ⟨hvl, fun i hi => (hmask i hi).1, fun i hi => (hmask i hi).2⟩
  obtain ⟨g, hloop, hbytes⟩ :=
    loop2PFrom_addiCtx_bytes c x rt ra si hmasks ht ha s.vl 0 0 (Nat.zero_le _) (Nat.zero_le _) s
  have hpair := exec_addi_pair_of_loop2P c x rt ra si hvl hra hmode hew hloop
  exact ⟨_, hpair, fun hleft => (exec_sv_addi c x rt ra si hleft).trans hpair, fun k _ => congrFun hbytes k, rfl,
    (setGpr_frame s g).setPc _⟩

end Sys2Proof.Machine

/-! ## Integer predicates (R162 to R165) -/

namespace Sys2Proof.Machine

/-- Bit `i` of a register as R162's rows write it: the register and `1 << i` have a bit in common. -/
theorem getLsbD_eq_decide_and (r : Word) (i : Nat) : r.getLsbD i = decide (r.toNat &&& (1 <<< i) ≠ 0) := by
  rw [Nat.one_shiftLeft, Nat.and_two_pow, BitVec.testBit_toNat]
  cases r.getLsbD i <;> simp

theorem intPredBit_eq {i : Nat} (hi : i < 64) (r : Word) :
    intPredBit r i = .ok (decide (r.toNat &&& (1 <<< i) ≠ 0)) := by
  rw [intPredBit, if_pos hi, getLsbD_eq_decide_and]

/-- The complement of a register enables where its bit is 0. -/
theorem intPredBit_not_eq {i : Nat} (hi : i < 64) (r : Word) :
    intPredBit (~~~r) i = .ok (decide (r.toNat &&& (1 <<< i) = 0)) := by
  have hbit : (~~~r).getLsbD i = !r.getLsbD i := by simp [hi]
  rw [intPredBit, if_pos hi, hbit, getLsbD_eq_decide_and, decide_not, Bool.not_not]

theorem intPredBit_beyond {i : Nat} (hi : 64 ≤ i) (r : Word) : intPredBit r i = .error .intPredicateBeyond63 :=
  if_neg (Nat.not_lt.mpr hi)

/-- Row 001 of R162, for every element (R164, D24). -/
theorem predMask_oneShiftR3 (s : State) (i : Nat) :
    predMask s false 1#3 i = .ok (decide (i = (readReg s.gpr 3).toNat)) := by
  show Except.ok (decide ((readReg s.gpr 3).toNat = i)) = _
  simp only [eq_comm]

/-- From row 010 of R162 on an integer predicate is bit `i` of some register value. -/
theorem predMask_eq_intPredBit (s : State) {m : BitVec 3} (hm : 2 ≤ m.toNat) :
    ∃ r, ∀ i, predMask s false m i = intPredBit r i := by
  have hrow : ∀ i, predMask s false m i = intPred s m i := fun _ => rfl
  simp only [hrow, intPred]
  split
  · omega
  · omega
  all_goals exact ⟨_, fun _ => rfl⟩

/-- CR field `32 + i` does not exist from element 96 on (R167). -/
theorem predMask_cr_beyond (s : State) (m : BitVec 3) {i : Nat} (hi : 96 ≤ i) :
    predMask s true m i = .error .elementPastEnd := by
  have hpast : ¬ Config.crPredOffs + i < Config.nreg := by
    simp only [Config.crPredOffs, Config.nreg]
    omega
  rw [predMask, if_pos rfl, crPred, if_neg hpast]

/-- Settles O52: rows 010 on are the bit of their register, or of its complement. -/
theorem integerPredicatesAreTheTable : Obligations.IntegerPredicatesAreTheTable := fun s i hi =>
  ⟨rfl, predMask_oneShiftR3 s i, intPredBit_eq hi _, intPredBit_not_eq hi _, intPredBit_eq hi _,
    intPredBit_not_eq hi _, intPredBit_eq hi _, intPredBit_not_eq hi _⟩

/-- Settles O54: from row 010 on, the test of a register's bit, past bit 63. -/
theorem predicatesBeyondTheirRegisters : Obligations.PredicatesBeyondTheirRegisters := by
  intro s m i
  refine ⟨rfl, predMask_oneShiftR3 s i, fun hm hi => ?_, predMask_cr_beyond s m⟩
  obtain ⟨r, hr⟩ := predMask_eq_intPredBit s hm
  rw [hr, intPredBit_beyond hi]

end Sys2Proof.Machine

/-! ## The vector-looped `addi` (R173, R222) -/

namespace Sys2Proof.Machine

/-- With both operands vectors, no predication and no sub-vectors, R173's loop is the element-by-element one. -/
theorem refTwinLoop_vector {vl : Nat} (w rt ra si : Nat) (f : Nat → Byte) (k i : Nat) (hk : i + k = vl) :
    refTwinLoop (fun _ => true) (fun _ => true) w 1 (true, rt) (true, ra) si vl k i i (refVectorAddi w rt ra si i f) =
      refVectorAddi w rt ra si vl f := by
  induction k generalizing i with
  | zero =>
    subst hk
    rfl
  | succ k ih =>
    have hi : i < vl := by omega
    have hrow : refTwinSub w 1 (true, rt) (true, ra) si i i 1 (refVectorAddi w rt ra si i f) =
        refVectorAddi w rt ra si (i + 1) f := by
      simp only [refTwinSub, refVectorAddi, refIndex, if_true, Nat.mul_one, Nat.add_zero]
    have hstep : refStep true (fun _ => true) vl i = i := refSkip_of_enabled hi rfl
    rw [refTwinLoop_go hstep hstep (by simp [Stops2P, hi]), if_pos rfl, if_pos rfl, hrow]
    exact ih (i + 1) (by omega)

/-- At `VL` = 0 an `addi` pair goes on at `pc + 8` and does nothing else (R116). -/
theorem exec_addi_pair_vlZero (c : RmCommon) (x : Extra2p1s1d) (rt ra : BitVec 5) (si : BitVec 16) {s : State}
    (hvl : s.vl = 0) : exec (.svRm2p1s1d c x (.addi rt ra si)) s = .next (advance s 8) :=
  execSvp64_vlZero (by simp [suffixProfile]) (reserved_addi c x rt ra si) hvl

/-- Settles O43: at `VL` = 0 neither does anything, else it is `Loop2P` with both operands vectors. -/
theorem vectorAddiAddsElementByElement : Obligations.VectorAddiAddsElementByElement := by
  intro rt ra si lt la ew s hra ht ha
  by_cases hvl : s.vl = 0
  · refine ⟨advance s 8, exec_addi_pair_vlZero _ _ rt ra si hvl, fun k _ => ?_, rfl, (setGpr_frame s s.gpr).setPc _⟩
    rw [hvl]
    rfl
  · have hfits : ∀ (r : BitVec 5) (l : BitVec 2), 8 * (4 * r.toNat + l.toNat) + s.vl * (widthOf ew / 8) ≤ 1024 →
        operandFits (tagged r (1#1 ++ l)) s.vl (subLen 0#2) (widthOf ew) := by
      intro r l h
      rw [tagged_vector]
      simpa [operandFits, subLen] using h
    obtain ⟨t, hpair, -, hbytes, hpc, hframe⟩ := prefixedAddiIsLoop2P
      { zeroCommon with elwidth := ew, elwidthSrc := ew } ⟨1#1 ++ lt, 1#1 ++ la, 0#3⟩ rt ra si (fun _ => true)
      (fun _ => true) s hvl hra rfl rfl (fun _ _ => ⟨rfl, rfl⟩) (hfits rt lt ht) (hfits ra la ha)
    refine ⟨t, hpair, fun k hk => (hbytes k hk).trans ?_, hpc, hframe⟩
    rw [tagged_vector, tagged_vector]
    exact congrFun (refTwinLoop_vector _ _ _ _ (fileByte s.gpr) s.vl 0 (Nat.zero_add s.vl)) k

end Sys2Proof.Machine

/-! ## Twin predication packs (R168, R173) -/

namespace Sys2Proof.Machine

/-! ### Elements of 64 bits -/

/-- Element `e` of 64 bits from a register on is the `e`-th register after it (R24). -/
theorem elInFile_64 (n e : Nat) : elInFile n e 64 = elInFile (n + e) 0 64 := by
  simp only [elInFile]
  congr 2
  omega

theorem elRead_64 (f : RegFile) {n e : Nat} (h : n + e < 128) : elRead f n e 64 = .ok (readReg f (n + e)) := by
  rw [← elRead_whole f h]
  simp [elRead, elInFile_64 n e, elReg, elBit]

theorem elWrite_64 (f : RegFile) {n e : Nat} (h : n + e < 128) (v : Word) :
    elWrite f n e 64 v = .ok (writeReg f (n + e) v) := by
  rw [← elWrite_whole f h]
  simp [elWrite, elInFile_64 n e, elReg, elBit]

/-! ### The steps a source mask enables -/

/-- The steps from `i` on, below `vl`, that a mask enables, in order. -/
def enabledFrom (m : Nat → Bool) (vl i : Nat) : List Nat := (List.range' i (vl - i)).filter m

section
variable {m : Nat → Bool} {vl i : Nat}

theorem enabledFrom_zero : enabledFrom m vl 0 = (List.range vl).filter m := by
  rw [enabledFrom, Nat.sub_zero, List.range_eq_range']

theorem enabledFrom_of_lt (hi : i < vl) :
    enabledFrom m vl i = if m i then i :: enabledFrom m vl (i + 1) else enabledFrom m vl (i + 1) := by
  have hlen : vl - i = vl - (i + 1) + 1 := by omega
  rw [enabledFrom, hlen, List.range'_succ, List.filter_cons, enabledFrom]

theorem enabledFrom_end : enabledFrom m vl vl = [] := by
  rw [enabledFrom, Nat.sub_self]
  rfl

/-- `Loop2P` skips to the first enabled step, or to the end where there is none (R173). -/
theorem refSkip_enabledFrom (k : Nat) (hk : i + k = vl) :
    (refSkip m vl i = vl ∧ enabledFrom m vl i = []) ∨
      (i ≤ refSkip m vl i ∧ refSkip m vl i < vl ∧
        enabledFrom m vl i = refSkip m vl i :: enabledFrom m vl (refSkip m vl i + 1)) := by
  induction k generalizing i with
  | zero =>
    subst hk
    exact .inl ⟨refSkip_end, enabledFrom_end⟩
  | succ k ih =>
    have hi : i < vl := by omega
    cases hm : m i with
    | true =>
      rw [refSkip_of_enabled hi hm, enabledFrom_of_lt hi, hm, if_pos rfl]
      exact .inr ⟨Nat.le_refl i, hi, rfl⟩
    | false =>
      rw [refSkip_of_disabled hm, enabledFrom_of_lt hi, hm, if_neg Bool.false_ne_true]
      exact (ih (by omega)).imp_right fun ⟨hle, hrest⟩ => ⟨by omega, hrest⟩

end

/-! ### Packing registers -/

/-- Registers `ra + i`, for the `i` of a list in order, plus a value, written to `rt + d` and the registers after it. -/
def packRegs (rt ra : Nat) (v : Word) : List Nat → Nat → RegFile → RegFile
  | [], _, f => f
  | i :: is, d, f => packRegs rt ra v is (d + 1) (writeReg f (rt + d) (readReg f (ra + i) + v))

section
variable {rt ra d n k : Nat} {v : Word} {is : List Nat}

/-- A register past either end of those packed into keeps its value. -/
theorem readReg_packRegs_outside (f : RegFile) (hn : n < rt + d ∨ rt + d + is.length ≤ n) :
    readReg (packRegs rt ra v is d f) n = readReg f n := by
  induction is generalizing d f with
  | nil => rfl
  | cons i is ih =>
    rw [List.length_cons] at hn
    rw [packRegs, ih _ (by omega), readReg_writeReg, if_neg (by omega)]

/-- Where no source is packed into, the `k`-th register packed into takes the `k`-th source of the file before. -/
theorem readReg_packRegs (f : RegFile) (hfit : rt + d + is.length ≤ 128)
    (hsrc : ∀ i ∈ is, ra + i < rt + d ∨ rt + d + is.length ≤ ra + i) (hk : k < is.length) :
    readReg (packRegs rt ra v is d f) (rt + d + k) = readReg f (ra + is[k]) + v := by
  induction is generalizing d k f with
  | nil => exact absurd hk (Nat.not_lt_zero k)
  | cons i is ih =>
    rw [List.length_cons] at hfit hk hsrc
    rw [packRegs]
    cases k with
    | zero =>
      rw [readReg_packRegs_outside _ (by omega), readReg_writeReg, if_pos (by omega)]
      rfl
    | succ k =>
      have hlast := hsrc is[k] (List.mem_cons_of_mem i (List.getElem_mem _))
      have hrest := ih (d := d + 1) (k := k) (writeReg f (rt + d) (readReg f (ra + i) + v)) (by omega)
        (fun i' hi' => by have := hsrc i' (List.mem_cons_of_mem i hi'); omega) (by omega)
      rw [readReg_writeReg, if_neg (by omega)] at hrest
      rw [List.getElem_cons_succ, ← hrest]
      congr 1
      omega

end

/-! ### The loop -/

section
variable (rt ra : BitVec 5) (si : BitVec 16) (lt la : BitVec 2) (m : BitVec 3)

/-- What the loop of a 64-bit `addi` of two vectors runs, under a source mask alone. -/
abbrev packCtx : LoopCtx := addiCtx zeroCommon ⟨1#1 ++ lt, 1#1 ++ la, m⟩ rt ra si

/-- One operation of it adds the immediate to a whole register (R173, R222). -/
theorem op_packCtx {i d : Nat} (hi : 4 * ra.toNat + la.toNat + i < 128) (hd : 4 * rt.toNat + lt.toNat + d < 128)
    (clash : Nat → Bool) (s : State) :
    (packCtx rt ra si lt la m).op clash i d 0 s =
      .ok (s.setGpr (writeReg s.gpr (4 * rt.toNat + lt.toNat + d)
        (readReg s.gpr (4 * ra.toNat + la.toNat + i) + si.signExtend 64))) := by
  have hindex : ∀ (r : BitVec 5) (l : BitVec 2) (n : Nat), elIndex (gprOperand r (1#1 ++ l)) n 1 0 = n := fun r l n => by
    rw [elIndex_gprOperand, tagged_vector]
    exact Nat.mul_one n
  have hval : (elementOp (.addi rt ra si) 64 [readReg s.gpr (4 * ra.toNat + la.toNat + i)]).1 =
      readReg s.gpr (4 * ra.toNat + la.toNat + i) + si.signExtend 64 := truncW_64 _
  have hread : readEl s (gprOperand ra (1#1 ++ la)) (elIndex (gprOperand ra (1#1 ++ la)) i 1 0) 64 =
      .ok (readReg s.gpr (4 * ra.toNat + la.toNat + i)) := by
    rw [hindex, readEl_gprOperand, tagged_vector, elRead_64 s.gpr hi]
  have hwrite : ∀ v, writeEl clash s (gprOperand rt (1#1 ++ lt)) (elIndex (gprOperand rt (1#1 ++ lt)) d 1 0) 64 v =
      .ok (s.setGpr (writeReg s.gpr (4 * rt.toNat + lt.toNat + d) v)) := fun v =>
    writeEl_gprOperand (by rw [hindex, tagged_vector, elWrite_64 s.gpr hd])
  rw [← hval]
  exact elementStep_one_source hread rfl (hwrite _)

/-- `Loop2P` packs: with no destination mask its destination steps are consecutive, while its source steps are those the
source mask enables (R173). The destination never gets ahead of the source. -/
theorem loop2PFrom_packCtx {s0 : State} {en : Nat → Bool}
    (hmasks : TwinMasks s0 (packCtx rt ra si lt la m) en (fun _ => true))
    (ht : 4 * rt.toNat + lt.toNat + s0.vl ≤ 128) (ha : 4 * ra.toNat + la.toNat + s0.vl ≤ 128) (k i d : Nat)
    (hi : i ≤ s0.vl) (hk : s0.vl ≤ i + k) (hdi : d ≤ i) (s : State) :
    loop2PFrom s0 (packCtx rt ra si lt la m) (gprOperand ra (1#1 ++ la)) (gprOperand rt (1#1 ++ lt)) k i d s =
      .ok (s.setGpr (packRegs (4 * rt.toNat + lt.toNat) (4 * ra.toNat + la.toNat) (si.signExtend 64)
        (enabledFrom en s0.vl i) d s.gpr)) := by
  have hvec : ∀ r l, (gprOperand r (1#1 ++ l)).isVec = true := fun r l => congrArg Prod.fst (tagged_vector r l)
  induction k generalizing i d s with
  | zero =>
    obtain rfl : i = s0.vl := by omega
    rw [enabledFrom_end]
    rfl
  | succ k ih =>
    obtain ⟨i1, hi1⟩ : ∃ i1, refStep (gprOperand ra (1#1 ++ la)).isVec en s0.vl i = i1 := ⟨_, rfl⟩
    obtain ⟨d1, hd1⟩ : ∃ d1, refStep (gprOperand rt (1#1 ++ lt)).isVec (fun _ => true) s0.vl d = d1 := ⟨_, rfl⟩
    have hskip : refSkip en s0.vl i = i1 := by rw [← hi1, hvec]; rfl
    rcases refSkip_enabledFrom (m := en) (s0.vl - i) (Nat.add_sub_cancel' hi) with ⟨hend, hnil⟩ | ⟨hle, hlt, hcons⟩
    · rw [hskip] at hend
      rw [hmasks.loop2PFrom_stop hi (hdi.trans hi) hi1 hd1 (.inl (.inl hend.ge)), hnil]
      rfl
    · rw [hskip] at hle hlt hcons
      obtain rfl : d = d1 := by
        rw [← hd1, hvec]
        exact (refSkip_of_enabled (by omega) rfl).symm
      have hgo : ¬ Stops2P en (fun _ => true) (gprOperand ra (1#1 ++ la)).isVec (gprOperand rt (1#1 ++ lt)).isVec
          s0.vl i1 d := by
        rw [hvec, hvec]
        exact not_or.mpr ⟨by omega, by simp⟩
      have hop := op_packCtx rt ra si lt la m (i := i1) (d := d) (by omega) (by omega)
      rw [hmasks.loop2PFrom_go hi (hdi.trans hi) hi1 hd1 hgo ((subLoop_one _ _ i1 d 0 s).trans (hop _ s)), hvec, hvec,
        if_pos rfl, if_pos rfl, ih (i1 + 1) (d + 1) (by omega) (by omega) (by omega), hcons]
      rfl

/-- The pair packs, at `VL` = 0 too, where there is nothing to pack. -/
theorem exec_addi_pack {en : Nat → Bool} {s : State} (hra : ra ≠ 0#5) (ht : 4 * rt.toNat + lt.toNat + s.vl ≤ 128)
    (ha : 4 * ra.toNat + la.toNat + s.vl ≤ 128) (hmask : ∀ i < s.vl, predMask s false m i = .ok (en i)) :
    exec (.svRm2p1s1d zeroCommon ⟨1#1 ++ lt, 1#1 ++ la, m⟩ (.addi rt ra si)) s =
      .next ((s.setGpr (packRegs (4 * rt.toNat + lt.toNat) (4 * ra.toNat + la.toNat) (si.signExtend 64)
        ((List.range s.vl).filter en) 0 s.gpr)).setPc (s.pc + 8#64)) := by
  by_cases hvl : s.vl = 0
  · rw [exec_addi_pair_vlZero _ _ rt ra si hvl, hvl]
    rfl
  · rw [← enabledFrom_zero]
    exact exec_addi_pair_of_loop2P _ _ rt ra si hvl hra rfl rfl
      (loop2PFrom_packCtx rt ra si lt la m ⟨hvl, hmask, fun _ _ => rfl⟩ ht ha s.vl 0 0 (Nat.zero_le _)
        (Nat.zero_add s.vl).ge (Nat.le_refl 0) s)

end

/-- Settles O44: no source lies among the registers packed into, so each is read as it was before the loop. -/
theorem sourceMaskPacksTheDestination : Obligations.SourceMaskPacksTheDestination := by
  intro rt ra si lt la m en s hra ht ha hdisj hmask
  have hlen : ((List.range s.vl).filter en).length ≤ s.vl :=
    (List.length_filter_le en _).trans (List.length_range ..).le
  refine ⟨_, exec_addi_pack rt ra si lt la m hra ht ha hmask, fun k hk => ?_, rfl, Frame.setPc ?_ _⟩
  · refine readReg_packRegs (d := 0) s.gpr (by omega) (fun i hi => ?_) hk
    have hivl : i < s.vl := List.mem_range.mp (List.mem_of_mem_filter hi)
    omega
  · exact { setGpr_frame s _ with gpr := fun n hn => readReg_packRegs_outside (d := 0) s.gpr (by omega) }

end Sys2Proof.Machine

/-! ## Register-number extension (R202 to R204, R209 to R211) -/

namespace Sys2Proof.Machine

/-- The value of a number put together from two fields. -/
theorem toNat_append_eq_mul_add {m n : Nat} (x : BitVec m) (y : BitVec n) :
    (x ++ y).toNat = 2 ^ n * x.toNat + y.toNat := by
  rw [BitVec.toNat_append, ← Nat.shiftLeft_add_eq_or_of_lt y.isLt, Nat.shiftLeft_eq, Nat.mul_comm]

theorem toNat_append_append {m n p : Nat} (x : BitVec m) (y : BitVec n) (z : BitVec p) :
    (x ++ y ++ z).toNat = 2 ^ p * (2 ^ n * x.toNat + y.toNat) + z.toNat := by
  rw [toNat_append_eq_mul_add, toNat_append_eq_mul_add]

/-- The top bit of an EXTRA3 or EXTRA2 value is its tag (R202, R204). -/
theorem getLsbD_tag {k : Nat} (t : BitVec 1) (l : BitVec k) : (t ++ l).getLsbD k = t.getLsbD 0 := by
  rw [BitVec.getLsbD_append, if_neg (Nat.lt_irrefl k), Nat.sub_self]

/-! ### GPR and FPR numbers -/

section
variable (ra : BitVec 5) (t : BitVec 1) (l : BitVec 2) (b : BitVec 1)

/-- EXTRA3's lower two bits stand below a vector's field and above a scalar's (R202, R206). -/
theorem extend_e3_tag : extend ra (.e3 (t ++ l)) = if t.getLsbD 0 then (true, ra ++ l) else (false, l ++ ra) := by
  have hbit : (t ++ l).getLsbD 2 = t.getLsbD 0 := getLsbD_tag t l
  have hlow : (t ++ l).extractLsb' 0 2 = l := BitVec.extractLsb'_append_eq_right
  simp only [extend, hbit, hlow]

/-- EXTRA2's lower bit stands below a vector's field, above a zero, and above a scalar's (R204, R206). -/
theorem extend_e2_tag :
    extend ra (.e2 (t ++ b)) = if t.getLsbD 0 then (true, ra ++ b ++ 0#1) else (false, 0#1 ++ b ++ ra) := by
  have hbit : (t ++ b).getLsbD 1 = t.getLsbD 0 := getLsbD_tag t b
  have hlow : (t ++ b).extractLsb' 0 1 = b := BitVec.extractLsb'_append_eq_right
  simp only [extend, hbit, hlow]

theorem extend_e3_scalar_row :
    (extend ra (.e3 (0#1 ++ l))).1 = false ∧ (extend ra (.e3 (0#1 ++ l))).2.toNat = 32 * l.toNat + ra.toNat := by
  rw [extend_e3_tag]
  exact ⟨rfl, toNat_append_eq_mul_add l ra⟩

theorem extend_e3_vector_row :
    (extend ra (.e3 (1#1 ++ l))).1 = true ∧ (extend ra (.e3 (1#1 ++ l))).2.toNat = 4 * ra.toNat + l.toNat :=
  ⟨congrArg Prod.fst (tagged_vector ra l), congrArg Prod.snd (tagged_vector ra l)⟩

theorem extend_e2_scalar_row :
    (extend ra (.e2 (0#1 ++ b))).1 = false ∧ (extend ra (.e2 (0#1 ++ b))).2.toNat = 32 * b.toNat + ra.toNat := by
  rw [extend_e2_tag]
  exact ⟨rfl, (toNat_append_append 0#1 b ra).trans (by bv_omega)⟩

theorem extend_e2_vector_row :
    (extend ra (.e2 (1#1 ++ b))).1 = true ∧ (extend ra (.e2 (1#1 ++ b))).2.toNat = 4 * ra.toNat + 2 * b.toNat := by
  rw [extend_e2_tag]
  exact ⟨rfl, (toNat_append_append ra b 0#1).trans (by bv_omega)⟩

end

/-- Settles O9: the rows of a tag are one formula in the bits below it. -/
theorem extendGivesEveryTableRow : Obligations.ExtendGivesEveryTableRow := fun ra =>
  ⟨⟨rfl, extend_zero_toNat ra⟩, extend_e3_scalar_row ra 1#2, extend_e3_scalar_row ra 2#2, extend_e3_scalar_row ra 3#2,
    extend_e3_vector_row ra 0#2, extend_e3_vector_row ra 1#2, extend_e3_vector_row ra 2#2, extend_e3_vector_row ra 3#2,
    ⟨rfl, (extend_e2_scalar_row ra 0#1).2.trans (Nat.zero_add _)⟩, extend_e2_scalar_row ra 1#1,
    extend_e2_vector_row ra 0#1, extend_e2_vector_row ra 1#1⟩

/-! ### CR fields and CR bits -/

section
variable (bf : BitVec 3) (t : BitVec 1) (l : BitVec 2) (b : BitVec 1)

/-- EXTRA3's lower two bits stand below a vector's field, above two zeros, and above a scalar's (R209, R211). -/
theorem extendCr_e3_tag :
    extendCr bf (.e3 (t ++ l)) = if t.getLsbD 0 then (true, bf ++ l ++ 0#2) else (false, 0#2 ++ l ++ bf) := by
  have hbit : (t ++ l).getLsbD 2 = t.getLsbD 0 := getLsbD_tag t l
  have hlow : (t ++ l).extractLsb' 0 2 = l := BitVec.extractLsb'_append_eq_right
  simp only [extendCr, hbit, hlow]

/-- EXTRA2's lower bit stands below a vector's field, above three zeros, and above a scalar's (R210, R211). -/
theorem extendCr_e2_tag :
    extendCr bf (.e2 (t ++ b)) = if t.getLsbD 0 then (true, bf ++ b ++ 0#3) else (false, 0#3 ++ b ++ bf) := by
  have hbit : (t ++ b).getLsbD 1 = t.getLsbD 0 := getLsbD_tag t b
  have hlow : (t ++ b).extractLsb' 0 1 = b := BitVec.extractLsb'_append_eq_right
  simp only [extendCr, hbit, hlow]

theorem extendCr_e3_scalar_row :
    (extendCr bf (.e3 (0#1 ++ l))).1 = false ∧ (extendCr bf (.e3 (0#1 ++ l))).2.toNat = 8 * l.toNat + bf.toNat := by
  rw [extendCr_e3_tag]
  exact ⟨rfl, (toNat_append_append 0#2 l bf).trans (by bv_omega)⟩

theorem extendCr_e3_vector_row :
    (extendCr bf (.e3 (1#1 ++ l))).1 = true ∧ (extendCr bf (.e3 (1#1 ++ l))).2.toNat = 16 * bf.toNat + 4 * l.toNat := by
  rw [extendCr_e3_tag]
  exact ⟨rfl, (toNat_append_append bf l 0#2).trans (by bv_omega)⟩

theorem extendCr_e2_scalar_row :
    (extendCr bf (.e2 (0#1 ++ b))).1 = false ∧ (extendCr bf (.e2 (0#1 ++ b))).2.toNat = 8 * b.toNat + bf.toNat := by
  rw [extendCr_e2_tag]
  exact ⟨rfl, (toNat_append_append 0#3 b bf).trans (by bv_omega)⟩

theorem extendCr_e2_vector_row :
    (extendCr bf (.e2 (1#1 ++ b))).1 = true ∧ (extendCr bf (.e2 (1#1 ++ b))).2.toNat = 16 * bf.toNat + 8 * b.toNat := by
  rw [extendCr_e2_tag]
  exact ⟨rfl, (toNat_append_append bf b 0#3).trans (by bv_omega)⟩

end

/-- Settles O10: the rows of a tag are one formula in the bits below it; a CR bit is its field extended, and a bit kept. -/
theorem extendCrGivesEveryTableRow : Obligations.ExtendCrGivesEveryTableRow := by
  refine ⟨fun bf => ?_, fun ba x => ⟨rfl, rfl, rfl⟩⟩
  exact ⟨⟨rfl, extendCr_zero_toNat bf⟩, extendCr_e3_scalar_row bf 1#2, extendCr_e3_scalar_row bf 2#2,
    extendCr_e3_scalar_row bf 3#2, extendCr_e3_vector_row bf 0#2, extendCr_e3_vector_row bf 1#2,
    extendCr_e3_vector_row bf 2#2, extendCr_e3_vector_row bf 3#2,
    ⟨rfl, (extendCr_e2_scalar_row bf 0#1).2.trans (Nat.zero_add _)⟩, extendCr_e2_scalar_row bf 1#1,
    extendCr_e2_vector_row bf 0#1, extendCr_e2_vector_row bf 1#1⟩

/-! ### EXTRA3, backwards -/

/-- The register field and EXTRA3 value that stand for a tag and a register number: `extend` backwards (R203). -/
def encodingE3 : Bool → BitVec 7 → BitVec 5 × BitVec 3
  | false, n => (n.extractLsb' 0 5, 0#1 ++ n.extractLsb' 5 2)
  | true, n => (n.extractLsb' 2 5, 1#1 ++ n.extractLsb' 0 2)

theorem extend_encodingE3 (isVec : Bool) (n : BitVec 7) :
    extend (encodingE3 isVec n).1 (.e3 (encodingE3 isVec n).2) = (isVec, n) := by
  cases isVec with
  | false =>
    have hjoin : n.extractLsb' 5 2 ++ n.extractLsb' 0 5 = n := BitVec.extractLsb'_append_extractLsb' (w := 2) (len := 5)
    exact (extend_e3_tag _ 0#1 _).trans (congrArg (Prod.mk false) hjoin)
  | true =>
    have hjoin : n.extractLsb' 2 5 ++ n.extractLsb' 0 2 = n := BitVec.extractLsb'_append_extractLsb' (w := 5) (len := 2)
    exact (extend_e3_tag _ 1#1 _).trans (congrArg (Prod.mk true) hjoin)

theorem encodingE3_extend (ra : BitVec 5) (v : BitVec 3) :
    encodingE3 (extend ra (.e3 v)).1 (extend ra (.e3 v)).2 = (ra, v) := by
  have hsplit : v.extractLsb' 2 1 ++ v.extractLsb' 0 2 = v := BitVec.extractLsb'_append_extractLsb' (w := 1) (len := 2)
  obtain ⟨t, l, rfl⟩ : ∃ (t : BitVec 1) (l : BitVec 2), v = t ++ l := ⟨_, _, hsplit.symm⟩
  rw [extend_e3_tag]
  rcases BitVec.eq_zero_or_eq_one t with rfl | rfl
  · exact Prod.ext BitVec.extractLsb'_append_eq_right (congrArg (0#1 ++ ·) BitVec.extractLsb'_append_eq_left)
  · exact Prod.ext BitVec.extractLsb'_append_eq_left (congrArg (1#1 ++ ·) BitVec.extractLsb'_append_eq_right)

/-- Settles O11: `encodingE3` is a two-sided inverse of `extend`. -/
theorem extra3NamesEveryRegisterOnce : Obligations.Extra3NamesEveryRegisterOnce := by
  intro isVec n
  refine ⟨_, _, extend_encodingE3 isVec n, fun ra v h => ?_⟩
  have hinv : encodingE3 isVec n = (ra, v) := by
    have hback := encodingE3_extend ra v
    rwa [h] at hback
  exact ⟨(congrArg Prod.fst hinv).symm, (congrArg Prod.snd hinv).symm⟩

end Sys2Proof.Machine

/-! ## Elements of a CR-bit operand (R211) -/

namespace Sys2Proof.Machine

section
variable {s : State} {o : ExtOperand} {e : Nat}

theorem readEl_crBit (w : Nat) (hk : o.kind = .crBit) (hn : o.num + e < 128) :
    readEl s o e w = .ok ((BitVec.ofBool ((readCr s.cr (o.num + e)).getMsbD o.bit)).setWidth 64) := by
  rw [readEl, hk]
  exact if_pos hn

theorem writeEl_crBit (w : Nat) (v : Word) (hk : o.kind = .crBit) (hn : o.num + e < 128) :
    writeEl (fun _ => false) s o e w v =
      .ok (s.setCr (writeCr s.cr (o.num + e) (setCrFieldBit (readCr s.cr (o.num + e)) o.bit (v.getLsbD 0)))) := by
  rw [writeEl, hk]
  exact if_pos hn

end

/-- Each bit of a CR field after one bit of it is written. -/
theorem getMsbD_readCr_writeCr_setCrFieldBit (f : CrFile) {n b k : Nat} (v : Bool) (hn : n < 128) (hb : b < 4)
    (hk : k < 4) :
    (readCr (writeCr f n (setCrFieldBit (readCr f n) b v)) n).getMsbD k = if k = b then v else (readCr f n).getMsbD k := by
  rw [readCr_writeCr_same f hn, getMsbD_setCrFieldBit _ v hb hk]

/-- Settles O48: the element is one bit of one field, and a field's other bits and the other fields stay. -/
theorem crBitElementIsOneBitOfItsField : Obligations.CrBitElementIsOneBitOfItsField := by
  intro s o e w v hkind hbit hn
  refine ⟨⟨_, readEl_crBit w hkind hn, toNat_setWidth_ofBool _⟩, _, writeEl_crBit w v hkind hn, ?_, fun b hb hne => ?_, rfl,
    setCr_writeCr_frame s (o.num + e) _⟩
  · exact (getMsbD_readCr_writeCr_setCrFieldBit s.cr _ hn hbit hbit).trans (if_pos rfl)
  · exact (getMsbD_readCr_writeCr_setCrFieldBit s.cr _ hn hbit hb).trans (if_neg hne)

end Sys2Proof.Machine

/-! ## The unprefixed subset that always completes (45_base_subset.md, R221 to R223) -/

namespace Sys2Proof.Machine

/-- An instruction of one word that writes one GPR, RT a source or not: its result, the next address, its frame. -/
theorem setGprField_advance_spec (s : State) (r : BitVec 5) (v : Word) :
    readReg (advance (setGprField s r v) 4).gpr r.toNat = v ∧ (advance (setGprField s r v) 4).pc = s.pc + 4#64 ∧
      Frame (fun n => n = r.toNat) nowhere nowhere nowhere s (advance (setGprField s r v) 4) :=
  ⟨readReg_setGprField_same s r v, rfl, setGprField_advance_frame s r v 4⟩

theorem exec_add (rt ra rb : BitVec 5) (s : State) :
    exec (.add rt ra rb) s = .next (advance (setGprField s rt (gprField s ra + gprField s rb)) 4) := rfl

/-- Settles O15: `add` is one GPR written with the sum of two, read before the write. -/
theorem addWritesTheSum : Obligations.AddWritesTheSum := fun rt ra rb s =>
  ⟨_, exec_add rt ra rb s, setGprField_advance_spec s rt _⟩

theorem exec_addi (rt ra : BitVec 5) (si : BitVec 16) (s : State) :
    exec (.addi rt ra si) s = .next (advance (setGprField s rt (gprOrZero s ra + si.signExtend 64)) 4) := rfl

/-- Settles O16: `addi` is one GPR written with the sum of `gprOrZero` and the immediate. -/
theorem addiWritesTheSum : Obligations.AddiWritesTheSum := fun rt ra si s =>
  ⟨_, exec_addi rt ra si s, setGprField_advance_spec s rt _⟩

theorem exec_b (li : BitVec 24) (s : State) :
    exec (.b li) s = .next (s.setPc (s.pc + (li ++ 0#2).signExtend 64)) := rfl

/-- The displacement of `b`: LI with two zero bits after it, sign-extended, is four times the signed field (R223). -/
theorem signExtend_branchOffset (li : BitVec 24) : (li ++ 0#2).signExtend 64 = BitVec.ofInt 64 (4 * li.toInt) := by
  have htimes : (li ++ 0#2).toInt = 4 * li.toInt := by
    rw [BitVec.toInt_append_zero]
    omega
  rw [BitVec.signExtend, htimes]

/-- A state leaves itself alone. -/
theorem Frame.refl (s : State) : Frame nowhere nowhere nowhere nowhere s s where
  gpr _ _ := rfl
  fpr _ _ := rfl
  cr _ _ := rfl
  mem _ _ := rfl
  stored _ := (iff_of_eq (or_false _)).symm
  vl := rfl
  le := rfl
  launch := rfl

/-- Settles O17: `b` writes `pc` alone, which no frame speaks of. -/
theorem branchAddsItsDisplacement : Obligations.BranchAddsItsDisplacement := fun li s =>
  ⟨_, exec_b li s, congrArg (s.pc + ·) (signExtend_branchOffset li), (Frame.refl s).setPc _⟩

end Sys2Proof.Machine

/-! ## Traps depend on the words alone (R244, R245) -/

namespace Sys2Proof.Machine

/-- The rule of the pair traps on a suffix without an RM format before it looks at the state (R118). -/
theorem execSvp64_noFormat {c : RmCommon} {x : Slots} {sfx : Suffix} {s : State}
    (hf : (suffixProfile sfx).rmFormat = none) : execSvp64 c x sfx s = .fault (.illegalInstruction s.pc) :=
  if_pos hf

/-- The rule of the pair traps in one state only where it traps in all: neither of its two tests reads the state. -/
theorem execSvp64_fault_everywhere {c : RmCommon} {x : Slots} {sfx : Suffix} {s : State} {r : Fault}
    (h : execSvp64 c x sfx s = .fault r) (s' : State) :
    execSvp64 c x sfx s' = .fault (.illegalInstruction s'.pc) := by
  obtain ⟨-, hf | hres⟩ := execSvp64_fault h
  · exact execSvp64_noFormat hf
  · exact execSvp64_reserved hres

/-- Why an unsplit pair traps: its suffix word is no instruction, one without an RM format, or one with which the rule
of the pair traps (R114, R118). -/
theorem exec_sv_fault {rm : BitVec 24} {w : Insn} {s : State} {r : Fault} (h : exec (.sv rm w) s = .fault r) :
    isPrefixWord w = false ∧
      (decodeSuffix s.launch.base w = none ∨
        ∃ sfx, decodeSuffix s.launch.base w = some sfx ∧
          ((suffixProfile sfx).rmFormat = none ∨
            ∃ f, (suffixProfile sfx).rmFormat = some f ∧
              execSvp64 (commonOfRm rm) (slotsOfRm f rm) sfx s = .fault r)) := by
  cases hp : isPrefixWord w with
  | true => exact nomatch (exec_sv_prefixWord hp).symm.trans h
  | false =>
    refine ⟨rfl, ?_⟩
    cases hd : decodeSuffix s.launch.base w with
    | none => exact .inl rfl
    | some sfx =>
      refine .inr ⟨sfx, rfl, ?_⟩
      cases hf : (suffixProfile sfx).rmFormat with
      | none => exact .inl rfl
      | some f => exact .inr ⟨f, rfl, (exec_sv_of_format hp hd hf).symm.trans h⟩

/-- An unprefixed instruction of the opcode table never traps: it completes or is refused. -/
theorem exec_unprefixed_ne_fault {i : Instr} (hi : isPair i = false) (s : State) (r : Fault) :
    exec i s ≠ .fault r := by
  cases i with
  | add rt ra rb => exact fun h => nomatch h
  | addi rt ra si => exact fun h => nomatch h
  | b li => exact fun h => nomatch h
  | lwz rt ra d => exact outcomeOf_ne_fault
  | stw rs ra d => exact outcomeOf_ne_fault
  | _ => cases hi

/-- An instruction that traps in one state traps in every state with the same `Base`, at that state's `pc`. -/
theorem exec_fault_everywhere {i : Instr} {s s' : State} {r : Fault} (h : exec i s = .fault r)
    (hbase : s'.launch.base = s.launch.base) : exec i s' = .fault (.illegalInstruction s'.pc) := by
  cases hpair : isPair i with
  | false => exact absurd h (exec_unprefixed_ne_fault hpair s r)
  | true =>
    rcases isPair_cases hpair with ⟨rm, w, rfl⟩ | ⟨f, c, e, sfx, rfl, -⟩
    · obtain ⟨hp, hd | ⟨sfx, hd, hf | ⟨f, hf, hx⟩⟩⟩ := exec_sv_fault h
      · exact exec_sv_illegal hp (hbase ▸ hd)
      · exact exec_sv_unVectoriseable hp (hbase ▸ hd) hf
      · exact (exec_sv_of_format hp (hbase ▸ hd) hf).trans (execSvp64_fault_everywhere hx s')
    · rw [exec_pairOf] at h ⊢
      exact execSvp64_fault_everywhere h s'

/-- Settles O35; which fault it is follows from the trap in the state itself. -/
theorem trapsDependOnTheWordsAlone : Obligations.TrapsDependOnTheWordsAlone := by
  intro i s r h
  have hpc : r = .illegalInstruction s.pc := by simpa [h] using exec_fault_everywhere h rfl
  exact ⟨hpc, fun s' hbase => exec_fault_everywhere h hbase⟩

end Sys2Proof.Machine
